-- ==== Sys2Proof/Word.lean ====
section
/-! DEFINITION. The words of HUFFCORE and their widths (00_scope.md R5 to R14). -/

namespace Sys2Proof

/-- A command word, a token value, a count, a counter: 32 bits (R6, R10, R12). -/
abbrev Word := BitVec 32

/-- A packed byte, and an opcode (R52, R70). -/
abbrev Byte := BitVec 8

/-- A symbol, 0..255 (R5). -/
abbrev Sym := BitVec 8

/-- The 16-bit immediate of format I (R71). -/
abbrev Half := BitVec 16

/-- A node weight: 40 bits, so that a sum of 256 counts cannot overflow (R7). -/
abbrev Weight := BitVec 40

/-- A bit sequence, position 0 first (R14): a code, the pending bits, the accumulator. -/
abbrev Bits := List Bool

/-- A node index, 0..510 (R9). -/
abbrev NodeIdx := Fin 511

/-- A table with one entry per symbol (R50: every 8-bit symbol names a valid entry). -/
abbrev Table (α : Type) := Vector α 256

end Sys2Proof
end

