-- ==== Sys2Proof/Config.lean ====
section
/-! DEFINITION. What is fixed for the machine (00_scope.md R5 to R11) and what the spec leaves open. -/

namespace Sys2Proof

/-- NSYM, the alphabet size (R5). -/
abbrev Config.nsym : Nat := 256

/-- MAXLEN, the longest code (R8). -/
abbrev Config.maxLen : Nat := 255

/-- NNODES, the size of the node pool (R9). -/
abbrev Config.nnodes : Nat := 511

/-- The largest value of a 32-bit count or counter; passing it raises OVERFLOW (R6, R10). -/
abbrev Config.maxCount : Nat := 4294967295

/-- OUTQ_DEPTH (R11): the depth of the response FIFO, an OPEN parameter with no effect on any rule.
UNVERIFIED by any source; nothing constrains it (log 3). -/
opaque Config.outqDepth : Nat

/-- A free value: the code GEN_CODES would write for the leaf with this index where the spec defines none, because no chain
of parents joins that leaf to ROOT (42_tree_codes.md R118 defines `path` downward from ROOT only). It arises only in states
that no run reaches (log 7). -/
opaque Config.unrootedPath : Nat → Bits

end Sys2Proof
end

