-- ==== Sys2Proof/Syntax.lean ====
section
/-! DEFINITION. The 19 commands of 30_encoding.md R73, one constructor per row of spec/opcode_table.json. -/

namespace Sys2Proof

/-- A decoded command with its operands (30_encoding.md R71 to R73). -/
inductive Instr where
  /-- NOP, 0x00, format N (R92). -/
  | nop
  /-- CLEAR, 0x01, format N (R93). -/
  | clear
  /-- STATUS_READ, 0x02, format N (R94). -/
  | statusRead
  /-- ARG_LO, 0x03, format I (R95). -/
  | argLo (imm16 : Half)
  /-- ARG_HI, 0x04, format I (R96). -/
  | argHi (imm16 : Half)
  /-- FREQ_ADD, 0x10, format S (R100). -/
  | freqAdd (sym : Sym)
  /-- FREQ_SET, 0x11, format S (R101). -/
  | freqSet (sym : Sym)
  /-- FREQ_READ, 0x12, format S (R102). -/
  | freqRead (sym : Sym)
  /-- BUILD_TREE, 0x20, format N (R110). -/
  | buildTree
  /-- GEN_CODES, 0x21, format N (R117). -/
  | genCodes
  /-- CODE_READ, 0x22, format S (R121). -/
  | codeRead (sym : Sym)
  /-- ENC_SYM, 0x30, format S (R130). -/
  | encSym (sym : Sym)
  /-- ENC_FLUSH, 0x31, format N (R131). -/
  | encFlush
  /-- TBL_BEGIN, 0x40, format S (R140). -/
  | tblBegin (sym : Sym)
  /-- TBL_APPEND, 0x41, format A: the code bits to append, position 0 first (R72, R141). -/
  | tblAppend (bits : Bits)
  /-- TBL_INVERT, 0x42, format N (R142). -/
  | tblInvert
  /-- DEC_START, 0x50, format M: false is LENGTH mode, true is LEGACY mode (R72, R144). -/
  | decStart (legacy : Bool)
  /-- DEC_BYTE, 0x51, format S: the next packed byte (R72, R145). -/
  | decByte (byte : Byte)
  /-- DEC_END, 0x52, format N (R146). -/
  | decEnd
  deriving DecidableEq, Repr

end Sys2Proof
end

