-- ==== Sys2Proof/WellFormed.lean ====
section
/-! DEFINITION. Which commands have a word (30_encoding.md R71, R78): every operand but TBL_APPEND's is well-formed by its
type; TBL_APPEND carries n = nm1 + 1 bits, 1 to 16. -/

namespace Sys2Proof

/-- The command has an encoding: TBL_APPEND has 1 to 16 code bits (R71 format A). -/
def Instr.wf : Instr → Bool
  | .nop => true
  | .clear => true
  | .statusRead => true
  | .argLo _ => true
  | .argHi _ => true
  | .freqAdd _ => true
  | .freqSet _ => true
  | .freqRead _ => true
  | .buildTree => true
  | .genCodes => true
  | .codeRead _ => true
  | .encSym _ => true
  | .encFlush => true
  | .tblBegin _ => true
  | .tblAppend bits => decide (1 ≤ bits.length) && decide (bits.length ≤ 16)
  | .tblInvert => true
  | .decStart _ => true
  | .decByte _ => true
  | .decEnd => true

end Sys2Proof
end

