-- ==== Sys2Proof/Decode.lean ====
section
/-! DEFINITION. The bit-sequence helpers of 00_scope.md R14, the decoder of 30_encoding.md R75, total on every 32-bit word
and rejecting by name, and after it the encoder of R71 to R73. -/

namespace Sys2Proof

/-- `bitsMSB(v, n)`: the n low bits of v, most significant first (R14). -/
def bitsMSB (v : Nat) : Nat → Bits
  | 0 => []
  | n + 1 => v.testBit n :: bitsMSB v n

/-- `val(x)`: the value of a bit sequence read most-significant first (R14). -/
def bitsVal (x : Bits) : Nat :=
  x.foldl (fun acc b => 2 * acc + b.toNat) 0

/-- x filled with 0 bits behind it up to length n (R54: left-aligned, unused low bits 0). -/
def padTo (n : Nat) (x : Bits) : Bits :=
  x ++ List.replicate (n - x.length) false

/-- Why a word is malformed (30_encoding.md R74): all three raise ILLEGAL. -/
inductive Malformed where
  /-- The opcode is not one of R73's. -/
  | reservedOpcode
  /-- A bit the format marks 0 is 1. -/
  | reservedBit
  /-- TBL_APPEND with a 1 among the payload bits it does not use. -/
  | unusedPayloadBit
  deriving DecidableEq, Repr

/-! ### Opcodes (30_encoding.md R73) -/

abbrev Opcode.nop : Byte := 0x00
abbrev Opcode.clear : Byte := 0x01
abbrev Opcode.statusRead : Byte := 0x02
abbrev Opcode.argLo : Byte := 0x03
abbrev Opcode.argHi : Byte := 0x04
abbrev Opcode.freqAdd : Byte := 0x10
abbrev Opcode.freqSet : Byte := 0x11
abbrev Opcode.freqRead : Byte := 0x12
abbrev Opcode.buildTree : Byte := 0x20
abbrev Opcode.genCodes : Byte := 0x21
abbrev Opcode.codeRead : Byte := 0x22
abbrev Opcode.encSym : Byte := 0x30
abbrev Opcode.encFlush : Byte := 0x31
abbrev Opcode.tblBegin : Byte := 0x40
abbrev Opcode.tblAppend : Byte := 0x41
abbrev Opcode.tblInvert : Byte := 0x42
abbrev Opcode.decStart : Byte := 0x50
abbrev Opcode.decByte : Byte := 0x51
abbrev Opcode.decEnd : Byte := 0x52

/-- `cmd[31:24]` (R70). -/
def wordOpcode (w : Word) : Byte := w.extractLsb' 24 8

/-! ### The five formats (30_encoding.md R71) -/

/-- Format N: bits 23:0 are 0. -/
def decodeN (i : Instr) (w : Word) : Except Malformed Instr :=
  if w.extractLsb' 0 24 = 0 then .ok i else .error .reservedBit

/-- Format S: bits 23:8 are 0, bits 7:0 are the symbol or the packed byte. -/
def decodeS (c : Byte → Instr) (w : Word) : Except Malformed Instr :=
  if w.extractLsb' 8 16 = 0 then .ok (c (w.extractLsb' 0 8)) else .error .reservedBit

/-- Format I: bits 23:16 are 0, bits 15:0 are the immediate. -/
def decodeI (c : Half → Instr) (w : Word) : Except Malformed Instr :=
  if w.extractLsb' 16 8 = 0 then .ok (c (w.extractLsb' 0 16)) else .error .reservedBit

/-- Format A: bits 23:20 are 0, n = bits 19:16 plus 1, the n code bits are payload[15:16-n], the rest of the payload is 0. -/
def decodeA (c : Bits → Instr) (w : Word) : Except Malformed Instr :=
  let n := (w.extractLsb' 16 4).toNat + 1
  let payload := (w.extractLsb' 0 16).toNat
  if w.extractLsb' 20 4 ≠ 0 then .error .reservedBit
  else if payload % 2 ^ (16 - n) ≠ 0 then .error .unusedPayloadBit
  else .ok (c (bitsMSB (payload / 2 ^ (16 - n)) n))

/-- Format M: bits 23:1 are 0, bit 0 is the mode. -/
def decodeM (c : Bool → Instr) (w : Word) : Except Malformed Instr :=
  if w.extractLsb' 1 23 = 0 then .ok (c (w.getLsbD 0)) else .error .reservedBit

/-- The decode function of R75. -/
def decode (w : Word) : Except Malformed Instr :=
  let op := wordOpcode w
  if op = Opcode.nop then decodeN .nop w
  else if op = Opcode.clear then decodeN .clear w
  else if op = Opcode.statusRead then decodeN .statusRead w
  else if op = Opcode.argLo then decodeI .argLo w
  else if op = Opcode.argHi then decodeI .argHi w
  else if op = Opcode.freqAdd then decodeS .freqAdd w
  else if op = Opcode.freqSet then decodeS .freqSet w
  else if op = Opcode.freqRead then decodeS .freqRead w
  else if op = Opcode.buildTree then decodeN .buildTree w
  else if op = Opcode.genCodes then decodeN .genCodes w
  else if op = Opcode.codeRead then decodeS .codeRead w
  else if op = Opcode.encSym then decodeS .encSym w
  else if op = Opcode.encFlush then decodeN .encFlush w
  else if op = Opcode.tblBegin then decodeS .tblBegin w
  else if op = Opcode.tblAppend then decodeA .tblAppend w
  else if op = Opcode.tblInvert then decodeN .tblInvert w
  else if op = Opcode.decStart then decodeM .decStart w
  else if op = Opcode.decByte then decodeS .decByte w
  else if op = Opcode.decEnd then decodeN .decEnd w
  else .error .reservedOpcode

/-- The command an opcode-table word of `nbits` bits stands for; a command is exactly one 32-bit word (R70, R76). -/
def decodeTableWord (nbits w : Nat) : Option Instr :=
  if nbits ≤ 32 then
    match decode (BitVec.ofNat 32 (w % 2 ^ nbits)) with
    | .ok i => some i
    | .error _ => none
  else none

/-! ### The encoder (30_encoding.md R71 to R73) -/

/-- Format N: the opcode in bits 31:24. -/
def encodeN (op : Byte) : Word := op.setWidth 32 <<< 24

/-- Format S: the symbol or the packed byte in bits 7:0. -/
def encodeS (op x : Byte) : Word := encodeN op ||| x.setWidth 32

/-- Format I: the immediate in bits 15:0. -/
def encodeI (op : Byte) (imm16 : Half) : Word := encodeN op ||| imm16.setWidth 32

/-- Format A: nm1 = n - 1 in bits 19:16, and the code bits left-aligned in the payload (R54, R71). -/
def encodeA (op : Byte) (bits : Bits) : Word :=
  encodeN op ||| ((BitVec.ofNat 4 (bits.length - 1)).setWidth 32 <<< 16)
    ||| (BitVec.ofNat 16 (bitsVal (padTo 16 bits))).setWidth 32

/-- Format M: the mode in bit 0. -/
def encodeM (op : Byte) (legacy : Bool) : Word := encodeN op ||| (BitVec.ofBool legacy).setWidth 32

/-- The opcode of a command (R73). -/
def Instr.opcode : Instr → Byte
  | .nop => Opcode.nop
  | .clear => Opcode.clear
  | .statusRead => Opcode.statusRead
  | .argLo _ => Opcode.argLo
  | .argHi _ => Opcode.argHi
  | .freqAdd _ => Opcode.freqAdd
  | .freqSet _ => Opcode.freqSet
  | .freqRead _ => Opcode.freqRead
  | .buildTree => Opcode.buildTree
  | .genCodes => Opcode.genCodes
  | .codeRead _ => Opcode.codeRead
  | .encSym _ => Opcode.encSym
  | .encFlush => Opcode.encFlush
  | .tblBegin _ => Opcode.tblBegin
  | .tblAppend _ => Opcode.tblAppend
  | .tblInvert => Opcode.tblInvert
  | .decStart _ => Opcode.decStart
  | .decByte _ => Opcode.decByte
  | .decEnd => Opcode.decEnd

/-- The word of a command (R71, R73). -/
def encode (i : Instr) : Word :=
  match i with
  | .nop => encodeN Opcode.nop
  | .clear => encodeN Opcode.clear
  | .statusRead => encodeN Opcode.statusRead
  | .argLo imm16 => encodeI Opcode.argLo imm16
  | .argHi imm16 => encodeI Opcode.argHi imm16
  | .freqAdd sym => encodeS Opcode.freqAdd sym
  | .freqSet sym => encodeS Opcode.freqSet sym
  | .freqRead sym => encodeS Opcode.freqRead sym
  | .buildTree => encodeN Opcode.buildTree
  | .genCodes => encodeN Opcode.genCodes
  | .codeRead sym => encodeS Opcode.codeRead sym
  | .encSym sym => encodeS Opcode.encSym sym
  | .encFlush => encodeN Opcode.encFlush
  | .tblBegin sym => encodeS Opcode.tblBegin sym
  | .tblAppend bits => encodeA Opcode.tblAppend bits
  | .tblInvert => encodeN Opcode.tblInvert
  | .decStart legacy => encodeM Opcode.decStart legacy
  | .decByte byte => encodeS Opcode.decByte byte
  | .decEnd => encodeN Opcode.decEnd

end Sys2Proof
end

