-- ==== Sys2Proof/Machine/State.lean ====
section
/-! DEFINITION. The engine's state as plain data: the record of 10_state.md R20, and beside it the command port. -/

namespace Sys2Proof.Machine

/-- PHASE (10_state.md R29): every 3-bit value is legal and named. -/
inductive Phase where
  /-- 0: Frequency Map open for counting. -/
  | freq
  /-- 1: tree built, or EMPTY. -/
  | tree
  /-- 2: Code Table generated; packing allowed. -/
  | codes
  /-- 3: packed stream flushed. -/
  | encDone
  /-- 4: a Code Table is being loaded for decoding. -/
  | tblLoad
  /-- 5: reverse map built; ready to decode. -/
  | rmap
  /-- 6: decoding a packed stream. -/
  | dec
  /-- 7: decoding finished. -/
  | decDone
  deriving DecidableEq, Repr

/-- The error causes of 60_exceptions.md R160. ERR = NONE is `none` of `Option Error`; the reserved codes have no value. -/
inductive Error where
  /-- 1: a malformed word. -/
  | illegal
  /-- 2: a command in a phase where it is not legal. -/
  | sequence
  /-- 3: ENC_SYM of a symbol with no Code Table entry. -/
  | encoding
  /-- 4: a code over 255 bits, an empty code, or two equal codes. -/
  | corruptTable
  /-- 5: a bit sequence that never resolves to a code, or a stream that disagrees with its length. -/
  | decoding
  /-- 7: a 32-bit count would pass 0xFFFFFFFF. -/
  | overflow
  deriving DecidableEq, Repr

/-- KIND of a node (10_state.md R22): 0 = leaf, 1 = internal. -/
inductive NodeKind where
  | leaf
  | internal
  deriving DecidableEq, Repr

/-- A node record (10_state.md R22). -/
structure Node where
  kind : NodeKind
  /-- SYM: the leaf's symbol; 0 and unused for an internal node. -/
  sym : Sym
  /-- W: a leaf's frequency, or the sum of its children's weights. -/
  w : Weight
  /-- L: the left child of an internal node; 0 and unused for a leaf. -/
  l : NodeIdx
  /-- R: the right child of an internal node; 0 and unused for a leaf. -/
  r : NodeIdx
  /-- LIVE: the node is in the priority queue. -/
  live : Bool
  deriving DecidableEq, Repr

/-- Every field of a node 0 (10_state.md R20, R22). -/
abbrev Node.zero : Node := ⟨.leaf, 0, 0, 0, 0, false⟩

/-- A code entry (10_state.md R23). LEN is the length of BITS and is held once, as that (log 5). -/
structure CodeEntry where
  valid : Bool
  /-- BITS, position 0 the bit nearest the root. -/
  bits : Bits
  deriving DecidableEq, Repr

/-- An absent entry: VALID 0, LEN 0, BITS [] (10_state.md R20, R23). -/
abbrev CodeEntry.absent : CodeEntry := ⟨false, []⟩

/-- A response token, one constructor per tag the engine emits (30_encoding.md R77). -/
inductive Token where
  /-- 0x1 BYTE: one packed byte. -/
  | byte (b : Byte)
  /-- 0x2 LEN: BITCNT. -/
  | len (bits : Word)
  /-- 0x3 SYM: one decoded symbol. -/
  | sym (s : Sym)
  /-- 0x4 END: DSYMS. -/
  | fin (symbols : Word)
  /-- 0x5 FREQ: a count. -/
  | freq (count : Word)
  /-- 0x6 CODELEN: VALID and LEN of a code entry. -/
  | codeLen (valid : Bool) (len : BitVec 8)
  /-- 0x7 CODEBITS: 32 code bits, left-aligned. -/
  | codeBits (bits : Word)
  /-- 0x8 STATUS: the status word. -/
  | status (word : Word)
  /-- 0xF ERR: the failing word's opcode and the error (60_exceptions.md R163). -/
  | err (opcode : Byte) (code : Error)
  deriving DecidableEq, Repr

/-- Reasons a step stops with a fault: NONE. A step of the engine succeeds, raises an error (which is a next state) or discards
the word (00_scope.md R16), and an idle engine waits (60_exceptions.md R175). -/
inductive Fault where
  deriving DecidableEq, Repr

/-- Reasons a step has no meaning. -/
inductive Refusal where
  /-- An instruction with no meaning in `exec` yet; raised by no arm, since every word has a defined outcome
  (30_encoding.md R80). Safe. -/
  | notModelled (mnemonic : String)
  deriving DecidableEq, Repr

/-- The engine's state, "exactly the following record": one field per row of 10_state.md R20 and nothing else. -/
structure Engine where
  /-- FREQ (R21): the Frequency Map storage. -/
  freq : Table Word
  /-- NODE (R22): the node pool. -/
  nodes : Vector Node 511
  /-- NN (R22): the number of allocated nodes, 0..511, the only values its 10 bits take (log 6). -/
  nn : Fin 512
  /-- ROOT (R22): the index of the root node. -/
  root : NodeIdx
  /-- CODE (R23): the Code Table storage. -/
  code : Table CodeEntry
  /-- LMAX (R24): the longest valid code, as last computed. -/
  lmax : BitVec 8
  /-- EMPTY (R25): BUILD_TREE found the Frequency Map empty. -/
  empty : Bool
  /-- PEND (R26): code bits not yet emitted as a byte. -/
  pend : Bits
  /-- BITCNT (R26): code bits packed since the last CLEAR. -/
  bitcnt : Word
  /-- DACC (R27): the unpacker's accumulator. -/
  dacc : Bits
  /-- LEGACY (R27): the decode mode, false = LENGTH, true = LEGACY. -/
  legacy : Bool
  /-- BITLEN (R27): the expected number of data bits. -/
  bitlen : Word
  /-- DBYTES (R27): packed bytes consumed since DEC_START. -/
  dbytes : Word
  /-- DSYMS (R27): symbols decoded since DEC_START. -/
  dsyms : Word
  /-- ARG (R28): the 32-bit argument register. -/
  arg : Word
  /-- SEL (R28): the symbol TBL_BEGIN last opened. -/
  sel : Sym
  /-- PHASE (R29). -/
  phase : Phase
  /-- ERR (R30): the sticky error; `none` is NONE. -/
  err : Option Error
  /-- RESP (R32): the response stream, oldest token first. -/
  resp : List Token
  deriving DecidableEq, Repr

/-- What a step takes: the engine, and its input. -/
structure State extends Engine where
  /-- The command words waiting at the command port, oldest first (40_control.md R90). No part of R20's record and the
  model's own, DESIGN CHOICE: the host's step takes a state and nothing else (log 1). -/
  port : List Word
  deriving DecidableEq, Repr

/-- The state after power-on reset (10_state.md R20, 70_reset_and_hazards.md R190, R191). Every value is the spec's, but for the
empty port (DESIGN CHOICE, log 1). -/
def State.reset : State where
  freq := Vector.replicate 256 0
  nodes := Vector.replicate 511 Node.zero
  nn := 0
  root := 0
  code := Vector.replicate 256 CodeEntry.absent
  lmax := 0
  empty := false
  pend := []
  bitcnt := 0
  dacc := []
  legacy := false
  bitlen := 0
  dbytes := 0
  dsyms := 0
  arg := 0
  sel := 0
  phase := .freq
  err := none
  resp := []
  port := []

end Sys2Proof.Machine
end

