-- ==== Sys2Proof/Machine/Ops.lean ====
section
/-! DEFINITION. The named operations every command is written with: table access, emission, the step frame of
40_control.md R90 with its gate and phase check, taking an error (60_exceptions.md R162) and leaving it (R166), and taking a
word from the command port. -/

namespace Sys2Proof.Machine

/-! ### Tables (20_memory.md R50, R57: one whole entry, named by a symbol) -/

/-- `T[s]` (00_scope.md R15). -/
def entry {α : Type} (t : Table α) (s : Sym) : α := t[s.toNat]'(s.isLt)

/-- `T[s] <- v` (00_scope.md R15). -/
def setEntry {α : Type} (t : Table α) (s : Sym) (v : α) : Table α := t.set s.toNat v s.isLt

/-- `FREQ[s]` (10_state.md R21). -/
def State.freqOf (s : State) (sym : Sym) : Word := entry s.freq sym

/-- `CODE[s]` (10_state.md R23). -/
def State.codeOf (s : State) (sym : Sym) : CodeEntry := entry s.code sym

/-- LEN of a code entry (10_state.md R23): the length of BITS, in its 8 bits. -/
def CodeEntry.len (e : CodeEntry) : BitVec 8 := BitVec.ofNat 8 e.bits.length

/-- The allocated nodes 0..NN-1 (10_state.md R22). -/
def State.pool (s : State) : List Node := s.nodes.toList.take s.nn.val

/-- Nodes 0..n-1 of the pool replaced by the n nodes of `pool`; the others as they were (42_tree_codes.md R110). -/
def storePool (old : Vector Node 511) (pool : List Node) : Vector Node 511 :=
  ⟨(pool.take 511 ++ old.toList.drop pool.length).toArray, by simp; omega⟩

/-! ### Emission (00_scope.md R15) -/

/-- `Emit`, for a list of tokens in order. -/
def State.emit (s : State) (out : List Token) : State := { s with resp := s.resp ++ out }

/-! ### Errors (60_exceptions.md) -/

/-- A `raise Error(code)` inside a command, with the tokens the command emitted before it (00_scope.md R15). -/
structure Raise where
  code : Error
  emitted : List Token
  deriving DecidableEq, Repr

/-- A raise before any token is emitted. -/
abbrev Raise.plain (e : Error) : Raise := ⟨e, []⟩

/-- ERROR ENTRY (R162), the one operation every error goes through. `s` is the state before the command, so that the rollback
of every element but RESP is by construction: ERR takes the code, and RESP keeps the tokens emitted before the raise and gets
the ERR token with the failing word's opcode (R163). -/
def raiseError (op : Byte) (r : Raise) (s : State) : State :=
  { s with err := some r.code, resp := s.resp ++ r.emitted ++ [.err op r.code] }

/-- LEAVING THE ERROR STATE and starting a session (R166, 40_control.md R93): every element but RESP takes its reset value. -/
def clearSession (s : State) : State :=
  { State.reset with resp := s.resp, port := s.port }

/-! ### The step frame (40_control.md R90) -/

/-- A command that executes in every phase and in the error state (60_exceptions.md R164). -/
def always (body : State → State) (s : State) : Host.Outcome State Fault Refusal :=
  .next (body s)

/-- A command that is legal in every phase and discarded in the error state (R164). -/
def unlessError (body : State → State) (s : State) : Host.Outcome State Fault Refusal :=
  match s.err with
  | some _ => .next s
  | none => .next (body s)

/-- A command that is discarded in the error state (R164), raises SEQUENCE outside its legal phases (R91), and otherwise has
its own effect or raises its own error. The order is the priority of R165. -/
def inPhases (op : Byte) (legal : List Phase) (body : State → Except Raise State) (s : State) :
    Host.Outcome State Fault Refusal :=
  match s.err with
  | some _ => .next s
  | none =>
    if s.phase ∈ legal then
      match body s with
      | .ok t => .next t
      | .error r => .next (raiseError op r s)
    else .next (raiseError op (.plain .sequence) s)

/-! ### The command port (40_control.md R90) -/

/-- The next command word and the state with it consumed (20_memory.md R62); none while no word waits. -/
def fetch (s : State) : Option (Word × State) :=
  match s.port with
  | [] => none
  | w :: rest => some (w, { s with port := rest })

/-- A malformed word: discarded in the error state (R164), otherwise ILLEGAL with the word's bits 31:24 (R163, R165). -/
def takeMalformed (w : Word) (s : State) : State :=
  match s.err with
  | some _ => s
  | none => raiseError (wordOpcode w) (.plain .illegal) s

/-- A word put in front of the words that wait, so that it is the next one taken. -/
def State.pushWord (s : State) (w : Word) : State := { s with port := w :: s.port }

/-! ### What the host does to the engine (60_exceptions.md R176) -/

/-- The host sends one more command word, behind those that wait (20_memory.md R59). -/
def hostSend (w : Word) (s : State) : State := { s with port := s.port ++ [w] }

/-- The host removes k tokens from the front of RESP (10_state.md R32). -/
def hostDrain (k : Nat) (s : State) : State := { s with resp := s.resp.drop k }

/-- Power-on reset, between commands (70_reset_and_hazards.md R190 to R192): RESP is emptied too. The words that waited are gone
with it, DESIGN CHOICE (log 1). -/
def powerOnReset (_ : State) : State := State.reset

end Sys2Proof.Machine
end

