-- ==== Sys2Proof/Machine/Operands.lean ====
section
/-! DEFINITION. How operands and bit fields are assembled (30_encoding.md R72, 20_memory.md R52 to R54): the two halves of ARG,
the bits of a packed byte, bytes from stream bits, and code bits in 32-bit fields. -/

namespace Sys2Proof.Machine

/-- `(ARG[31:16] << 16) | imm16` (40_control.md R95). -/
def putLo (arg : Word) (imm16 : Half) : Word := ((arg.extractLsb' 16 16).setWidth 32 <<< 16) ||| imm16.setWidth 32

/-- `(imm16 << 16) | ARG[15:0]` (40_control.md R96). -/
def putHi (arg : Word) (imm16 : Half) : Word := (imm16.setWidth 32 <<< 16) ||| (arg.extractLsb' 0 16).setWidth 32

/-- The bits of a packed byte in stream order, bit 7 first (20_memory.md R52). -/
def byteBits (b : Byte) : Bits := bitsMSB b.toNat 8

/-- A byte from stream bits, the first in bit 7, 0 bits behind the last (R52, 43_packer.md R131). -/
def bitsByte (x : Bits) : Byte := BitVec.ofNat 8 (bitsVal (padTo 8 x))

/-- `ceil8(n) = (n + 7) div 8` (00_scope.md R13). -/
def ceil8 (n : Nat) : Nat := (n + 7) / 8

/-- The whole bytes of a stream: byte k is `val(x⟨8k..8k+8⟩)` (R52). -/
def fullBytes (x : Bits) : List Byte :=
  (List.range (x.length / 8)).map fun k => bitsByte ((x.drop (8 * k)).take 8)

/-- The bits behind the last whole byte, 0 to 7 of them (43_packer.md R130). -/
def leftover (x : Bits) : Bits := x.drop (8 * (x.length / 8))

/-- The CODEBITS words of a code: word k holds positions 32k to 32k+31, position 32k in bit 31, 0 past the code's end
(42_tree_codes.md R121). -/
def codeWords (x : Bits) : List Word :=
  (List.range ((x.length + 31) / 32)).map fun k => BitVec.ofNat 32 (bitsVal (padTo 32 ((x.drop (32 * k)).take 32)))

end Sys2Proof.Machine
end

