-- ==== Sys2Proof/Machine/Flags.lean ====
section
/-! DEFINITION. The codes of PHASE and ERR, the computed status fields NDIST and LMAX, the STATUS word (10_state.md R24, R29 to
R31), and a token's tag, value and 36-bit form (30_encoding.md R77). -/

namespace Sys2Proof.Machine

/-- The 3-bit value of PHASE (10_state.md R29). -/
def Phase.code : Phase → BitVec 3
  | .freq => 0
  | .tree => 1
  | .codes => 2
  | .encDone => 3
  | .tblLoad => 4
  | .rmap => 5
  | .dec => 6
  | .decDone => 7

/-- The 4-bit code of an error (10_state.md R30, 60_exceptions.md R160). -/
def Error.code : Error → BitVec 4
  | .illegal => 1
  | .sequence => 2
  | .encoding => 3
  | .corruptTable => 4
  | .decoding => 5
  | .overflow => 7

/-- The 4-bit value of ERR; NONE is 0 (10_state.md R30). -/
def errCode : Option Error → BitVec 4
  | none => 0
  | some e => e.code

/-- NDIST, the number of symbols s with FREQ[s] ≥ 1 (41_frequency.md R103). -/
def ndist (freq : Table Word) : Nat := freq.toList.countP fun c => c != 0

/-- The largest LEN over the valid entries, 0 if there are none (10_state.md R24). -/
def longest (code : Table CodeEntry) : Nat :=
  code.toList.foldr (fun e m => if e.valid then max e.bits.length m else m) 0

/-- STATUS (10_state.md R31): ERR in 3:0, PHASE in 6:4, EMPTY in 7, LMAX in 15:8, NDIST in 24:16, LEGACY in 25, the rest 0. -/
def statusWord (s : State) : Word :=
  (errCode s.err).setWidth 32 ||| (s.phase.code.setWidth 32 <<< 4) ||| ((BitVec.ofBool s.empty).setWidth 32 <<< 7)
    ||| (s.lmax.setWidth 32 <<< 8) ||| (BitVec.ofNat 32 (ndist s.freq) <<< 16)
    ||| ((BitVec.ofBool s.legacy).setWidth 32 <<< 25)

/-- The 4-bit tag of a token (30_encoding.md R77). -/
def Token.tag : Token → BitVec 4
  | .byte _ => 0x1
  | .len _ => 0x2
  | .sym _ => 0x3
  | .fin _ => 0x4
  | .freq _ => 0x5
  | .codeLen _ _ => 0x6
  | .codeBits _ => 0x7
  | .status _ => 0x8
  | .err _ _ => 0xF

/-- The 32-bit value of a token (R77, 60_exceptions.md R163). -/
def Token.value : Token → Word
  | .byte b => b.setWidth 32
  | .len bits => bits
  | .sym s => s.setWidth 32
  | .fin symbols => symbols
  | .freq count => count
  | .codeLen valid n => ((BitVec.ofBool valid).setWidth 32 <<< 8) ||| n.setWidth 32
  | .codeBits bits => bits
  | .status word => word
  | .err opcode code => (opcode.setWidth 32 <<< 24) ||| code.code.setWidth 32

/-- A token on a physical channel: the tag in bits 35:32, the value in bits 31:0 (R77). -/
def Token.wire (t : Token) : BitVec 36 := (t.tag.setWidth 36 <<< 32) ||| t.value.setWidth 36

end Sys2Proof.Machine
end

