-- ==== Sys2Proof/Machine/Control.lean ====
section
/-! DEFINITION. The control commands (40_control.md R92 to R96). -/

namespace Sys2Proof.Machine

/-- NOP (R92): skip. -/
def execNop (s : State) : Host.Outcome State Fault Refusal := always id s

/-- CLEAR (R93): a new session; RESP is not touched. -/
def execClear (s : State) : Host.Outcome State Fault Refusal := always clearSession s

/-- STATUS_READ (R94): `Emit(STATUS, STATUS)`. -/
def execStatusRead (s : State) : Host.Outcome State Fault Refusal :=
  always (fun s => s.emit [.status (statusWord s)]) s

/-- ARG_LO (R95): the low half of ARG. -/
def execArgLo (imm16 : Half) (s : State) : Host.Outcome State Fault Refusal :=
  unlessError (fun s => { s with arg := putLo s.arg imm16 }) s

/-- ARG_HI (R96): the high half of ARG. -/
def execArgHi (imm16 : Half) (s : State) : Host.Outcome State Fault Refusal :=
  unlessError (fun s => { s with arg := putHi s.arg imm16 }) s

end Sys2Proof.Machine
end

