-- ==== Sys2Proof/Machine/Frequency.lean ====
section
/-! DEFINITION. The Frequency Analyzer commands (41_frequency.md R100 to R102). -/

namespace Sys2Proof.Machine

/-- FREQ_ADD past the phase check (R100): one more occurrence, or OVERFLOW at 2^32 - 1. -/
def freqAdd (sym : Sym) (s : State) : Except Raise State :=
  if (s.freqOf sym).toNat = Config.maxCount then .error (.plain .overflow)
  else .ok { s with freq := setEntry s.freq sym (s.freqOf sym + 1) }

/-- FREQ_ADD (R100). -/
def execFreqAdd (sym : Sym) (s : State) : Host.Outcome State Fault Refusal :=
  inPhases Opcode.freqAdd [.freq] (freqAdd sym) s

/-- FREQ_SET (R101): the count is ARG. -/
def execFreqSet (sym : Sym) (s : State) : Host.Outcome State Fault Refusal :=
  inPhases Opcode.freqSet [.freq] (fun s => .ok { s with freq := setEntry s.freq sym s.arg }) s

/-- FREQ_READ (R102): `Emit(FREQ, FREQ[sym])`. -/
def execFreqRead (sym : Sym) (s : State) : Host.Outcome State Fault Refusal :=
  always (fun s => s.emit [.freq (s.freqOf sym)]) s

end Sys2Proof.Machine
end

