-- ==== Sys2Proof/Machine/Packer.lean ====
section
/-! DEFINITION. The Bit Packer commands (43_packer.md R130, R131). -/

namespace Sys2Proof.Machine

/-- ENC_SYM past the phase check (R130): ENCODING before OVERFLOW, then the full bytes go out and 0 to 7 bits stay. -/
def encSym (sym : Sym) (s : State) : Except Raise State :=
  let e := s.codeOf sym
  if e.valid = false then .error (.plain .encoding)
  else if Config.maxCount < s.bitcnt.toNat + e.bits.length then .error (.plain .overflow)
  else
    let x := s.pend ++ e.bits
    .ok { s with
      bitcnt := s.bitcnt + BitVec.ofNat 32 e.bits.length
      pend := leftover x
      resp := s.resp ++ (fullBytes x).map .byte }

/-- ENC_SYM (R130). -/
def execEncSym (sym : Sym) (s : State) : Host.Outcome State Fault Refusal :=
  inPhases Opcode.encSym [.codes] (encSym sym) s

/-- The tokens of ENC_FLUSH (R131): the padded last byte if bits are pending, then LEN. -/
def flushTokens (s : State) : List Token :=
  (if s.pend = [] then [] else [.byte (bitsByte s.pend)]) ++ [.len s.bitcnt]

/-- ENC_FLUSH (R131). -/
def execEncFlush (s : State) : Host.Outcome State Fault Refusal :=
  inPhases Opcode.encFlush [.codes]
    (fun s => .ok { s with pend := [], phase := .encDone, resp := s.resp ++ flushTokens s }) s

end Sys2Proof.Machine
end

