-- ==== Sys2Proof/Machine/TreeCodes.lean ====
section
/-! DEFINITION. The Huffman Tree Builder and Code Table Generator commands (42_tree_codes.md R110 to R121). The allocated part of
the node pool is worked on as the list of nodes 0..NN-1, so a node's index is its place in the list. -/

namespace Sys2Proof.Machine

/-! ### BUILD_TREE -/

/-- A leaf in the queue (R110): its symbol, and its frequency as weight. -/
def leafNode (sym : Sym) (count : Word) : Node := ⟨.leaf, sym, count.setWidth 40, 0, 0, true⟩

/-- One leaf per symbol of the Frequency Map, in ascending symbol value (R111). -/
def leaves (freq : Table Word) : List Node :=
  freq.toList.zipIdx.filterMap fun p => if p.1 = 0 then none else some (leafNode (BitVec.ofNat 8 p.2) p.1)

/-- The index and weight of the first node in queue order, the order of the pair (W, index) (R112): the head of the list wins
a tie because its index is lower. -/
def minLive : List Node → Option (Nat × Weight)
  | [] => none
  | nd :: rest =>
    match minLive rest with
    | none => if nd.live then some (0, nd.w) else none
    | some (j, w) => if nd.live ∧ nd.w ≤ w then some (0, nd.w) else some (j + 1, w)

/-- `extractMin()` (R110): the first node in queue order, its weight, and the pool with that node out of the queue. -/
def extractMin (pool : List Node) : Option (Nat × Weight × List Node) :=
  match minLive pool with
  | none => none
  | some (i, w) => some (i, w, pool.modify i fun nd => { nd with live := false })

/-- A new internal node (R113): left is the first extracted, right the second, the weight their sum. -/
def internalNode (a b : Nat) (w : Weight) : Node := ⟨.internal, 0, w, Fin.ofNat 511 a, Fin.ofNat 511 b, true⟩

/-- One merge (R113): the new node takes the next free index. None with fewer than two nodes in the queue. -/
def mergeStep (pool : List Node) : Option (List Node) :=
  match extractMin pool with
  | none => none
  | some (a, wa, pool₁) =>
    match extractMin pool₁ with
    | none => none
    | some (b, wb, pool₂) => some (pool₂ ++ [internalNode a b (wa + wb)])

/-- The number of nodes in the priority queue (10_state.md R22: LIVE = 1). -/
def liveCount (pool : List Node) : Nat := pool.countP fun nd => nd.live

/-- The merge loop (R110, R114): while more than one node is in the queue. `fuel` bounds the merges. -/
def mergeAll : Nat → List Node → List Node
  | 0, pool => pool
  | fuel + 1, pool =>
    if 1 < liveCount pool then
      match mergeStep pool with
      | some pool' => mergeAll fuel pool'
      | none => pool
    else pool

/-- The pool BUILD_TREE makes from the Frequency Map; at most 255 merges (70_reset_and_hazards.md R197). -/
def buildPool (freq : Table Word) : List Node := mergeAll 255 (leaves freq)

/-- BUILD_TREE past the phase check (R110, R114, R116). -/
def buildTree (s : State) : State :=
  let pool := buildPool s.freq
  if pool = [] then { s with nn := 0, root := 0, empty := true, phase := .tree }
  else
    { s with
      nodes := storePool s.nodes pool
      nn := Fin.ofNat 512 pool.length
      root := Fin.ofNat 511 (pool.length - 1)
      phase := .tree }

/-- BUILD_TREE (R110). -/
def execBuildTree (s : State) : Host.Outcome State Fault Refusal :=
  inPhases Opcode.buildTree [.freq] (fun s => .ok (buildTree s)) s

/-! ### GEN_CODES -/

/-- Node nd is the parent of node i. -/
def isParent (i : Nat) (nd : Node) : Bool := nd.kind = .internal ∧ (nd.l.val = i ∨ nd.r.val = i)

/-- The parent of node i, with its index. -/
def parentOf (pool : List Node) (i : Nat) : Option (Node × Nat) := pool.zipIdx.find? fun p => isParent i p.1

/-- `path(i)` (R118), read from its three equations: [] at ROOT, and the parent's path with 0 behind it for a left child, 1 for
a right child. None where no chain of at most `fuel` parents joins i to ROOT. -/
def pathTo (pool : List Node) (root : Nat) : Nat → Nat → Option Bits
  | 0, i => if i = root then some [] else none
  | fuel + 1, i =>
    if i = root then some []
    else
      match parentOf pool i with
      | none => none
      | some (nd, v) =>
        match pathTo pool root fuel v with
        | none => none
        | some p => some (p ++ [decide (nd.l.val ≠ i)])

/-- The code of leaf i (R118). Where R118 defines no path the code is a free value, cut to MAXLEN (log 7). -/
def leafCode (pool : List Node) (root i : Nat) : Bits :=
  (pathTo pool root Config.maxLen i).getD ((Config.unrootedPath i).take Config.maxLen)

/-- Every leaf's symbol with its code (R117: for every i < NN with KIND = 0). -/
def leafCodes (pool : List Node) (root : Nat) : List (Sym × Bits) :=
  pool.zipIdx.filterMap fun p => if p.1.kind = .leaf then some (p.1.sym, leafCode pool root p.2) else none

/-- `CODE[s] <- {VALID:1, LEN, BITS}` for a list of symbols and codes, in order. -/
def writeCodes (code : Table CodeEntry) (cs : List (Sym × Bits)) : Table CodeEntry :=
  cs.foldl (fun t c => setEntry t c.1 ⟨true, c.2⟩) code

/-- The Code Table GEN_CODES leaves for a tree: "0" for a single leaf (R119), else every leaf's path (R118). -/
def genTable (s : State) : Table CodeEntry :=
  let top := s.nodes[s.root]
  if top.kind = .leaf then writeCodes s.code [(top.sym, [false])]
  else writeCodes s.code (leafCodes s.pool s.root.val)

/-- GEN_CODES past the phase check (R117, R120). -/
def genCodes (s : State) : State :=
  if s.empty then { s with lmax := 0, phase := .codes }
  else { s with code := genTable s, lmax := BitVec.ofNat 8 (longest (genTable s)), phase := .codes }

/-- GEN_CODES (R117). -/
def execGenCodes (s : State) : Host.Outcome State Fault Refusal :=
  inPhases Opcode.genCodes [.tree] (fun s => .ok (genCodes s)) s

/-! ### CODE_READ -/

/-- The tokens of one code entry (R121): CODELEN, then ceil(LEN/32) CODEBITS. -/
def codeTokens (e : CodeEntry) : List Token :=
  .codeLen e.valid e.len :: (codeWords e.bits).map .codeBits

/-- CODE_READ (R121). -/
def execCodeRead (sym : Sym) (s : State) : Host.Outcome State Fault Refusal :=
  always (fun s => s.emit (codeTokens (s.codeOf sym))) s

end Sys2Proof.Machine
end

