-- ==== Sys2Proof/Machine/Unpacker.lean ====
section
/-! DEFINITION. Code-table load, reverse map and Bit Unpacker commands (44_unpacker.md R140 to R146). -/

namespace Sys2Proof.Machine

/-! ### Loading a Code Table -/

/-- TBL_BEGIN (R140): open an empty valid entry. -/
def execTblBegin (sym : Sym) (s : State) : Host.Outcome State Fault Refusal :=
  inPhases Opcode.tblBegin [.freq, .tblLoad]
    (fun s => .ok { s with code := setEntry s.code sym ⟨true, []⟩, sel := sym, phase := .tblLoad }) s

/-- TBL_APPEND past the phase check (R141): append to CODE[SEL], or CORRUPT_TABLE past 255 bits. -/
def tblAppend (bits : Bits) (s : State) : Except Raise State :=
  let e := s.codeOf s.sel
  if Config.maxLen < e.bits.length + bits.length then .error (.plain .corruptTable)
  else .ok { s with code := setEntry s.code s.sel ⟨true, e.bits ++ bits⟩ }

/-- TBL_APPEND (R141). -/
def execTblAppend (bits : Bits) (s : State) : Host.Outcome State Fault Refusal :=
  inPhases Opcode.tblAppend [.tblLoad] (tblAppend bits) s

/-! ### The reverse map -/

/-- The codes of the valid entries, in symbol order (R142: the set V). -/
def validCodes (code : Table CodeEntry) : List Bits :=
  (code.toList.filter fun e => e.valid).map fun e => e.bits

/-- TBL_INVERT past the phase check (R142): refuse an empty code and two equal codes; LMAX and RMAP otherwise. -/
def tblInvert (s : State) : Except Raise State :=
  if [] ∈ validCodes s.code then .error (.plain .corruptTable)
  else if ¬ (validCodes s.code).Nodup then .error (.plain .corruptTable)
  else .ok { s with lmax := BitVec.ofNat 8 (longest s.code), phase := .rmap }

/-- TBL_INVERT (R142). -/
def execTblInvert (s : State) : Host.Outcome State Fault Refusal :=
  inPhases Opcode.tblInvert [.freq, .encDone, .tblLoad] tblInvert s

/-- The symbols with VALID = 1 and BITS = x, ascending. -/
def symsWith (code : Table CodeEntry) (x : Bits) : List Sym :=
  code.toList.zipIdx.filterMap fun p => if p.1.valid = true ∧ p.1.bits = x then some (BitVec.ofNat 8 p.2) else none

/-- `lookup(x)` (R143): "the unique s with CODE[s].VALID = 1 and CODE[s].BITS = x, if one exists", NONE otherwise (log 8). -/
def lookup (code : Table CodeEntry) (x : Bits) : Option Sym :=
  match symsWith code x with
  | [] => none
  | [s] => some s
  | _ :: _ :: _ => none

/-! ### Decoding -/

/-- DEC_START (R144): latch the mode and the length, start empty. -/
def execDecStart (legacy : Bool) (s : State) : Host.Outcome State Fault Refusal :=
  inPhases Opcode.decStart [.rmap]
    (fun s => .ok { s with
      legacy := legacy, bitlen := s.arg, dacc := [], dbytes := 0, dsyms := 0, phase := .dec }) s

/-- What the bits of one DEC_BYTE change: DACC, DSYMS and the SYM tokens emitted so far. -/
structure Scan where
  dacc : Bits
  dsyms : Word
  out : List Token
  deriving DecidableEq, Repr

/-- One turn of DEC_BYTE's loop (R145): the bit at stream position `pos`. -/
def scanBit (s : State) (pos : Nat) (bit : Bool) (a : Scan) : Except Raise Scan :=
  if s.legacy = false ∧ s.bitlen.toNat ≤ pos then
    if bit then .error ⟨.decoding, a.out⟩ else .ok a
  else
    match lookup s.code (a.dacc ++ [bit]) with
    | some sym =>
      if a.dsyms.toNat = Config.maxCount then .error ⟨.overflow, a.out⟩
      else .ok ⟨[], a.dsyms + 1, a.out ++ [.sym sym]⟩
    | none =>
      if s.lmax.toNat ≤ a.dacc.length + 1 then .error ⟨.decoding, a.out⟩
      else .ok { a with dacc := a.dacc ++ [bit] }

/-- DEC_BYTE's loop over the bits from stream position `pos` on (R145). -/
def scanBits (s : State) : Nat → Bits → Scan → Except Raise Scan
  | _, [], a => .ok a
  | pos, bit :: bits, a =>
    match scanBit s pos bit a with
    | .error r => .error r
    | .ok a' => scanBits s (pos + 1) bits a'

/-- DEC_BYTE past the phase check (R145). -/
def decByte (byte : Byte) (s : State) : Except Raise State :=
  if s.legacy = false ∧ ceil8 s.bitlen.toNat ≤ s.dbytes.toNat then .error (.plain .decoding)
  else if s.dbytes.toNat = Config.maxCount then .error (.plain .overflow)
  else
    match scanBits s (8 * s.dbytes.toNat) (byteBits byte) ⟨s.dacc, s.dsyms, []⟩ with
    | .error r => .error r
    | .ok a => .ok { s with
        dacc := a.dacc, dsyms := a.dsyms, dbytes := s.dbytes + 1, resp := s.resp ++ a.out }

/-- DEC_BYTE (R145). -/
def execDecByte (byte : Byte) (s : State) : Host.Outcome State Fault Refusal :=
  inPhases Opcode.decByte [.dec] (decByte byte) s

/-- The stream may end here (R146). LENGTH mode: exactly ceil8(BITLEN) bytes and no unfinished code. LEGACY mode: a residual of
at most 7 bits, all 0. -/
def mayEnd (s : State) : Bool :=
  if s.legacy = false then decide (s.dbytes.toNat = ceil8 s.bitlen.toNat ∧ s.dacc = [])
  else decide (s.dacc.length ≤ 7 ∧ true ∉ s.dacc)

/-- DEC_END past the phase check (R146). -/
def decEnd (s : State) : Except Raise State :=
  if mayEnd s then .ok { s with dacc := [], phase := .decDone, resp := s.resp ++ [.fin s.dsyms] }
  else .error (.plain .decoding)

/-- DEC_END (R146). -/
def execDecEnd (s : State) : Host.Outcome State Fault Refusal :=
  inPhases Opcode.decEnd [.dec] decEnd s

end Sys2Proof.Machine
end

