-- ==== Sys2Proof/Machine/Dispatch.lean ====
section
/-! DEFINITION. The meaning of each command, one arm per constructor of `Instr`. -/

namespace Sys2Proof.Machine

def exec (i : Instr) (s : State) : Host.Outcome State Fault Refusal :=
  match i with
  | .nop => Sys2Proof.Machine.execNop s
  | .clear => Sys2Proof.Machine.execClear s
  | .statusRead => Sys2Proof.Machine.execStatusRead s
  | .argLo imm16 => Sys2Proof.Machine.execArgLo imm16 s
  | .argHi imm16 => Sys2Proof.Machine.execArgHi imm16 s
  | .freqAdd sym => Sys2Proof.Machine.execFreqAdd sym s
  | .freqSet sym => Sys2Proof.Machine.execFreqSet sym s
  | .freqRead sym => Sys2Proof.Machine.execFreqRead sym s
  | .buildTree => Sys2Proof.Machine.execBuildTree s
  | .genCodes => Sys2Proof.Machine.execGenCodes s
  | .codeRead sym => Sys2Proof.Machine.execCodeRead sym s
  | .encSym sym => Sys2Proof.Machine.execEncSym sym s
  | .encFlush => Sys2Proof.Machine.execEncFlush s
  | .tblBegin sym => Sys2Proof.Machine.execTblBegin sym s
  | .tblAppend bits => Sys2Proof.Machine.execTblAppend bits s
  | .tblInvert => Sys2Proof.Machine.execTblInvert s
  | .decStart legacy => Sys2Proof.Machine.execDecStart legacy s
  | .decByte byte => Sys2Proof.Machine.execDecByte byte s
  | .decEnd => Sys2Proof.Machine.execDecEnd s

end Sys2Proof.Machine
end

