-- ==== Sys2Proof/Machine/Step.lean ====
section
/-! DEFINITION. One step of the engine: one command word (40_control.md R90). -/

namespace Sys2Proof.Machine

/-- One step (R90). An idle engine waits and keeps its state (60_exceptions.md R175), DEDUCED
that this is a step (log 2). -/
def step (s : State) : Host.Outcome State Fault Refusal :=
  match fetch s with
  | none => .next s
  | some (w, s') =>
    match decode w with
    | .ok i => exec i s'
    | .error _ => .next (takeMalformed w s')

/-- The word stands first at the command port, so that the next step takes it (log 1). -/
def State.withFetchWord (s : State) (nbits w : Nat) : State :=
  s.pushWord (BitVec.ofNat 32 (w % 2 ^ nbits))

end Sys2Proof.Machine
end

