-- ==== Sys2Proof/Machine/Pseudo.lean ====
section
/-! DEFINITION. The pseudo-instructions of 30_encoding.md R79 and their expansions, and runs of commands and of words
(70_reset_and_hazards.md R198). A pseudo-instruction is an assembler's convenience and no command of the engine. -/

namespace Sys2Proof.Machine

/-- The pseudo-instructions (R79). -/
inductive Pseudo where
  | liArg (v : Word)
  | freqLoad (s : Sym) (c : Word)
  | freqText (t : List Sym)
  | encText (t : List Sym)
  | tblLoad (s : Sym) (c : Bits)
  | decStartLen (v : Word)
  | decBytes (bs : List Byte)
  deriving DecidableEq, Repr

/-- TBL_LOAD takes 1 to 255 code bits (R79). -/
def Pseudo.wf : Pseudo → Bool
  | .tblLoad _ c => decide (1 ≤ c.length) && decide (c.length ≤ 255)
  | _ => true

/-- `c⟨16k..min(16k+16, len(c))⟩` for k = 0, 1, … while 16k < len(c) (R79). -/
def chunks16 (c : Bits) : List Bits :=
  (List.range ((c.length + 15) / 16)).map fun k => (c.drop (16 * k)).take 16

/-- LI_ARG (R79): ARG_LO then ARG_HI. -/
def loadArg (v : Word) : List Instr := [.argLo (v.extractLsb' 0 16), .argHi (v.extractLsb' 16 16)]

/-- The expansion of a pseudo-instruction (R79). -/
def Pseudo.expand : Pseudo → List Instr
  | .liArg v => loadArg v
  | .freqLoad s c => loadArg c ++ [.freqSet s]
  | .freqText t => t.map .freqAdd
  | .encText t => t.map .encSym
  | .tblLoad s c => .tblBegin s :: (chunks16 c).map .tblAppend
  | .decStartLen v => loadArg v ++ [.decStart false]
  | .decBytes bs => bs.map .decByte

/-- The commands executed one after the other (20_memory.md R59). -/
def runAll : List Instr → State → Host.Outcome State Fault Refusal
  | [], s => .next s
  | i :: is, s =>
    match exec i s with
    | .next t => runAll is t
    | .fault r => .fault r
    | .refused r => .refused r

/-- A run of the engine over the words given to its port, one step a word (R198). -/
def runWords (ws : List Word) (s : State) : Host.Outcome State Fault Refusal :=
  Host.Core.run ⟨State, Fault, Refusal, step, State.reset⟩ ws.length { s with port := ws }

end Sys2Proof.Machine
end

