-- ==== Sys2Proof/Safety.lean ====
section
/-! DEFINITION. The terms claims use: the spec's tables over commands (R73, R91, R161, R164, R37, R196), the invariants of
10_state.md R39, the order and shape of the Huffman pool (42_tree_codes.md R110 to R114), prefix codes and their cost, the reading
of a bit stream as a sequence of codes, and runs (70_reset_and_hazards.md R198). Nothing here is used by the machine. -/

namespace Sys2Proof.Machine

/-! ### Tables over commands -/

/-- The opcode table (spec/opcode_table.json): match and mask of every row. -/
def opcodeRows : List (Word × Word) :=
  [(0x00000000, 0xFFFFFFFF), (0x01000000, 0xFFFFFFFF), (0x02000000, 0xFFFFFFFF), (0x03000000, 0xFFFF0000),
   (0x04000000, 0xFFFF0000), (0x10000000, 0xFFFFFF00), (0x11000000, 0xFFFFFF00), (0x12000000, 0xFFFFFF00)]
  ++ [(0x20000000, 0xFFFFFFFF), (0x21000000, 0xFFFFFFFF), (0x22000000, 0xFFFFFF00), (0x30000000, 0xFFFFFF00),
   (0x31000000, 0xFFFFFFFF), (0x40000000, 0xFFFFFF00), (0x41000000, 0xFFF00000), (0x42000000, 0xFFFFFFFF)]
  ++ [(0x50000000, 0xFFFFFFFE), (0x51000000, 0xFFFFFF00), (0x52000000, 0xFFFFFFFF)]

/-- The payload bits a TBL_APPEND word does not use are 0: payload[15-n:0], n = nm1 + 1 (30_encoding.md R74). -/
def unusedPayloadZero (w : Word) : Prop := w.toNat % 2 ^ (16 - (w.toNat / 65536 % 16 + 1)) = 0

/-- The phases in which a command is legal (40_control.md R91). -/
def legalIn : Instr → Phase → Bool
  | .freqAdd _, p | .freqSet _, p | .buildTree, p => p = .freq
  | .genCodes, p => p = .tree
  | .encSym _, p | .encFlush, p => p = .codes
  | .tblBegin _, p => p = .freq || p = .tblLoad
  | .tblAppend _, p => p = .tblLoad
  | .tblInvert, p => p = .freq || p = .encDone || p = .tblLoad
  | .decStart _, p => p = .rmap
  | .decByte _, p | .decEnd, p => p = .dec
  | .nop, _ | .clear, _ | .statusRead, _ | .argLo _, _ | .argHi _, _ | .freqRead _, _ | .codeRead _, _ => true

/-- PHASE after the command succeeds in phase p (R91). -/
def phaseAfter : Instr → Phase → Phase
  | .clear, _ => .freq
  | .buildTree, _ => .tree
  | .genCodes, _ => .codes
  | .encFlush, _ => .encDone
  | .tblBegin _, _ => .tblLoad
  | .tblInvert, _ => .rmap
  | .decStart _, _ => .dec
  | .decEnd, _ => .decDone
  | .nop, p | .statusRead, p | .argLo _, p | .argHi _, p | .freqAdd _, p | .freqSet _, p | .freqRead _, p | .codeRead _, p
  | .encSym _, p | .tblAppend _, p | .decByte _, p => p

/-- The five commands that execute in the error state (60_exceptions.md R164). -/
def runsInErrorState : Instr → Bool
  | .nop | .clear | .statusRead | .freqRead _ | .codeRead _ => true
  | .argLo _ | .argHi _ | .freqAdd _ | .freqSet _ | .buildTree | .genCodes | .encSym _ | .encFlush | .tblBegin _ | .tblAppend _
  | .tblInvert | .decStart _ | .decByte _ | .decEnd => false

/-- The row of a well-formed command in R161's table, its ILLEGAL column (which is about malformed words) left out. -/
def mayRaise : Instr → List Error
  | .nop | .clear | .statusRead | .argLo _ | .argHi _ | .freqRead _ | .codeRead _ => []
  | .freqAdd _ => [.sequence, .overflow]
  | .freqSet _ => [.sequence]
  | .buildTree | .genCodes | .encFlush | .tblBegin _ | .decStart _ => [.sequence]
  | .encSym _ => [.sequence, .encoding, .overflow]
  | .tblAppend _ | .tblInvert => [.sequence, .corruptTable]
  | .decByte _ => [.sequence, .decoding, .overflow]
  | .decEnd => [.sequence, .decoding]

/-- The most tokens one execution of a command emits (70_reset_and_hazards.md R196; an error emits one ERR token). -/
def mostTokens : Instr → Nat
  | .encSym _ => 32
  | .codeRead _ => 9
  | .decByte _ => 8
  | .encFlush => 2
  | .clear | .nop | .argLo _ | .argHi _ => 0
  | .statusRead | .freqRead _ | .freqAdd _ | .freqSet _ | .buildTree | .genCodes | .tblBegin _ | .tblAppend _ | .tblInvert
  | .decStart _ | .decEnd => 1

/-- The elements of 10_state.md R20, RESP and ERR left out, and the command port. -/
inductive Element where
  | freq | nodes | nn | root | code | lmax | empty | pend | bitcnt | dacc | legacy | bitlen | dbytes | dsyms | arg | sel | phase
  | port
  deriving DecidableEq, Repr

/-- The element has the same value in both states. -/
def Element.same : Element → State → State → Prop
  | .freq, s, t => t.freq = s.freq
  | .nodes, s, t => t.nodes = s.nodes
  | .nn, s, t => t.nn = s.nn
  | .root, s, t => t.root = s.root
  | .code, s, t => t.code = s.code
  | .lmax, s, t => t.lmax = s.lmax
  | .empty, s, t => t.empty = s.empty
  | .pend, s, t => t.pend = s.pend
  | .bitcnt, s, t => t.bitcnt = s.bitcnt
  | .dacc, s, t => t.dacc = s.dacc
  | .legacy, s, t => t.legacy = s.legacy
  | .bitlen, s, t => t.bitlen = s.bitlen
  | .dbytes, s, t => t.dbytes = s.dbytes
  | .dsyms, s, t => t.dsyms = s.dsyms
  | .arg, s, t => t.arg = s.arg
  | .sel, s, t => t.sel = s.sel
  | .phase, s, t => t.phase = s.phase
  | .port, s, t => t.port = s.port

/-- The elements a command writes, but for ERR and RESP (10_state.md R37). -/
def writes : Instr → List Element
  | .nop | .statusRead | .freqRead _ | .codeRead _ => []
  | .clear => [.freq, .nodes, .nn, .root, .code, .lmax, .empty, .pend, .bitcnt, .dacc, .legacy, .bitlen, .dbytes, .dsyms, .arg, .sel,
      .phase]
  | .argLo _ | .argHi _ => [.arg]
  | .freqAdd _ | .freqSet _ => [.freq]
  | .buildTree => [.nodes, .nn, .root, .empty, .phase]
  | .genCodes => [.code, .lmax, .phase]
  | .encSym _ => [.pend, .bitcnt]
  | .encFlush => [.pend, .phase]
  | .tblBegin _ => [.code, .sel, .phase]
  | .tblAppend _ => [.code]
  | .tblInvert => [.lmax, .phase]
  | .decStart _ => [.legacy, .bitlen, .dacc, .dbytes, .dsyms, .phase]
  | .decByte _ => [.dacc, .dbytes, .dsyms]
  | .decEnd => [.dacc, .phase]

/-- The one symbol whose FREQ count a command may change (R37: FREQ[s]); none for the others. -/
def freqWritten : Instr → Option Sym
  | .freqAdd x | .freqSet x => some x
  | .nop | .clear | .statusRead | .argLo _ | .argHi _ | .freqRead _ | .buildTree | .genCodes | .codeRead _ | .encSym _ | .encFlush
  | .tblBegin _ | .tblAppend _ | .tblInvert | .decStart _ | .decByte _ | .decEnd => none

/-- The one symbol whose CODE entry TBL_BEGIN or TBL_APPEND may change (R37: CODE[s], CODE[SEL]). -/
def codeWritten (s : State) : Instr → Option Sym
  | .tblBegin x => some x
  | .tblAppend _ => some s.sel
  | .nop | .clear | .statusRead | .argLo _ | .argHi _ | .freqAdd _ | .freqSet _ | .freqRead _ | .buildTree | .genCodes | .codeRead _
  | .encSym _ | .encFlush | .tblInvert | .decStart _ | .decByte _ | .decEnd => none

/-! ### Code tables -/

/-- No code of the list is a prefix of another, and no two are equal (42_tree_codes.md R123). -/
abbrev PrefixFree (cs : List Bits) : Prop := cs.Pairwise fun a b => ¬ a <+: b ∧ ¬ b <+: a

/-- The symbols with VALID = 1, ascending. -/
def validSyms (code : Table CodeEntry) : List Sym :=
  code.toList.zipIdx.filterMap fun p => if p.1.valid then some (BitVec.ofNat 8 p.2) else none

/-- The symbols of the leaves of a pool, in index order. -/
def leafSyms (pool : List Node) : List Sym :=
  pool.filterMap fun nd => if nd.kind = .leaf then some nd.sym else none

/-! ### The invariants of 10_state.md R39, and the clauses that make them inductive -/

/-- R39 item 1, and the packer is empty outside CODES. -/
abbrev PendOk (s : State) : Prop :=
  (s.phase = .codes → s.pend.length = s.bitcnt.toNat % 8) ∧ (s.phase ≠ .codes → s.pend = [])

/-- R39 item 2, and the accumulator is empty outside DEC. -/
abbrev DaccOk (s : State) : Prop :=
  (s.dacc.length < s.lmax.toNat ∨ s.dacc = []) ∧ (s.phase ≠ .dec → s.dacc = [])

/-- 10_state.md R23: LEN is 0..255, and an absent entry has no bits. -/
abbrev EntriesOk (s : State) : Prop :=
  ∀ e ∈ s.code.toList, e.bits.length ≤ 255 ∧ (e.valid = false → e.bits = [])

/-- R39 item 6. -/
abbrev FreqPhaseOk (s : State) : Prop :=
  s.phase = .freq → s.nn = 0 ∧ validSyms s.code = [] ∧ s.lmax = 0 ∧ s.empty = false

/-- R39 item 5. -/
abbrev EmptyOk (s : State) : Prop :=
  s.empty = true → s.nn = 0 ∧ validSyms s.code = []

/-- BITCNT counts the bits packed since the last CLEAR (10_state.md R26), and none is packed before CODES. -/
abbrev BitcntOk (s : State) : Prop :=
  (s.phase = .freq ∨ s.phase = .tree) → s.bitcnt = 0

/-- In TREE the pool is the one BUILD_TREE makes of the frozen Frequency Map, and the Code Table is still empty
(10_state.md R21, R22; 42_tree_codes.md R110, R114). -/
abbrev TreePhaseOk (s : State) : Prop :=
  s.phase = .tree → validSyms s.code = [] ∧ s.lmax = 0 ∧ s.pool = buildPool s.freq ∧ (s.empty = true ↔ s.pool = []) ∧
    s.root.val = s.nn.val - 1

/-- R39 item 3. -/
abbrev CodesPhaseOk (s : State) : Prop :=
  (s.phase = .codes ∨ s.phase = .encDone) →
    validSyms s.code = leafSyms s.pool ∧ (∀ c ∈ validCodes s.code, 1 ≤ c.length) ∧ PrefixFree (validCodes s.code)

/-- R39 item 4. -/
abbrev RmapPhaseOk (s : State) : Prop :=
  (s.phase = .rmap ∨ s.phase = .dec ∨ s.phase = .decDone) →
    (∀ c ∈ validCodes s.code, 1 ≤ c.length) ∧ (validCodes s.code).Nodup

/-- A table is loaded from the empty state of FREQ (44_unpacker.md R140). -/
abbrev TblLoadPhaseOk (s : State) : Prop :=
  s.phase = .tblLoad → s.nn = 0 ∧ s.lmax = 0 ∧ s.empty = false

/-- LMAX is the longest valid code once GEN_CODES or TBL_INVERT has run (10_state.md R24). -/
abbrev LmaxOk (s : State) : Prop :=
  (s.phase = .codes ∨ s.phase = .encDone ∨ s.phase = .rmap ∨ s.phase = .dec ∨ s.phase = .decDone) →
    s.lmax.toNat = longest s.code

/-- The invariant of every reachable state (10_state.md R39; log 9 for its item 7). -/
structure Inv (s : State) : Prop where
  pend : PendOk s
  bitcnt : BitcntOk s
  dacc : DaccOk s
  entries : EntriesOk s
  freqPhase : FreqPhaseOk s
  empty : EmptyOk s
  treePhase : TreePhaseOk s
  codesPhase : CodesPhaseOk s
  rmapPhase : RmapPhaseOk s
  tblLoadPhase : TblLoadPhaseOk s
  lmax : LmaxOk s

/-! ### The Huffman pool, said without the builder's loop -/

/-- The symbols of the Frequency Map, ascending (41_frequency.md R103, 42_tree_codes.md R111). -/
def mapSyms (freq : Table Word) : List Sym :=
  ((List.range 256).map (BitVec.ofNat 8)).filter fun x => entry freq x ≠ 0

/-- The weight of node i, 0 where there is none. -/
def weightAt (pool : List Node) (i : Nat) : Nat := (pool[i]?.map fun nd => nd.w.toNat).getD 0

/-- i comes before j in the queue: the pair (W, index) in lexicographic order (42_tree_codes.md R112). -/
def comesBefore (pool : List Node) (i j : Nat) : Prop :=
  weightAt pool i < weightAt pool j ∨ (weightAt pool i = weightAt pool j ∧ i < j)

/-- Node i is in the queue when node k is created: it exists, and no internal node created before k has it as a child. -/
def queuedAt (pool : List Node) (i k : Nat) : Prop :=
  i < k ∧ ∀ j nd, j < k → pool[j]? = some nd → nd.kind = .internal → nd.l.val ≠ i ∧ nd.r.val ≠ i

/-- Internal node k merges the first two nodes of the queue, left the first and right the second, and its weight is their exact
sum (42_tree_codes.md R112, R113). -/
def mergesFirstTwo (pool : List Node) (k : Nat) (nd : Node) : Prop :=
  queuedAt pool nd.l.val k ∧ queuedAt pool nd.r.val k ∧ nd.l ≠ nd.r ∧
    (∀ i, queuedAt pool i k → i ≠ nd.l.val → comesBefore pool nd.l.val i) ∧
    (∀ i, queuedAt pool i k → i ≠ nd.l.val → i ≠ nd.r.val → comesBefore pool nd.r.val i) ∧
    nd.w.toNat = weightAt pool nd.l.val + weightAt pool nd.r.val

/-- The cost of a code over the Frequency Map: the sum of FREQ[s] times the length of s's code (42_tree_codes.md R122). -/
def codeCost (freq : Table Word) (len : Sym → Nat) : Nat :=
  ((mapSyms freq).map fun x => (entry freq x).toNat * len x).sum

/-! ### Streams -/

/-- The codes of a text, one behind the other (43_packer.md R132). -/
def codeStream (code : Table CodeEntry) (t : List Sym) : Bits := t.flatMap fun x => (entry code x).bits

/-- The pad bits behind n data bits (43_packer.md R132): `p = (8 − n mod 8) mod 8`. -/
def padCount (n : Nat) : Nat := (8 - n % 8) % 8

/-- Bit j of a byte in stream order is its bit 7 - j (20_memory.md R52): the bits of a list of bytes, without the packer's code. -/
def streamBits (bs : List Byte) : Bits := bs.flatMap fun b => (List.range 8).map fun j => b.getMsbD j

/-- x is the sequence of code bits packed since the last CLEAR, as PEND and BITCNT show it: BITCNT is its length (10_state.md R26), and
in CODES PEND is what is left of it behind its whole bytes (R39 item 1); none is packed before CODES, and PEND is empty elsewhere. -/
structure PackedIs (x : Bits) (s : State) : Prop where
  count : s.bitcnt.toNat = x.length
  tail : s.phase = .codes → s.pend = x.drop (x.length - x.length % 8)
  outside : s.phase ≠ .codes → s.pend = []
  before : s.phase = .freq ∨ s.phase = .tree → x = []

/-- The bits packed since the last CLEAR after command i took s to t: ENC_SYM's success appends its code, CLEAR begins anew. -/
def packedAfter (i : Instr) (s t : State) (x : Bits) : Bits :=
  match i with
  | .clear => []
  | .encSym sym => if t.err = none then x ++ (s.codeOf sym).bits else x
  | .nop | .statusRead | .argLo _ | .argHi _ | .freqAdd _ | .freqSet _ | .freqRead _ | .buildTree | .genCodes | .codeRead _
  | .encFlush | .tblBegin _ | .tblAppend _ | .tblInvert | .decStart _ | .decByte _ | .decEnd => x

/-- The same over a step: a word that is no command, and no word at all, pack nothing. -/
def packedAfterStep (s t : State) (x : Bits) : Bits :=
  match s.port with
  | [] => x
  | w :: _ =>
    match decode w with
    | .ok i => packedAfter i s t x
    | .error _ => x

/-- The data bits of a packed byte consumed in state s: all in LEGACY mode, those below stream position BITLEN in LENGTH mode
(44_unpacker.md R145). -/
def dataBits (s : State) (b : Byte) : Bits :=
  if s.legacy then streamBits [b] else (streamBits [b]).take (s.bitlen.toNat - 8 * s.dbytes.toNat)

/-- The pad bits of that byte: the rest. -/
def padBits (s : State) (b : Byte) : Bits := (streamBits [b]).drop (dataBits s b).length

/-- The code x is valid in the table. -/
def isCode (code : Table CodeEntry) (x : Bits) : Prop := ∃ s : Sym, (entry code s).valid = true ∧ (entry code s).bits = x

/-- No non-empty proper beginning of x is a code (44_unpacker.md R149: the shortest match wins). -/
def noShorterCode (code : Table CodeEntry) (x : Bits) : Prop :=
  ∀ k, 1 ≤ k → k < x.length → ¬ isCode code (x.take k)

/-! ### Runs -/

/-- The command sequence that compresses a text (44_unpacker.md R147). -/
def compressCommands (t : List Sym) : List Instr :=
  [.clear] ++ (Pseudo.freqText t).expand ++ [.buildTree, .genCodes] ++ (Pseudo.encText t).expand ++ [.encFlush]

/-- The command sequence that loads a Code Table from CODE_READ's answers (R147): every valid entry of `code`, ascending. -/
def loadCommands (code : Table CodeEntry) : List Instr :=
  (validSyms code).flatMap fun x => (Pseudo.tblLoad x (entry code x).bits).expand

/-- The command sequence that decodes bytes with the reverse map in LENGTH mode (R147). -/
def decodeCommands (len : Word) (bs : List Byte) : List Instr :=
  [.tblInvert] ++ (Pseudo.decStartLen len).expand ++ (Pseudo.decBytes bs).expand ++ [.decEnd]

/-- The command sequence that decodes bytes with the reverse map in LEGACY mode (44_unpacker.md R148). -/
def legacyCommands (bs : List Byte) : List Instr :=
  [.tblInvert, .decStart true] ++ (Pseudo.decBytes bs).expand ++ [.decEnd]

/-- A run that ends so is a successful compress (70_reset_and_hazards.md R198). -/
def CompressDone (s : State) : Prop := s.err = none ∧ s.phase = .encDone

/-- A run that ends so is a successful decompress (R198). -/
def DecompressDone (s : State) : Prop := s.err = none ∧ s.phase = .decDone

/-- The tokens not yet drained fit the response FIFO of a chip (93_implementation_defined.md I12: the premise a claim about a chip
takes, since a chip with a full FIFO holds and this model has no such step; log 3). -/
def FitsFifo (s : State) : Prop := s.resp.length ≤ Config.outqDepth

end Sys2Proof.Machine
end

