-- ==== Sys2Proof/Certificates/Slice0/Obligations.lean ====
section
/-! DEFINITION. The statements about HUFFCORE for the provers. Each formalises rules of spec/, cited in its docstring and in
OBLIGATIONS.json. -/

open Sys2Proof Sys2Proof.Machine

/-! ### Encoding -/

/-- Every command with a word decodes from that word, with every operand at every value (30_encoding.md R71, R73, R75). -/
def Obligations.DecodeReadsEveryEncoding : Prop :=
  ∀ i : Instr, i.wf = true → decode (encode i) = .ok i

/-- A word that decodes is the encoding of what it decodes to, so no two words mean the same command (R71, R75). -/
def Obligations.DecodedWordIsTheEncoding : Prop :=
  ∀ (w : Word) (i : Instr), decode w = .ok i → i.wf = true ∧ encode i = w

/-- The words that decode are those of the opcode table's match and mask, less the TBL_APPEND words with a non-zero unused payload
bit (R73, R74; spec/opcode_table.json). -/
def Obligations.DecodedWordsAreTheTableRows : Prop :=
  ∀ w : Word, (∃ i, decode w = .ok i) ↔
    ((∃ row ∈ opcodeRows, w &&& row.2 = row.1) ∧ (wordOpcode w = 0x41 → unusedPayloadZero w))

/-- Words written out from 30_encoding.md R73 and 95_test_vectors.md decode to the commands they stand for, one of every family. -/
def Obligations.SampleWordsDecode : Prop :=
  decode 0x00000000 = .ok .nop ∧ decode 0x03001234 = .ok (.argLo 0x1234) ∧ decode 0x10000061 = .ok (.freqAdd 0x61) ∧
  decode 0x220000FF = .ok (.codeRead 0xFF) ∧ decode 0x31000000 = .ok .encFlush ∧
  decode 0x4102C000 = .ok (.tblAppend [true, true, false]) ∧ decode 0x50000001 = .ok (.decStart true) ∧
  decode 0x5100006E = .ok (.decByte 0x6E)

/-! ### The step -/

/-- A step takes the oldest waiting word and runs the command it decodes to (40_control.md R90); `withFetchWord` puts a word where
the step takes it (log 1). With no word waiting the engine keeps every element (60_exceptions.md R175); that this waiting is a step is
the model's, DEDUCED (log 2). -/
def Obligations.StepRunsTheDecodedCommand : Prop :=
  (∀ (s : State) (w : Word) (rest : List Word) (i : Instr), s.port = w :: rest → decode w = .ok i →
    step s = exec i { s with port := rest }) ∧
  (∀ (s : State) (w : Nat) (i : Instr), w < 2 ^ 32 → decode (BitVec.ofNat 32 w) = .ok i →
    step (s.withFetchWord 32 w) = exec i s) ∧
  (∀ s : State, s.port = [] → step s = .next s)

/-- A malformed word raises ILLEGAL with its bits 31:24 in the ERR token, unless the error state discards it (30_encoding.md R74). -/
def Obligations.MalformedWordRaisesIllegal : Prop :=
  ∀ (s : State) (w : Word) (rest : List Word), s.port = w :: rest → (∀ i, decode w ≠ .ok i) →
    (s.err = none → step s = .next { s with
      port := rest, err := some .illegal, resp := s.resp ++ [.err (w.extractLsb' 24 8) .illegal] }) ∧
    (s.err ≠ none → step s = .next { s with port := rest })

/-- Every step answers a next state: no word is refused and none stops the engine (30_encoding.md R80, 00_scope.md R16). The step with
no word waiting is the model's, DEDUCED from 60_exceptions.md R175 (log 2). -/
def Obligations.EveryStepAnswersNext : Prop :=
  ∀ s : State, ∃ t, step s = .next t

/-- Tokens are never removed or changed by the engine: a step only appends to RESP (10_state.md R32). -/
def Obligations.StepOnlyAppendsToResp : Prop :=
  ∀ s t : State, step s = .next t → ∃ out, t.resp = s.resp ++ out

/-- What the host does between two steps, draining tokens or sending a further word behind a waiting one, changes nothing of what
the step does (20_memory.md R59, 10_state.md R32). -/
def Obligations.HostActionsCommuteWithTheStep : Prop :=
  (∀ (s t : State) (k : Nat), step s = .next t → k ≤ s.resp.length → step (hostDrain k s) = .next (hostDrain k t)) ∧
  (∀ (s t : State) (w : Word), step s = .next t → s.port ≠ [] → step (hostSend w s) = .next (hostSend w t))

/-! ### The error state -/

/-- The gate: while ERR is set, every command but the five changes no state and emits nothing (60_exceptions.md R164). -/
def Obligations.ErrorStateDiscardsCommands : Prop :=
  ∀ (i : Instr) (s : State), s.err ≠ none → runsInErrorState i = false → exec i s = .next s

/-- ERR is sticky: only CLEAR changes it, to NONE, and no second ERR token is emitted (R166, R167). -/
def Obligations.ErrorIsStickyUntilClear : Prop :=
  ∀ (i : Instr) (s t : State), s.err ≠ none → exec i s = .next t →
    ((i = .clear ∧ t.err = none) ∨ (i ≠ .clear ∧ t.err = s.err)) ∧
    ∃ out, t.resp = s.resp ++ out ∧ ∀ op e, Token.err op e ∉ out

/-- Error entry is precise: the state after an error is the state before the command with only ERR changed, plus the tokens: those
emitted before the raise, which only DEC_BYTE has and which are SYM tokens, and the ERR token (R162). -/
def Obligations.ErrorEntryIsPrecise : Prop :=
  ∀ (i : Instr) (s t : State) (e : Error), s.err = none → exec i s = .next t → t.err = some e →
    ∃ out : List Token, (∀ tok ∈ out, ∃ x, tok = .sym x) ∧ (out ≠ [] → ∃ b, i = .decByte b) ∧
      t = { s with err := some e, resp := s.resp ++ out ++ [.err i.opcode e] }

/-- The numbers of ERR (10_state.md R30, 60_exceptions.md R160), and the value of an ERR token: the opcode in bits 31:24, the code in
bits 3:0, bits 23:4 zero, under tag 0xF (R163). -/
def Obligations.ErrTokenCarriesOpcodeAndCode : Prop :=
  (errCode none = 0 ∧ Error.illegal.code = 1 ∧ Error.sequence.code = 2 ∧ Error.encoding.code = 3 ∧ Error.corruptTable.code = 4 ∧
    Error.decoding.code = 5 ∧ Error.overflow.code = 7 ∧ ∀ e, errCode (some e) = e.code) ∧
  ∀ (op : Byte) (e : Error), (Token.err op e).tag = 0xF ∧ (Token.err op e).value.extractLsb' 24 8 = op ∧
    (Token.err op e).value.extractLsb' 4 20 = 0 ∧ (Token.err op e).value.extractLsb' 0 4 = e.code

/-- The tag and the value of every token the engine emits, and its 36 bits on a channel: tag in 35:32, value in 31:0
(30_encoding.md R77). -/
def Obligations.TokensHaveTheirTagsAndValues : Prop :=
  (∀ b, (Token.byte b).tag = 0x1 ∧ (Token.byte b).value.toNat = b.toNat) ∧
  (∀ n, (Token.len n).tag = 0x2 ∧ (Token.len n).value = n) ∧
  (∀ x, (Token.sym x).tag = 0x3 ∧ (Token.sym x).value.toNat = x.toNat) ∧
  (∀ n, (Token.fin n).tag = 0x4 ∧ (Token.fin n).value = n) ∧
  (∀ n, (Token.freq n).tag = 0x5 ∧ (Token.freq n).value = n) ∧
  (∀ v n, (Token.codeLen v n).tag = 0x6 ∧ (Token.codeLen v n).value.toNat = v.toNat * 2 ^ 8 + n.toNat) ∧
  (∀ w, (Token.codeBits w).tag = 0x7 ∧ (Token.codeBits w).value = w) ∧
  (∀ w, (Token.status w).tag = 0x8 ∧ (Token.status w).value = w) ∧
  (∀ op e, (Token.err op e).tag = 0xF ∧ (Token.err op e).value.toNat = op.toNat * 2 ^ 24 + e.code.toNat) ∧
  ∀ tok : Token, tok.wire.extractLsb' 32 4 = tok.tag ∧ tok.wire.extractLsb' 0 32 = tok.value

/-- A well-formed command raises only the errors of its row of R161 (ILLEGAL is the malformed words'), and every error of the row
is raised in some state. -/
def Obligations.CommandsRaiseExactlyTheirRow : Prop :=
  (∀ (i : Instr) (s t : State) (e : Error), s.err = none → exec i s = .next t → t.err = some e → e ∈ mayRaise i) ∧
  (∀ (i : Instr) (e : Error), i.wf = true → e ∈ mayRaise i → ∃ s t, s.err = none ∧ exec i s = .next t ∧ t.err = some e)

/-- The phase table of 40_control.md R91: in a phase where a command is not legal it raises SEQUENCE and changes nothing else; in one
where it is legal it does not raise SEQUENCE, and if it succeeds PHASE is what the table's last column says. -/
def Obligations.PhaseTableIsKept : Prop :=
  ∀ (i : Instr) (s : State), s.err = none →
    (legalIn i s.phase = false →
      exec i s = .next { s with err := some .sequence, resp := s.resp ++ [.err i.opcode .sequence] }) ∧
    (legalIn i s.phase = true →
      ∃ t, exec i s = .next t ∧ t.err ≠ some .sequence ∧ (t.err = none → t.phase = phaseAfter i s.phase))

/-! ### Frames -/

/-- The frame of every command, whatever its outcome: an element it does not write (10_state.md R37) keeps its value. ERR and RESP
have statements of their own. R37 has no command port: that every command, CLEAR too, keeps the waiting words is the model's choice
(log 1). -/
def Obligations.CommandsWriteOnlyTheirElements : Prop :=
  ∀ (i : Instr) (s t : State) (el : Element), exec i s = .next t → el ∉ writes i → el.same s t

/-- FREQ_ADD, FREQ_SET, TBL_BEGIN and TBL_APPEND change one entry of their table at most (10_state.md R37, 20_memory.md R57). -/
def Obligations.TableWritesTouchOneEntry : Prop :=
  ∀ (i : Instr) (s t : State) (x : Sym), exec i s = .next t → i ≠ .clear →
    (freqWritten i ≠ some x → t.freqOf x = s.freqOf x) ∧
    (i ≠ .genCodes → codeWritten s i ≠ some x → t.codeOf x = s.codeOf x)

/-- The Frequency Map changes only in phase FREQ, and by CLEAR (10_state.md R21, R39 item 7 within a session: log 9). -/
def Obligations.FrequencyMapIsFrozen : Prop :=
  ∀ (i : Instr) (s t : State), exec i s = .next t → i ≠ .clear → s.phase ≠ .freq → t.freq = s.freq

/-- One command emits at most the tokens of 70_reset_and_hazards.md R196. -/
def Obligations.TokensPerCommandAreBounded : Prop :=
  ∀ (i : Instr) (s t : State), PendOk s → EntriesOk s → exec i s = .next t →
    ∃ out, t.resp = s.resp ++ out ∧ out.length ≤ mostTokens i

/-! ### Reset and control commands -/

/-- Power-on reset gives every element the value of 10_state.md R20, STATUS is 0, and CLEAR establishes the same state but for RESP
(70_reset_and_hazards.md R190). The waiting words, the model's own field (log 1), are left out. -/
def Obligations.ResetLeavesEveryElementEmpty : Prop :=
  (∀ x, State.reset.freqOf x = 0) ∧ (∀ i : Fin 511, State.reset.nodes[i] = Node.zero) ∧
  (∀ x, State.reset.codeOf x = ⟨false, []⟩) ∧ State.reset.nn = 0 ∧ State.reset.root = 0 ∧ State.reset.lmax = 0 ∧
  State.reset.empty = false ∧ State.reset.pend = [] ∧ State.reset.bitcnt = 0 ∧ State.reset.dacc = [] ∧
  State.reset.legacy = false ∧ State.reset.bitlen = 0 ∧ State.reset.dbytes = 0 ∧ State.reset.dsyms = 0 ∧ State.reset.arg = 0 ∧
  State.reset.sel = 0 ∧ State.reset.phase = .freq ∧ State.reset.err = none ∧ State.reset.resp = [] ∧ statusWord State.reset = 0 ∧
  (∀ s, { powerOnReset s with port := [] } = { State.reset with port := [] }) ∧
  (∀ s, ∃ t, exec .clear s = .next t ∧ { t with resp := [], port := [] } = { State.reset with port := [] })

/-- CLEAR, in every phase and in the error state, gives the reset state but for RESP, which it leaves (40_control.md R93); the
waiting words are the model's own (log 1). -/
def Obligations.ClearStartsANewSession : Prop :=
  ∀ s : State, exec .clear s = .next { State.reset with resp := s.resp, port := s.port }

/-- NOP, STATUS_READ and FREQ_READ in every phase and in the error state: NOP changes nothing; the reads change nothing but RESP.
STATUS is the word of 10_state.md R31, with PHASE in the numbers of R29 and NDIST the number of symbols with FREQ[s] ≥ 1 (40_control.md R92, R94; 41_frequency.md R102). -/
def Obligations.NopAndReadsOnlyReport : Prop :=
  (Phase.freq.code = 0 ∧ Phase.tree.code = 1 ∧ Phase.codes.code = 2 ∧ Phase.encDone.code = 3 ∧ Phase.tblLoad.code = 4 ∧
    Phase.rmap.code = 5 ∧ Phase.dec.code = 6 ∧ Phase.decDone.code = 7) ∧
  ∀ (s : State) (x : Sym),
    exec .nop s = .next s ∧
    exec (.freqRead x) s = .next { s with resp := s.resp ++ [.freq (s.freqOf x)] } ∧
    ∃ word nd, exec .statusRead s = .next { s with resp := s.resp ++ [.status word] } ∧
      nd = ((Finset.univ : Finset (Fin 256)).filter fun k => 1 ≤ (s.freqOf (BitVec.ofNat 8 k.val)).toNat).card ∧
      word.extractLsb' 0 4 = errCode s.err ∧ word.extractLsb' 4 3 = s.phase.code ∧ word.getLsbD 7 = s.empty ∧
      word.extractLsb' 8 8 = s.lmax ∧ (word.extractLsb' 16 9).toNat = nd ∧ word.getLsbD 25 = s.legacy ∧ word.extractLsb' 26 6 = 0

/-- ARG_LO writes bits 15:0 of ARG and ARG_HI bits 31:16, each keeping the other half and everything else (40_control.md R95, R96);
LI_ARG v leaves v in ARG (30_encoding.md R79). -/
def Obligations.ArgHalvesAreWritten : Prop :=
  ∀ (s : State) (v : Half), s.err = none →
    (∃ a : Word, exec (.argLo v) s = .next { s with arg := a } ∧ a.extractLsb' 0 16 = v ∧
      a.extractLsb' 16 16 = s.arg.extractLsb' 16 16) ∧
    (∃ a : Word, exec (.argHi v) s = .next { s with arg := a } ∧ a.extractLsb' 16 16 = v ∧
      a.extractLsb' 0 16 = s.arg.extractLsb' 0 16) ∧
    ∀ w : Word, runAll (Pseudo.liArg w).expand s = .next { s with arg := w }

/-! ### Frequency Analyzer -/

/-- FREQ_ADD in phase FREQ: one more occurrence of the symbol, and nothing else; at 2^32 - 1 OVERFLOW with the count unchanged
(41_frequency.md R100). -/
def Obligations.FreqAddCountsOneOccurrence : Prop :=
  ∀ (s : State) (x : Sym), s.err = none → s.phase = .freq →
    ((s.freqOf x).toNat < 2 ^ 32 - 1 → ∃ f : Table Word, exec (.freqAdd x) s = .next { s with freq := f } ∧
      (entry f x).toNat = (s.freqOf x).toNat + 1 ∧ ∀ y, y ≠ x → entry f y = s.freqOf y) ∧
    ((s.freqOf x).toNat = 2 ^ 32 - 1 →
      exec (.freqAdd x) s = .next { s with err := some .overflow, resp := s.resp ++ [.err 0x10 .overflow] })

/-- FREQ_SET in phase FREQ: the count of the symbol is ARG, and nothing else changes (R101). -/
def Obligations.FreqSetLoadsArg : Prop :=
  ∀ (s : State) (x : Sym), s.err = none → s.phase = .freq →
    ∃ f : Table Word, exec (.freqSet x) s = .next { s with freq := f } ∧ entry f x = s.arg ∧ ∀ y, y ≠ x → entry f y = s.freqOf y

/-- Counting a text, in any order, leaves in FREQ[x] the number of its occurrences (41_frequency.md R104). -/
def Obligations.CountingATextGivesItsFrequencies : Prop :=
  ∀ (s : State) (t : List Sym), (∀ x, t.count x ≤ 2 ^ 32 - 1) →
    ∃ u, runAll (.clear :: t.map .freqAdd) s = .next u ∧ u.err = none ∧ u.phase = .freq ∧ u.resp = s.resp ∧
      ∀ x, (u.freqOf x).toNat = t.count x

/-! ### Tree Builder -/

/-- BUILD_TREE completes in phase FREQ. With n distinct symbols: for n = 0 no node, EMPTY = 1; for n ≥ 1 the pool has n leaves
and n - 1 internal nodes, ROOT is the last, only it is still in the queue, and EMPTY keeps its value (42_tree_codes.md R114, R116). -/
def Obligations.BuildTreeAllocatesTheTree : Prop :=
  ∀ s : State, s.err = none → s.phase = .freq →
    ∃ t, exec .buildTree s = .next t ∧ t.err = none ∧ t.phase = .tree ∧ t.resp = s.resp ∧
      (mapSyms s.freq = [] → t.empty = true ∧ t.nn = 0 ∧ t.root = 0 ∧ t.nodes = s.nodes) ∧
      (mapSyms s.freq ≠ [] → t.empty = s.empty ∧ t.nn.val = 2 * (mapSyms s.freq).length - 1 ∧ t.root.val = t.nn.val - 1 ∧
        t.pool.length = t.nn.val ∧ t.pool.countP (fun nd => nd.kind = .leaf) = (mapSyms s.freq).length ∧
        t.pool.countP (fun nd => nd.kind = .internal) = (mapSyms s.freq).length - 1 ∧
        (∀ (k : Nat) (nd : Node), t.pool[k]? = some nd → (nd.live = true ↔ k = t.root.val)) ∧
        ∀ i : Fin 511, t.nn.val ≤ i.val → t.nodes[i] = s.nodes[i])

/-- The leaves are nodes 0..n-1, one per symbol of the Frequency Map in ascending symbol value, each with its count as weight
(42_tree_codes.md R111). -/
def Obligations.BuildTreeMakesLeavesInSymbolOrder : Prop :=
  ∀ s t : State, s.err = none → s.phase = .freq → exec .buildTree s = .next t →
    ∀ (k : Nat) (x : Sym), (mapSyms s.freq)[k]? = some x →
      ∃ nd, t.pool[k]? = some nd ∧ nd.kind = .leaf ∧ nd.sym = x ∧ nd.w.toNat = (s.freqOf x).toNat ∧ nd.l = 0 ∧ nd.r = 0

/-- Every further node is internal and merges the first two of the queue at its creation, in the order of (W, index), left the first
and right the second, with their exact sum as weight (42_tree_codes.md R112, R113). -/
def Obligations.BuildTreeMergesTheTwoLowest : Prop :=
  ∀ s t : State, s.err = none → s.phase = .freq → exec .buildTree s = .next t →
    ∀ (k : Nat) (nd : Node), (mapSyms s.freq).length ≤ k → t.pool[k]? = some nd → mapSyms s.freq ≠ [] →
      nd.kind = .internal ∧ nd.sym = 0 ∧ mergesFirstTwo t.pool k nd

/-! ### Code Table Generator -/

/-- GEN_CODES in phase TREE without a merge: an EMPTY tree leaves the table as it is with LMAX 0, and a single leaf's symbol gets
the code "0" (42_tree_codes.md R117, R119). -/
def Obligations.GenCodesWithoutAMerge : Prop :=
  ∀ s : State, s.err = none → s.phase = .tree →
    (s.empty = true → exec .genCodes s = .next { s with lmax := 0, phase := .codes }) ∧
    (s.empty = false → (s.nodes[s.root]).kind = .leaf →
      ∃ t, exec .genCodes s = .next t ∧ t.err = none ∧ t.phase = .codes ∧ t.resp = s.resp ∧
        t.codeOf (s.nodes[s.root]).sym = ⟨true, [false]⟩ ∧
        ∀ x, x ≠ (s.nodes[s.root]).sym → t.codeOf x = s.codeOf x)

/-- GEN_CODES in a TREE state that meets the invariant and has a merge: every leaf's code is its path, where path is [] at ROOT
and a child's path is its parent's with 0 behind it on the left and 1 on the right; symbols without a leaf keep their entries
(42_tree_codes.md R117, R118). -/
def Obligations.GenCodesWritesRootPaths : Prop :=
  ∀ s : State, Inv s → s.err = none → s.phase = .tree → s.empty = false → (s.nodes[s.root]).kind = .internal →
    ∃ (t : State) (path : Nat → Bits), exec .genCodes s = .next t ∧ t.err = none ∧ t.phase = .codes ∧ t.resp = s.resp ∧
      path s.root.val = [] ∧
      (∀ (v : Nat) (nd : Node), s.pool[v]? = some nd → nd.kind = .internal →
        path nd.l.val = path v ++ [false] ∧ path nd.r.val = path v ++ [true]) ∧
      (∀ (i : Nat) (nd : Node), s.pool[i]? = some nd → nd.kind = .leaf → t.codeOf nd.sym = ⟨true, path i⟩) ∧
      (∀ x, x ∉ leafSyms s.pool → t.codeOf x = s.codeOf x)

/-- After GEN_CODES, and after TBL_INVERT, LMAX is the length of the longest valid code, 0 if there is none (10_state.md R24,
42_tree_codes.md R120). -/
def Obligations.LmaxIsTheLongestValidCode : Prop :=
  ∀ (i : Instr) (s t : State), Inv s → s.err = none → (i = .genCodes ∨ i = .tblInvert) → exec i s = .next t → t.err = none →
    (∀ x, (t.codeOf x).valid = true → (t.codeOf x).bits.length ≤ t.lmax.toNat) ∧
    ((∃ x, (t.codeOf x).valid = true ∧ (t.codeOf x).bits.length = t.lmax.toNat) ∨
      (t.lmax = 0 ∧ ∀ x, (t.codeOf x).valid = false))

/-- BUILD_TREE and GEN_CODES from any FREQ state that meets the invariant: the valid codes are those of the counted symbols, none is
a prefix of another, and for n ≥ 2 every infinite bit sequence begins with exactly one of them (42_tree_codes.md R123). -/
def Obligations.GeneratedCodesArePrefixFreeAndComplete : Prop :=
  ∀ s : State, Inv s → s.err = none → s.phase = .freq →
    ∃ t, runAll [.buildTree, .genCodes] s = .next t ∧ t.err = none ∧ t.phase = .codes ∧
      (∀ x, (t.codeOf x).valid = true ↔ s.freqOf x ≠ 0) ∧
      (∀ x y, x ≠ y → (t.codeOf x).valid = true → (t.codeOf y).valid = true → ¬ (t.codeOf x).bits <+: (t.codeOf y).bits) ∧
      (2 ≤ (mapSyms s.freq).length → ∀ stream : Nat → Bool,
        ∃ x, ((t.codeOf x).valid = true ∧ (t.codeOf x).bits = (List.range (t.codeOf x).bits.length).map stream) ∧
          ∀ y, (t.codeOf y).valid = true → (t.codeOf y).bits = (List.range (t.codeOf y).bits.length).map stream → y = x)

/-- For n ≥ 2 every generated code is 1 to n - 1 bits long, at most 255; for n = 1 it is 1 bit long (42_tree_codes.md R124). -/
def Obligations.GeneratedCodeLengthsAreBounded : Prop :=
  ∀ s t : State, Inv s → s.err = none → s.phase = .freq → runAll [.buildTree, .genCodes] s = .next t →
    ∀ x, s.freqOf x ≠ 0 →
      1 ≤ (t.codeOf x).bits.length ∧ (t.codeOf x).bits.length ≤ 255 ∧
      (2 ≤ (mapSyms s.freq).length → (t.codeOf x).bits.length ≤ (mapSyms s.freq).length - 1) ∧
      ((mapSyms s.freq).length = 1 → (t.codeOf x).bits.length = 1)

/-- Optimality: for n ≥ 2 no prefix code of the counted symbols has a lower weighted path length (42_tree_codes.md R122). -/
def Obligations.GeneratedCodesAreOptimal : Prop :=
  ∀ s t : State, Inv s → s.err = none → s.phase = .freq → runAll [.buildTree, .genCodes] s = .next t →
    2 ≤ (mapSyms s.freq).length →
    ∀ c : Sym → Bits, (∀ x ∈ mapSyms s.freq, ∀ y ∈ mapSyms s.freq, x ≠ y → ¬ c x <+: c y) →
      codeCost s.freq (fun x => (t.codeOf x).bits.length) ≤ codeCost s.freq (fun x => (c x).length)

/-- The same Frequency Map gives the same node pool and the same Code Table (42_tree_codes.md R126). -/
def Obligations.SameCountsGiveTheSameCodes : Prop :=
  ∀ s₁ s₂ t₁ t₂ : State, Inv s₁ → Inv s₂ → s₁.err = none → s₂.err = none → s₁.phase = .freq → s₂.phase = .freq →
    s₁.freq = s₂.freq → runAll [.buildTree, .genCodes] s₁ = .next t₁ → runAll [.buildTree, .genCodes] s₂ = .next t₂ →
    t₁.pool = t₂.pool ∧ t₁.root = t₂.root ∧ t₁.code = t₂.code ∧ t₁.lmax = t₂.lmax

/-- CODE_READ in every phase and in the error state: CODELEN with VALID and LEN, then ceil(LEN/32) CODEBITS, position 32k + j of the
code in bit 31 - j of word k, 0 past its end; nothing else changes (42_tree_codes.md R121). -/
def Obligations.CodeReadReportsTheEntry : Prop :=
  ∀ (s : State) (x : Sym), ∃ words : List Word,
    exec (.codeRead x) s = .next { s with
      resp := s.resp ++ .codeLen (s.codeOf x).valid (BitVec.ofNat 8 (s.codeOf x).bits.length) :: words.map .codeBits } ∧
    words.length = ((s.codeOf x).bits.length + 31) / 32 ∧
    ∀ (k j : Nat) (w : Word), words[k]? = some w → j < 32 → w.getMsbD j = ((s.codeOf x).bits[32 * k + j]?).getD false

/-! ### Bit Packer -/

/-- ENC_SYM of a valid symbol that fits BITCNT, in phase CODES: BITCNT grows by LEN; the bytes emitted, read back bit 7 first, and
the 0 to 7 bits left in PEND are together the old PEND and the code (43_packer.md R130). -/
def Obligations.EncSymPacksTheCode : Prop :=
  ∀ (s : State) (x : Sym), s.err = none → s.phase = .codes → (s.codeOf x).valid = true →
    s.bitcnt.toNat + (s.codeOf x).bits.length ≤ 2 ^ 32 - 1 →
    ∃ (n : Word) (rest : Bits) (bytes : List Byte),
      exec (.encSym x) s = .next { s with bitcnt := n, pend := rest, resp := s.resp ++ bytes.map .byte } ∧
      n.toNat = s.bitcnt.toNat + (s.codeOf x).bits.length ∧ streamBits bytes ++ rest = s.pend ++ (s.codeOf x).bits ∧
      rest.length < 8 ∧ bytes.length = (s.pend.length + (s.codeOf x).bits.length) / 8

/-- ENC_SYM's errors in phase CODES, ENCODING before OVERFLOW: no byte is emitted, and only ERR changes (43_packer.md R130). -/
def Obligations.EncSymErrors : Prop :=
  ∀ (s : State) (x : Sym), s.err = none → s.phase = .codes →
    ((s.codeOf x).valid = false →
      exec (.encSym x) s = .next { s with err := some .encoding, resp := s.resp ++ [.err 0x30 .encoding] }) ∧
    ((s.codeOf x).valid = true → 2 ^ 32 - 1 < s.bitcnt.toNat + (s.codeOf x).bits.length →
      exec (.encSym x) s = .next { s with err := some .overflow, resp := s.resp ++ [.err 0x30 .overflow] })

/-- ENC_FLUSH in phase CODES: the pending bits, if any, go out as one byte, first bit in bit 7 and 0 bits behind them; then LEN with
BITCNT; PEND is empty and PHASE is ENC_DONE (43_packer.md R131). -/
def Obligations.EncFlushPadsAndReports : Prop :=
  ∀ s : State, s.err = none → s.phase = .codes → s.pend.length ≤ 7 →
    ∃ bytes : List Byte,
      exec .encFlush s = .next { s with
        pend := [], phase := .encDone, resp := s.resp ++ bytes.map .byte ++ [.len s.bitcnt] } ∧
      streamBits bytes = s.pend ++ List.replicate (padCount s.pend.length) false

/-- The packed stream of a text: from CODES with an empty packer, the bytes are the concatenated codes padded with zeros to whole
bytes, and LEN is the number of code bits, which is the weighted path length where t is the text
counted (43_packer.md R132). -/
def Obligations.PackedStreamIsThePaddedConcatenation : Prop :=
  ∀ (s : State) (t : List Sym), s.err = none → s.phase = .codes → s.pend = [] → s.bitcnt = 0 →
    (∀ x ∈ t, (s.codeOf x).valid = true) → (codeStream s.code t).length ≤ 2 ^ 32 - 1 →
    ∃ (u : State) (bytes : List Byte), runAll (t.map .encSym ++ [.encFlush]) s = .next u ∧ CompressDone u ∧
      u.resp = s.resp ++ bytes.map .byte ++ [.len (BitVec.ofNat 32 (codeStream s.code t).length)] ∧
      streamBits bytes = codeStream s.code t ++ List.replicate (padCount (codeStream s.code t).length) false ∧
      bytes.length = ((codeStream s.code t).length + 7) / 8 ∧
      ((∀ x, (s.freqOf x).toNat = t.count x) →
        (codeStream s.code t).length = codeCost s.freq (fun x => (s.codeOf x).bits.length))

/-! ### Loading a table and the reverse map -/

/-- TBL_BEGIN in FREQ or TBL_LOAD opens an empty valid entry and selects it (44_unpacker.md R140). -/
def Obligations.TblBeginOpensAnEntry : Prop :=
  ∀ (s : State) (x : Sym), s.err = none → (s.phase = .freq ∨ s.phase = .tblLoad) →
    ∃ c : Table CodeEntry, exec (.tblBegin x) s = .next { s with code := c, sel := x, phase := .tblLoad } ∧
      entry c x = ⟨true, []⟩ ∧ ∀ y, y ≠ x → entry c y = s.codeOf y

/-- TBL_APPEND in TBL_LOAD appends its bits to CODE[SEL], or raises CORRUPT_TABLE with the entry unchanged where the code would pass
255 bits (44_unpacker.md R141). -/
def Obligations.TblAppendExtendsTheSelectedCode : Prop :=
  ∀ (s : State) (bits : Bits), s.err = none → s.phase = .tblLoad →
    ((s.codeOf s.sel).bits.length + bits.length ≤ 255 →
      ∃ c : Table CodeEntry, exec (.tblAppend bits) s = .next { s with code := c } ∧
        entry c s.sel = ⟨true, (s.codeOf s.sel).bits ++ bits⟩ ∧ ∀ y, y ≠ s.sel → entry c y = s.codeOf y) ∧
    (255 < (s.codeOf s.sel).bits.length + bits.length →
      exec (.tblAppend bits) s = .next { s with err := some .corruptTable, resp := s.resp ++ [.err 0x41 .corruptTable] })

/-- TBL_LOAD s, c from FREQ or TBL_LOAD leaves c as the code of s and every other entry as it was (30_encoding.md R79). -/
def Obligations.TblLoadLoadsAWholeCode : Prop :=
  ∀ (s : State) (x : Sym) (c : Bits), s.err = none → (s.phase = .freq ∨ s.phase = .tblLoad) → 1 ≤ c.length → c.length ≤ 255 →
    ∃ t, runAll (Pseudo.tblLoad x c).expand s = .next t ∧ t.err = none ∧ t.phase = .tblLoad ∧ t.codeOf x = ⟨true, c⟩ ∧
      ∀ y, y ≠ x → t.codeOf y = s.codeOf y

/-- TBL_INVERT in its phases: it succeeds exactly when no valid code is empty and no two valid symbols have equal codes, and then
moves to RMAP and writes LMAX only; otherwise CORRUPT_TABLE (44_unpacker.md R142). -/
def Obligations.TblInvertAcceptsDistinctCodes : Prop :=
  ∀ s : State, s.err = none → (s.phase = .freq ∨ s.phase = .encDone ∨ s.phase = .tblLoad) →
    (((∀ x, (s.codeOf x).valid = true → (s.codeOf x).bits ≠ []) ∧
      (∀ x y, x ≠ y → (s.codeOf x).valid = true → (s.codeOf y).valid = true → (s.codeOf x).bits ≠ (s.codeOf y).bits)) →
      ∃ m, exec .tblInvert s = .next { s with lmax := m, phase := .rmap }) ∧
    (((∃ x, (s.codeOf x).valid = true ∧ (s.codeOf x).bits = []) ∨
      (∃ x y, x ≠ y ∧ (s.codeOf x).valid = true ∧ (s.codeOf y).valid = true ∧ (s.codeOf x).bits = (s.codeOf y).bits)) →
      exec .tblInvert s = .next { s with err := some .corruptTable, resp := s.resp ++ [.err 0x42 .corruptTable] })

/-- The reverse lookup where it is used: in RMAP, DEC and DEC_DONE it answers the unique symbol with that code, NONE if there is
none; the table it inverts does not change there but by CLEAR, which leaves those phases (44_unpacker.md R143). -/
def Obligations.LookupInvertsTheTable : Prop :=
  ∀ (s : State) (c : Bits), Inv s → (s.phase = .rmap ∨ s.phase = .dec ∨ s.phase = .decDone) →
    (∀ x, lookup s.code c = some x ↔ ((s.codeOf x).valid = true ∧ (s.codeOf x).bits = c)) ∧
    (lookup s.code c = none ↔ ∀ x, (s.codeOf x).valid = true → (s.codeOf x).bits ≠ c) ∧
    (∀ i t, exec i s = .next t → i ≠ .clear → t.code = s.code)

/-! ### Bit Unpacker -/

/-- DEC_START in RMAP latches the mode and ARG and starts empty (44_unpacker.md R144). -/
def Obligations.DecStartLatchesModeAndLength : Prop :=
  ∀ (s : State) (legacy : Bool), s.err = none → s.phase = .rmap →
    exec (.decStart legacy) s = .next { s with
      legacy := legacy, bitlen := s.arg, dacc := [], dbytes := 0, dsyms := 0, phase := .dec }

/-- DEC_BYTE decodes: where DACC and the byte's data bits are a sequence of valid codes, none of them with a shorter code as its
beginning, and a rest that matches nothing yet, its symbols go out in order and the rest stays in DACC. In LENGTH mode the byte
must belong to the stream and its pad bits be 0 (44_unpacker.md R145, R149). -/
def Obligations.DecByteEmitsTheDecodedSymbols : Prop :=
  ∀ (s : State) (b : Byte) (syms : List Sym) (rest : Bits), Inv s → s.err = none → s.phase = .dec →
    (s.legacy = false → s.dbytes.toNat < ceil8 s.bitlen.toNat) → (∀ p ∈ padBits s b, p = false) →
    s.dbytes.toNat < 2 ^ 32 - 1 → s.dsyms.toNat + syms.length ≤ 2 ^ 32 - 1 →
    s.dacc ++ dataBits s b = codeStream s.code syms ++ rest →
    (∀ x ∈ syms, (s.codeOf x).valid = true ∧ noShorterCode s.code (s.codeOf x).bits) →
    (∀ k, 1 ≤ k → k ≤ s.dacc.length → ¬ isCode s.code (s.dacc.take k)) →
    noShorterCode s.code rest → ¬ isCode s.code rest → (rest.length < s.lmax.toNat ∨ rest = []) →
    ∃ m n : Word, exec (.decByte b) s = .next { s with
        dacc := rest, dbytes := m, dsyms := n, resp := s.resp ++ syms.map .sym } ∧
      m.toNat = s.dbytes.toNat + 1 ∧ n.toNat = s.dsyms.toNat + syms.length

/-- DEC_BYTE's errors before any bit, in their order: a byte past ceil8(BITLEN) in LENGTH mode is DECODING; then DBYTES at its limit
is OVERFLOW (44_unpacker.md R145, 60_exceptions.md R165). -/
def Obligations.DecByteErrorsBeforeAnyBit : Prop :=
  ∀ (s : State) (b : Byte), s.err = none → s.phase = .dec →
    (s.legacy = false → (s.bitlen.toNat + 7) / 8 ≤ s.dbytes.toNat →
      exec (.decByte b) s = .next { s with err := some .decoding, resp := s.resp ++ [.err 0x51 .decoding] }) ∧
    ((s.legacy = true ∨ s.dbytes.toNat < (s.bitlen.toNat + 7) / 8) → s.dbytes.toNat = 2 ^ 32 - 1 →
      exec (.decByte b) s = .next { s with err := some .overflow, resp := s.resp ++ [.err 0x51 .overflow] })

/-- In LENGTH mode a byte with a 1 among its pad bits raises DECODING, whatever its data bits decode to, if no count is at its limit
(44_unpacker.md R145). -/
def Obligations.PadBitsMustBeZero : Prop :=
  ∀ (s : State) (b : Byte) (j : Nat), s.err = none → s.phase = .dec → s.legacy = false →
    s.dbytes.toNat < ceil8 s.bitlen.toNat → s.dsyms.toNat + 8 ≤ 2 ^ 32 - 1 →
    j < 8 → s.bitlen.toNat ≤ 8 * s.dbytes.toNat + j → b.getMsbD j = true →
    ∃ t, exec (.decByte b) s = .next t ∧ t.err = some .decoding

/-- DEC_BYTE's errors at a bit, after the symbols the byte has completed: an accumulator that reaches LMAX bits and has matched
nothing is DECODING, a symbol that would take DSYMS past its limit is OVERFLOW, a 1 among the pad bits of LENGTH mode is DECODING; the SYM tokens of the earlier symbols stay in RESP
before the ERR token and everything else is rolled back (44_unpacker.md R145, 60_exceptions.md R162). -/
def Obligations.DecByteErrorsKeepEarlierSymbols : Prop :=
  ∀ (s : State) (b : Byte) (syms : List Sym) (rest : Bits), Inv s → s.err = none → s.phase = .dec →
    (s.legacy = false → s.dbytes.toNat < ceil8 s.bitlen.toNat) → s.dbytes.toNat < 2 ^ 32 - 1 →
    s.dsyms.toNat + syms.length ≤ 2 ^ 32 - 1 →
    (∀ x ∈ syms, (s.codeOf x).valid = true ∧ noShorterCode s.code (s.codeOf x).bits) →
    (∀ k, 1 ≤ k → k ≤ s.dacc.length → ¬ isCode s.code (s.dacc.take k)) →
    (s.dacc ++ dataBits s b = codeStream s.code syms ++ rest → rest ≠ [] → s.lmax.toNat ≤ rest.length →
      (∀ k, 1 ≤ k → k ≤ rest.length → ¬ isCode s.code (rest.take k)) →
      exec (.decByte b) s = .next { s with
        err := some .decoding, resp := s.resp ++ syms.map .sym ++ [.err 0x51 .decoding] }) ∧
    (∀ x, (s.codeOf x).valid = true → noShorterCode s.code (s.codeOf x).bits →
      s.dacc ++ dataBits s b = codeStream s.code syms ++ (s.codeOf x).bits ++ rest →
      s.dsyms.toNat + syms.length = 2 ^ 32 - 1 →
      exec (.decByte b) s = .next { s with
        err := some .overflow, resp := s.resp ++ syms.map .sym ++ [.err 0x51 .overflow] }) ∧
    (s.dacc ++ dataBits s b = codeStream s.code syms ++ rest → noShorterCode s.code rest → ¬ isCode s.code rest →
      (rest.length < s.lmax.toNat ∨ rest = []) → true ∈ padBits s b →
      exec (.decByte b) s = .next { s with
        err := some .decoding, resp := s.resp ++ syms.map .sym ++ [.err 0x51 .decoding] })

/-- DEC_END in DEC: LENGTH mode needs exactly ceil8(BITLEN) bytes and an empty accumulator, LEGACY mode a residual of at most 7
zero bits, which it discards; then END with DSYMS and DEC_DONE; otherwise DECODING (44_unpacker.md R146). -/
def Obligations.DecEndChecksTheStream : Prop :=
  ∀ s : State, s.err = none → s.phase = .dec →
    ((if s.legacy = false then s.dbytes.toNat = (s.bitlen.toNat + 7) / 8 ∧ s.dacc = []
      else ∃ k, k ≤ 7 ∧ s.dacc = List.replicate k false) →
      exec .decEnd s = .next { s with dacc := [], phase := .decDone, resp := s.resp ++ [.fin s.dsyms] }) ∧
    (¬ (if s.legacy = false then s.dbytes.toNat = (s.bitlen.toNat + 7) / 8 ∧ s.dacc = []
      else ∃ k, k ≤ 7 ∧ s.dacc = List.replicate k false) →
      exec .decEnd s = .next { s with err := some .decoding, resp := s.resp ++ [.err 0x52 .decoding] })

/-! ### Invariants -/

/-- The reset state meets the invariant, and no bit has been packed in it. -/
def Obligations.ResetMeetsTheInvariant : Prop := Inv State.reset ∧ PackedIs [] State.reset

/-- Every step keeps the invariant of 10_state.md R39. -/
def Obligations.StepKeepsTheInvariant : Prop :=
  ∀ s t : State, Inv s → step s = .next t → Inv t

/-- PEND is the last bits packed (10_state.md R39 item 1) and BITCNT the number of code bits packed since the last CLEAR (R26): where x
is the bits packed up to a state, `packedAfterStep` is those packed up to the next. -/
def Obligations.PendIsTheTailOfThePackedBits : Prop :=
  ∀ (s t : State) (x : Bits), PackedIs x s → step s = .next t → PackedIs (packedAfterStep s t x) t

/-- The accumulator's bound alone, from every state that has it: the unpacker never holds LMAX bits or more, and never more than
254 (10_state.md R27, R39 item 2). -/
def Obligations.StepKeepsTheAccumulatorBound : Prop :=
  ∀ s t : State, DaccOk s → step s = .next t → DaccOk t ∧ t.dacc.length ≤ 254

/-! ### Round trips -/

/-- Round trip in LENGTH mode with the session's own table (44_unpacker.md R147): compress a text with no error, then TBL_INVERT,
the reported length, the packed bytes and DEC_END give the text back. -/
def Obligations.RoundTripWithTheSessionsTable : Prop :=
  ∀ (s u : State) (t : List Sym), runAll (compressCommands t) s = .next u → u.err = none →
    ∃ (bytes : List Byte) (len : Word), u.resp = s.resp ++ bytes.map .byte ++ [.len len] ∧
      ∃ v, runAll (decodeCommands len bytes) u = .next v ∧ DecompressDone v ∧
        v.resp = u.resp ++ t.map .sym ++ [.fin (BitVec.ofNat 32 t.length)] ∧ t.length < 2 ^ 32

/-- Round trip in LENGTH mode through a reloaded table (44_unpacker.md R147): CLEAR, TBL_LOAD of every valid entry, then decode. -/
def Obligations.RoundTripThroughAReloadedTable : Prop :=
  ∀ (s u : State) (t : List Sym), runAll (compressCommands t) s = .next u → u.err = none →
    ∃ (bytes : List Byte) (len : Word), u.resp = s.resp ++ bytes.map .byte ++ [.len len] ∧
      ∃ v, runAll (.clear :: loadCommands u.code ++ decodeCommands len bytes) u = .next v ∧ DecompressDone v ∧
        v.resp = u.resp ++ t.map .sym ++ [.fin (BitVec.ofNat 32 t.length)]

/-- Phantom symbols in LEGACY mode (44_unpacker.md R148), for a text whose symbols and phantoms together fit DSYMS (log 10): with p
pad bits and an all-zeros code of k bits, p / k copies of its symbol follow the text, and the last p mod k bits are dropped. -/
def Obligations.LegacyDecodeAppendsPhantoms : Prop :=
  ∀ (s u : State) (t : List Sym), t ≠ [] → runAll (compressCommands t) s = .next u → u.err = none →
    ∃ (bytes : List Byte) (len : Word) (z : Sym), u.resp = s.resp ++ bytes.map .byte ++ [.len len] ∧
      (u.codeOf z).valid = true ∧ 1 ≤ (u.codeOf z).bits.length ∧ (∀ b ∈ (u.codeOf z).bits, b = false) ∧
      (t.length + padCount len.toNat / (u.codeOf z).bits.length ≤ 2 ^ 32 - 1 →
        ∃ v, runAll (legacyCommands bytes) u = .next v ∧ DecompressDone v ∧
          v.resp = u.resp ++ (t ++ List.replicate (padCount len.toNat / (u.codeOf z).bits.length) z).map .sym ++
            [.fin (BitVec.ofNat 32 (t.length + padCount len.toNat / (u.codeOf z).bits.length))])
end

