-- ==== Sys2Proof/Laws/State.lean ====
section
/-! SUPPORT. One lemma per field per named update of State, true by rfl, so that no later proof unfolds a record update. -/

namespace Sys2Proof.Machine

/-! ### Emission -/

@[simp] theorem emit_freq (s : State) (out : List Token) : (s.emit out).freq = s.freq := rfl
@[simp] theorem emit_nodes (s : State) (out : List Token) : (s.emit out).nodes = s.nodes := rfl
@[simp] theorem emit_nn (s : State) (out : List Token) : (s.emit out).nn = s.nn := rfl
@[simp] theorem emit_root (s : State) (out : List Token) : (s.emit out).root = s.root := rfl
@[simp] theorem emit_code (s : State) (out : List Token) : (s.emit out).code = s.code := rfl
@[simp] theorem emit_lmax (s : State) (out : List Token) : (s.emit out).lmax = s.lmax := rfl
@[simp] theorem emit_empty (s : State) (out : List Token) : (s.emit out).empty = s.empty := rfl
@[simp] theorem emit_pend (s : State) (out : List Token) : (s.emit out).pend = s.pend := rfl
@[simp] theorem emit_bitcnt (s : State) (out : List Token) : (s.emit out).bitcnt = s.bitcnt := rfl
@[simp] theorem emit_dacc (s : State) (out : List Token) : (s.emit out).dacc = s.dacc := rfl
@[simp] theorem emit_legacy (s : State) (out : List Token) : (s.emit out).legacy = s.legacy := rfl
@[simp] theorem emit_bitlen (s : State) (out : List Token) : (s.emit out).bitlen = s.bitlen := rfl
@[simp] theorem emit_dbytes (s : State) (out : List Token) : (s.emit out).dbytes = s.dbytes := rfl
@[simp] theorem emit_dsyms (s : State) (out : List Token) : (s.emit out).dsyms = s.dsyms := rfl
@[simp] theorem emit_arg (s : State) (out : List Token) : (s.emit out).arg = s.arg := rfl
@[simp] theorem emit_sel (s : State) (out : List Token) : (s.emit out).sel = s.sel := rfl
@[simp] theorem emit_phase (s : State) (out : List Token) : (s.emit out).phase = s.phase := rfl
@[simp] theorem emit_err (s : State) (out : List Token) : (s.emit out).err = s.err := rfl
@[simp] theorem emit_resp (s : State) (out : List Token) : (s.emit out).resp = s.resp ++ out := rfl
@[simp] theorem emit_port (s : State) (out : List Token) : (s.emit out).port = s.port := rfl

/-! ### Error entry -/

@[simp] theorem raiseError_freq (op : Byte) (r : Raise) (s : State) : (raiseError op r s).freq = s.freq := rfl
@[simp] theorem raiseError_nodes (op : Byte) (r : Raise) (s : State) : (raiseError op r s).nodes = s.nodes := rfl
@[simp] theorem raiseError_nn (op : Byte) (r : Raise) (s : State) : (raiseError op r s).nn = s.nn := rfl
@[simp] theorem raiseError_root (op : Byte) (r : Raise) (s : State) : (raiseError op r s).root = s.root := rfl
@[simp] theorem raiseError_code (op : Byte) (r : Raise) (s : State) : (raiseError op r s).code = s.code := rfl
@[simp] theorem raiseError_lmax (op : Byte) (r : Raise) (s : State) : (raiseError op r s).lmax = s.lmax := rfl
@[simp] theorem raiseError_empty (op : Byte) (r : Raise) (s : State) : (raiseError op r s).empty = s.empty := rfl
@[simp] theorem raiseError_pend (op : Byte) (r : Raise) (s : State) : (raiseError op r s).pend = s.pend := rfl
@[simp] theorem raiseError_bitcnt (op : Byte) (r : Raise) (s : State) : (raiseError op r s).bitcnt = s.bitcnt := rfl
@[simp] theorem raiseError_dacc (op : Byte) (r : Raise) (s : State) : (raiseError op r s).dacc = s.dacc := rfl
@[simp] theorem raiseError_legacy (op : Byte) (r : Raise) (s : State) : (raiseError op r s).legacy = s.legacy := rfl
@[simp] theorem raiseError_bitlen (op : Byte) (r : Raise) (s : State) : (raiseError op r s).bitlen = s.bitlen := rfl
@[simp] theorem raiseError_dbytes (op : Byte) (r : Raise) (s : State) : (raiseError op r s).dbytes = s.dbytes := rfl
@[simp] theorem raiseError_dsyms (op : Byte) (r : Raise) (s : State) : (raiseError op r s).dsyms = s.dsyms := rfl
@[simp] theorem raiseError_arg (op : Byte) (r : Raise) (s : State) : (raiseError op r s).arg = s.arg := rfl
@[simp] theorem raiseError_sel (op : Byte) (r : Raise) (s : State) : (raiseError op r s).sel = s.sel := rfl
@[simp] theorem raiseError_phase (op : Byte) (r : Raise) (s : State) : (raiseError op r s).phase = s.phase := rfl
@[simp] theorem raiseError_err (op : Byte) (r : Raise) (s : State) : (raiseError op r s).err = some r.code := rfl
@[simp] theorem raiseError_resp (op : Byte) (r : Raise) (s : State) : (raiseError op r s).resp = s.resp ++ r.emitted ++ [.err op r.code] := rfl
@[simp] theorem raiseError_port (op : Byte) (r : Raise) (s : State) : (raiseError op r s).port = s.port := rfl

/-! ### CLEAR -/

@[simp] theorem clearSession_freq (s : State) : (clearSession s).freq = State.reset.freq := rfl
@[simp] theorem clearSession_nodes (s : State) : (clearSession s).nodes = State.reset.nodes := rfl
@[simp] theorem clearSession_nn (s : State) : (clearSession s).nn = State.reset.nn := rfl
@[simp] theorem clearSession_root (s : State) : (clearSession s).root = State.reset.root := rfl
@[simp] theorem clearSession_code (s : State) : (clearSession s).code = State.reset.code := rfl
@[simp] theorem clearSession_lmax (s : State) : (clearSession s).lmax = State.reset.lmax := rfl
@[simp] theorem clearSession_empty (s : State) : (clearSession s).empty = State.reset.empty := rfl
@[simp] theorem clearSession_pend (s : State) : (clearSession s).pend = State.reset.pend := rfl
@[simp] theorem clearSession_bitcnt (s : State) : (clearSession s).bitcnt = State.reset.bitcnt := rfl
@[simp] theorem clearSession_dacc (s : State) : (clearSession s).dacc = State.reset.dacc := rfl
@[simp] theorem clearSession_legacy (s : State) : (clearSession s).legacy = State.reset.legacy := rfl
@[simp] theorem clearSession_bitlen (s : State) : (clearSession s).bitlen = State.reset.bitlen := rfl
@[simp] theorem clearSession_dbytes (s : State) : (clearSession s).dbytes = State.reset.dbytes := rfl
@[simp] theorem clearSession_dsyms (s : State) : (clearSession s).dsyms = State.reset.dsyms := rfl
@[simp] theorem clearSession_arg (s : State) : (clearSession s).arg = State.reset.arg := rfl
@[simp] theorem clearSession_sel (s : State) : (clearSession s).sel = State.reset.sel := rfl
@[simp] theorem clearSession_phase (s : State) : (clearSession s).phase = State.reset.phase := rfl
@[simp] theorem clearSession_err (s : State) : (clearSession s).err = State.reset.err := rfl
@[simp] theorem clearSession_resp (s : State) : (clearSession s).resp = s.resp := rfl
@[simp] theorem clearSession_port (s : State) : (clearSession s).port = s.port := rfl

/-! ### The command port -/

@[simp] theorem pushWord_freq (s : State) (w : Word) : (s.pushWord w).freq = s.freq := rfl
@[simp] theorem pushWord_nodes (s : State) (w : Word) : (s.pushWord w).nodes = s.nodes := rfl
@[simp] theorem pushWord_nn (s : State) (w : Word) : (s.pushWord w).nn = s.nn := rfl
@[simp] theorem pushWord_root (s : State) (w : Word) : (s.pushWord w).root = s.root := rfl
@[simp] theorem pushWord_code (s : State) (w : Word) : (s.pushWord w).code = s.code := rfl
@[simp] theorem pushWord_lmax (s : State) (w : Word) : (s.pushWord w).lmax = s.lmax := rfl
@[simp] theorem pushWord_empty (s : State) (w : Word) : (s.pushWord w).empty = s.empty := rfl
@[simp] theorem pushWord_pend (s : State) (w : Word) : (s.pushWord w).pend = s.pend := rfl
@[simp] theorem pushWord_bitcnt (s : State) (w : Word) : (s.pushWord w).bitcnt = s.bitcnt := rfl
@[simp] theorem pushWord_dacc (s : State) (w : Word) : (s.pushWord w).dacc = s.dacc := rfl
@[simp] theorem pushWord_legacy (s : State) (w : Word) : (s.pushWord w).legacy = s.legacy := rfl
@[simp] theorem pushWord_bitlen (s : State) (w : Word) : (s.pushWord w).bitlen = s.bitlen := rfl
@[simp] theorem pushWord_dbytes (s : State) (w : Word) : (s.pushWord w).dbytes = s.dbytes := rfl
@[simp] theorem pushWord_dsyms (s : State) (w : Word) : (s.pushWord w).dsyms = s.dsyms := rfl
@[simp] theorem pushWord_arg (s : State) (w : Word) : (s.pushWord w).arg = s.arg := rfl
@[simp] theorem pushWord_sel (s : State) (w : Word) : (s.pushWord w).sel = s.sel := rfl
@[simp] theorem pushWord_phase (s : State) (w : Word) : (s.pushWord w).phase = s.phase := rfl
@[simp] theorem pushWord_err (s : State) (w : Word) : (s.pushWord w).err = s.err := rfl
@[simp] theorem pushWord_resp (s : State) (w : Word) : (s.pushWord w).resp = s.resp := rfl
@[simp] theorem pushWord_port (s : State) (w : Word) : (s.pushWord w).port = w :: s.port := rfl

/-! ### The host's actions -/

@[simp] theorem hostSend_freq (w : Word) (s : State) : (hostSend w s).freq = s.freq := rfl
@[simp] theorem hostSend_nodes (w : Word) (s : State) : (hostSend w s).nodes = s.nodes := rfl
@[simp] theorem hostSend_nn (w : Word) (s : State) : (hostSend w s).nn = s.nn := rfl
@[simp] theorem hostSend_root (w : Word) (s : State) : (hostSend w s).root = s.root := rfl
@[simp] theorem hostSend_code (w : Word) (s : State) : (hostSend w s).code = s.code := rfl
@[simp] theorem hostSend_lmax (w : Word) (s : State) : (hostSend w s).lmax = s.lmax := rfl
@[simp] theorem hostSend_empty (w : Word) (s : State) : (hostSend w s).empty = s.empty := rfl
@[simp] theorem hostSend_pend (w : Word) (s : State) : (hostSend w s).pend = s.pend := rfl
@[simp] theorem hostSend_bitcnt (w : Word) (s : State) : (hostSend w s).bitcnt = s.bitcnt := rfl
@[simp] theorem hostSend_dacc (w : Word) (s : State) : (hostSend w s).dacc = s.dacc := rfl
@[simp] theorem hostSend_legacy (w : Word) (s : State) : (hostSend w s).legacy = s.legacy := rfl
@[simp] theorem hostSend_bitlen (w : Word) (s : State) : (hostSend w s).bitlen = s.bitlen := rfl
@[simp] theorem hostSend_dbytes (w : Word) (s : State) : (hostSend w s).dbytes = s.dbytes := rfl
@[simp] theorem hostSend_dsyms (w : Word) (s : State) : (hostSend w s).dsyms = s.dsyms := rfl
@[simp] theorem hostSend_arg (w : Word) (s : State) : (hostSend w s).arg = s.arg := rfl
@[simp] theorem hostSend_sel (w : Word) (s : State) : (hostSend w s).sel = s.sel := rfl
@[simp] theorem hostSend_phase (w : Word) (s : State) : (hostSend w s).phase = s.phase := rfl
@[simp] theorem hostSend_err (w : Word) (s : State) : (hostSend w s).err = s.err := rfl
@[simp] theorem hostSend_resp (w : Word) (s : State) : (hostSend w s).resp = s.resp := rfl
@[simp] theorem hostSend_port (w : Word) (s : State) : (hostSend w s).port = s.port ++ [w] := rfl

/-! ### Draining -/

@[simp] theorem hostDrain_freq (k : Nat) (s : State) : (hostDrain k s).freq = s.freq := rfl
@[simp] theorem hostDrain_nodes (k : Nat) (s : State) : (hostDrain k s).nodes = s.nodes := rfl
@[simp] theorem hostDrain_nn (k : Nat) (s : State) : (hostDrain k s).nn = s.nn := rfl
@[simp] theorem hostDrain_root (k : Nat) (s : State) : (hostDrain k s).root = s.root := rfl
@[simp] theorem hostDrain_code (k : Nat) (s : State) : (hostDrain k s).code = s.code := rfl
@[simp] theorem hostDrain_lmax (k : Nat) (s : State) : (hostDrain k s).lmax = s.lmax := rfl
@[simp] theorem hostDrain_empty (k : Nat) (s : State) : (hostDrain k s).empty = s.empty := rfl
@[simp] theorem hostDrain_pend (k : Nat) (s : State) : (hostDrain k s).pend = s.pend := rfl
@[simp] theorem hostDrain_bitcnt (k : Nat) (s : State) : (hostDrain k s).bitcnt = s.bitcnt := rfl
@[simp] theorem hostDrain_dacc (k : Nat) (s : State) : (hostDrain k s).dacc = s.dacc := rfl
@[simp] theorem hostDrain_legacy (k : Nat) (s : State) : (hostDrain k s).legacy = s.legacy := rfl
@[simp] theorem hostDrain_bitlen (k : Nat) (s : State) : (hostDrain k s).bitlen = s.bitlen := rfl
@[simp] theorem hostDrain_dbytes (k : Nat) (s : State) : (hostDrain k s).dbytes = s.dbytes := rfl
@[simp] theorem hostDrain_dsyms (k : Nat) (s : State) : (hostDrain k s).dsyms = s.dsyms := rfl
@[simp] theorem hostDrain_arg (k : Nat) (s : State) : (hostDrain k s).arg = s.arg := rfl
@[simp] theorem hostDrain_sel (k : Nat) (s : State) : (hostDrain k s).sel = s.sel := rfl
@[simp] theorem hostDrain_phase (k : Nat) (s : State) : (hostDrain k s).phase = s.phase := rfl
@[simp] theorem hostDrain_err (k : Nat) (s : State) : (hostDrain k s).err = s.err := rfl
@[simp] theorem hostDrain_resp (k : Nat) (s : State) : (hostDrain k s).resp = s.resp.drop k := rfl
@[simp] theorem hostDrain_port (k : Nat) (s : State) : (hostDrain k s).port = s.port := rfl

/-! ### Reset -/

@[simp] theorem reset_freq : State.reset.freq = Vector.replicate 256 0 := rfl
@[simp] theorem reset_nodes : State.reset.nodes = Vector.replicate 511 Node.zero := rfl
@[simp] theorem reset_nn : State.reset.nn = 0 := rfl
@[simp] theorem reset_root : State.reset.root = 0 := rfl
@[simp] theorem reset_code : State.reset.code = Vector.replicate 256 CodeEntry.absent := rfl
@[simp] theorem reset_lmax : State.reset.lmax = 0 := rfl
@[simp] theorem reset_empty : State.reset.empty = false := rfl
@[simp] theorem reset_pend : State.reset.pend = [] := rfl
@[simp] theorem reset_bitcnt : State.reset.bitcnt = 0 := rfl
@[simp] theorem reset_dacc : State.reset.dacc = [] := rfl
@[simp] theorem reset_legacy : State.reset.legacy = false := rfl
@[simp] theorem reset_bitlen : State.reset.bitlen = 0 := rfl
@[simp] theorem reset_dbytes : State.reset.dbytes = 0 := rfl
@[simp] theorem reset_dsyms : State.reset.dsyms = 0 := rfl
@[simp] theorem reset_arg : State.reset.arg = 0 := rfl
@[simp] theorem reset_sel : State.reset.sel = 0 := rfl
@[simp] theorem reset_phase : State.reset.phase = .freq := rfl
@[simp] theorem reset_err : State.reset.err = none := rfl
@[simp] theorem reset_resp : State.reset.resp = [] := rfl
@[simp] theorem reset_port : State.reset.port = [] := rfl

/-! ### The invariant does not read RESP, ERR, ARG, DSYMS, BITLEN or the waiting words -/

theorem inv_port {s : State} (h : Inv s) (v : List Word) : Inv { s with port := v } where
  pend := h.pend
  bitcnt := h.bitcnt
  dacc := h.dacc
  entries := h.entries
  freqPhase := h.freqPhase
  empty := h.empty
  treePhase := h.treePhase
  codesPhase := h.codesPhase
  rmapPhase := h.rmapPhase
  tblLoadPhase := h.tblLoadPhase
  lmax := h.lmax

theorem inv_resp {s : State} (h : Inv s) (v : List Token) : Inv { s with resp := v } where
  pend := h.pend
  bitcnt := h.bitcnt
  dacc := h.dacc
  entries := h.entries
  freqPhase := h.freqPhase
  empty := h.empty
  treePhase := h.treePhase
  codesPhase := h.codesPhase
  rmapPhase := h.rmapPhase
  tblLoadPhase := h.tblLoadPhase
  lmax := h.lmax

theorem inv_err {s : State} (h : Inv s) (v : Option Error) : Inv { s with err := v } where
  pend := h.pend
  bitcnt := h.bitcnt
  dacc := h.dacc
  entries := h.entries
  freqPhase := h.freqPhase
  empty := h.empty
  treePhase := h.treePhase
  codesPhase := h.codesPhase
  rmapPhase := h.rmapPhase
  tblLoadPhase := h.tblLoadPhase
  lmax := h.lmax

theorem inv_arg {s : State} (h : Inv s) (v : Word) : Inv { s with arg := v } where
  pend := h.pend
  bitcnt := h.bitcnt
  dacc := h.dacc
  entries := h.entries
  freqPhase := h.freqPhase
  empty := h.empty
  treePhase := h.treePhase
  codesPhase := h.codesPhase
  rmapPhase := h.rmapPhase
  tblLoadPhase := h.tblLoadPhase
  lmax := h.lmax

theorem inv_dsyms {s : State} (h : Inv s) (v : Word) : Inv { s with dsyms := v } where
  pend := h.pend
  bitcnt := h.bitcnt
  dacc := h.dacc
  entries := h.entries
  freqPhase := h.freqPhase
  empty := h.empty
  treePhase := h.treePhase
  codesPhase := h.codesPhase
  rmapPhase := h.rmapPhase
  tblLoadPhase := h.tblLoadPhase
  lmax := h.lmax

theorem inv_bitlen {s : State} (h : Inv s) (v : Word) : Inv { s with bitlen := v } where
  pend := h.pend
  bitcnt := h.bitcnt
  dacc := h.dacc
  entries := h.entries
  freqPhase := h.freqPhase
  empty := h.empty
  treePhase := h.treePhase
  codesPhase := h.codesPhase
  rmapPhase := h.rmapPhase
  tblLoadPhase := h.tblLoadPhase
  lmax := h.lmax

end Sys2Proof.Machine
end

