-- ==== Sys2Proof/Laws/Ops.lean ====
section
/-! SUPPORT. What each shared operation of Machine/Ops.lean does, said once: table access, the node pool, the step frame, error
entry, the command port. -/

namespace Sys2Proof.Machine

/-! ### Tables -/

@[simp] theorem entry_setEntry_self {α : Type} (t : Table α) (x : Sym) (v : α) : entry (setEntry t x v) x = v := by
  simp [entry, setEntry]

theorem entry_setEntry_of_ne {α : Type} (t : Table α) {x y : Sym} (v : α) (h : y ≠ x) :
    entry (setEntry t x v) y = entry t y := by
  have : x.toNat ≠ y.toNat := fun e => h (BitVec.eq_of_toNat_eq e.symm)
  simp [entry, setEntry, this]

theorem entry_setEntry {α : Type} (t : Table α) (x y : Sym) (v : α) :
    entry (setEntry t x v) y = if y = x then v else entry t y := by
  split
  · subst y; simp
  · exact entry_setEntry_of_ne t v ‹_›

/-- Two tables with the same entries are the same table. -/
theorem table_ext {α : Type} {t u : Table α} (h : ∀ x : Sym, entry t x = entry u x) : t = u := by
  apply Vector.ext
  intro i hi
  have := h (BitVec.ofNat 8 i)
  simpa [entry, Nat.mod_eq_of_lt hi] using this

@[simp] theorem entry_replicate {α : Type} (v : α) (x : Sym) : entry (Vector.replicate 256 v) x = v := by
  simp [entry]

theorem mem_table_iff {α : Type} (t : Table α) (v : α) : v ∈ t.toList ↔ ∃ x : Sym, entry t x = v := by
  rw [Vector.mem_toList_iff, Vector.mem_iff_getElem]
  constructor
  · rintro ⟨i, hi, rfl⟩
    exact ⟨BitVec.ofNat 8 i, by simp [entry, Nat.mod_eq_of_lt hi]⟩
  · rintro ⟨x, rfl⟩
    exact ⟨x.toNat, x.isLt, rfl⟩

theorem toList_table_getElem? {α : Type} (t : Table α) (x : Sym) : t.toList[x.toNat]? = some (entry t x) := by
  rw [List.getElem?_eq_some_iff]
  exact ⟨by simpa using x.isLt, by simp [entry]⟩

/-! ### The node pool -/

@[simp] theorem storePool_getElem (old : Vector Node 511) (pool : List Node) (i : Nat) (hi : i < 511)
    (hlen : pool.length ≤ 511) : (storePool old pool)[i] = (pool[i]?).getD old[i] := by
  simp only [storePool, Vector.getElem_mk, List.getElem_toArray, List.take_of_length_le hlen]
  by_cases h : i < pool.length
  · simp [h]
  · simp only [List.getElem_append_right (Nat.le_of_not_lt h), List.getElem_drop, Vector.getElem_toList]
    simp [Nat.add_sub_cancel' (Nat.le_of_not_lt h), Nat.le_of_not_lt h]

/-- Reading back the stored nodes gives the pool. -/
theorem pool_storePool (old : Vector Node 511) (pool : List Node) (hlen : pool.length ≤ 511) :
    (storePool old pool).toList.take pool.length = pool := by
  simp [storePool, hlen]

theorem pool_length (s : State) : s.pool.length = s.nn.val := by
  simp only [State.pool, List.length_take, Vector.length_toList]
  omega

theorem pool_getElem? (s : State) (i : Fin 511) (h : i.val < s.nn.val) : s.pool[i.val]? = some (s.nodes[i]) := by
  simp [State.pool, h]

/-! ### The step frame -/

/-- A command of the always kind completes with its body. -/
theorem always_eq (body : State → State) (s : State) : always body s = .next (body s) := rfl

/-- ARG_LO and ARG_HI: discarded in the error state, their body otherwise. -/
theorem unlessError_of_error (body : State → State) {s : State} (h : s.err ≠ none) : unlessError body s = .next s := by
  unfold unlessError
  split
  · rfl
  · exact absurd ‹_› h

theorem unlessError_of_none (body : State → State) {s : State} (h : s.err = none) : unlessError body s = .next (body s) := by
  simp [unlessError, h]

/-- Everything `inPhases` can do: discard, the body's effect, the body's error, or SEQUENCE. -/
theorem inPhases_cases {op : Byte} {legal : List Phase} {body : State → Except Raise State} {s t : State}
    (h : inPhases op legal body s = .next t) :
    (s.err ≠ none ∧ t = s) ∨
    (s.err = none ∧ s.phase ∈ legal ∧ body s = .ok t) ∨
    (∃ r, s.err = none ∧ s.phase ∈ legal ∧ body s = .error r ∧ t = raiseError op r s) ∨
    (s.err = none ∧ s.phase ∉ legal ∧ t = raiseError op (.plain .sequence) s) := by
  unfold inPhases at h
  split at h
  · rename_i e he
    simp only [Host.Outcome.next.injEq] at h
    exact .inl ⟨by simp [he], h.symm⟩
  · rename_i he
    split at h
    · rename_i hp
      split at h
      · rename_i u hu
        simp only [Host.Outcome.next.injEq] at h
        exact .inr (.inl ⟨he, hp, h ▸ hu⟩)
      · rename_i r hr
        simp only [Host.Outcome.next.injEq] at h
        exact .inr (.inr (.inl ⟨r, he, hp, hr, h.symm⟩))
    · rename_i hp
      simp only [Host.Outcome.next.injEq] at h
      exact .inr (.inr (.inr ⟨he, hp, h.symm⟩))

/-- `inPhases` never stops. -/
theorem inPhases_answers (op : Byte) (legal : List Phase) (body : State → Except Raise State) (s : State) :
    ∃ t, inPhases op legal body s = .next t := by
  unfold inPhases
  repeat' split
  all_goals exact ⟨_, rfl⟩

theorem inPhases_of_error (op : Byte) (legal : List Phase) (body : State → Except Raise State) {s : State}
    (h : s.err ≠ none) : inPhases op legal body s = .next s := by
  unfold inPhases
  split
  · rfl
  · exact absurd ‹_› h

theorem inPhases_of_ok {op : Byte} {legal : List Phase} {body : State → Except Raise State} {s t : State}
    (he : s.err = none) (hp : s.phase ∈ legal) (hb : body s = .ok t) : inPhases op legal body s = .next t := by
  simp [inPhases, he, hp, hb]

theorem inPhases_of_raise {op : Byte} {legal : List Phase} {body : State → Except Raise State} {s : State} {r : Raise}
    (he : s.err = none) (hp : s.phase ∈ legal) (hb : body s = .error r) :
    inPhases op legal body s = .next (raiseError op r s) := by
  simp [inPhases, he, hp, hb]

theorem inPhases_of_phase (op : Byte) {legal : List Phase} (body : State → Except Raise State) {s : State}
    (he : s.err = none) (hp : s.phase ∉ legal) :
    inPhases op legal body s = .next (raiseError op (.plain .sequence) s) := by
  simp [inPhases, he, hp]

/-! ### Error entry -/

/-- Error entry rolls back all but RESP: nothing but ERR and RESP differs (60_exceptions.md R162). -/
theorem raiseError_same (op : Byte) (r : Raise) (s : State) (el : Element) : el.same s (raiseError op r s) := by
  cases el <;> rfl

/-- A plain raise appends the ERR token alone. -/
theorem raiseError_plain (op : Byte) (e : Error) (s : State) :
    raiseError op (.plain e) s = { s with err := some e, resp := s.resp ++ [.err op e] } := by
  simp [raiseError]

/-! ### The command port -/

theorem fetch_nil {s : State} (h : s.port = []) : fetch s = none := by simp [fetch, h]

theorem fetch_cons {s : State} {w : Word} {rest : List Word} (h : s.port = w :: rest) :
    fetch s = some (w, { s with port := rest }) := by simp [fetch, h]

theorem fetch_pushWord (s : State) (w : Word) : fetch (s.pushWord w) = some (w, s) := rfl

/-! ### Runs -/

theorem runAll_cons {i : Instr} {is : List Instr} {s t : State} (h : exec i s = .next t) :
    runAll (i :: is) s = runAll is t := by simp [runAll, h]

theorem runAll_append {is js : List Instr} {s t : State} (h : runAll is s = .next t) :
    runAll (is ++ js) s = runAll js t := by
  induction is generalizing s with
  | nil => simp only [runAll, Host.Outcome.next.injEq] at h; simp [h]
  | cons i is ih =>
    simp only [runAll, List.cons_append] at h ⊢
    split at h
    · exact ih h
    · exact absurd h (by simp)
    · exact absurd h (by simp)

end Sys2Proof.Machine
end

