-- ==== Sys2Proof/Laws/Bits.lean ====
section
/-! SUPPORT. Bit sequences (00_scope.md R14): lengths, values, and the two directions between a byte and its eight stream bits. -/

namespace Sys2Proof

@[simp] theorem bitsMSB_length (v n : Nat) : (bitsMSB v n).length = n := by
  induction n with
  | zero => rfl
  | succ n ih => simp [bitsMSB, ih]

/-- Position i of `bitsMSB(v, n)` is bit n - 1 - i of v. -/
theorem bitsMSB_getElem (v n i : Nat) (h : i < (bitsMSB v n).length) : (bitsMSB v n)[i] = v.testBit (n - 1 - i) := by
  induction n generalizing i with
  | zero => simp at h
  | succ n ih =>
    cases i with
    | zero => simp [bitsMSB]
    | succ i =>
      have h' : i < (bitsMSB v n).length := by simpa using h
      have := ih i h'
      simp only [bitsMSB, List.getElem_cons_succ, this]
      congr 1
      omega

@[simp] theorem bitsVal_nil : bitsVal [] = 0 := rfl

theorem bitsVal_foldl (x : Bits) (a : Nat) :
    x.foldl (fun acc b => 2 * acc + b.toNat) a = a * 2 ^ x.length + bitsVal x := by
  induction x generalizing a with
  | nil => simp
  | cons b x ih =>
    simp only [List.foldl_cons, bitsVal, List.length_cons, Nat.mul_zero, Nat.zero_add]
    rw [ih (2 * a + b.toNat), ih b.toNat]
    ring

theorem bitsVal_cons (b : Bool) (x : Bits) : bitsVal (b :: x) = b.toNat * 2 ^ x.length + bitsVal x := by
  have := bitsVal_foldl x b.toNat
  simpa [bitsVal] using this

theorem bitsVal_append (x y : Bits) : bitsVal (x ++ y) = bitsVal x * 2 ^ y.length + bitsVal y := by
  have := bitsVal_foldl y (bitsVal x)
  simpa [bitsVal, List.foldl_append] using this

theorem bitsVal_lt (x : Bits) : bitsVal x < 2 ^ x.length := by
  induction x with
  | nil => simp
  | cons b x ih =>
    rw [bitsVal_cons, List.length_cons, Nat.pow_succ]
    have : b.toNat ≤ 1 := by cases b <;> simp
    nlinarith

@[simp] theorem bitsVal_replicate_false (n : Nat) : bitsVal (List.replicate n false) = 0 := by
  induction n with
  | zero => rfl
  | succ n ih => simp [List.replicate_succ, bitsVal_cons, ih]

/-- Bit j of the value of x is position len(x) - 1 - j of x. -/
theorem bitsVal_testBit (x : Bits) (j : Nat) : (bitsVal x).testBit j = (x.reverse[j]?).getD false := by
  induction x generalizing j with
  | nil => simp
  | cons b x ih =>
    rw [bitsVal_cons, List.reverse_cons, Nat.mul_comm, Nat.testBit_two_pow_mul_add _ (bitsVal_lt x)]
    by_cases h : j < x.length
    · rw [List.getElem?_append_left (by simpa using h)]
      simp only [h, if_true, ih]
    · simp only [h, if_false]
      rw [List.getElem?_append_right (by simpa using Nat.le_of_not_lt h), List.length_reverse]
      rcases hk : j - x.length with _ | k
      · cases b <;> simp
      · cases b <;> simp [Nat.testBit_succ]

/-- `val(bitsMSB(v, n)) = v` for v < 2^n (R14). -/
theorem bitsVal_bitsMSB {v n : Nat} (h : v < 2 ^ n) : bitsVal (bitsMSB v n) = v := by
  apply Nat.eq_of_testBit_eq
  intro j
  rw [bitsVal_testBit]
  by_cases hj : j < n
  · rw [List.getElem?_reverse (by simpa using hj), bitsMSB_length, List.getElem?_eq_getElem (by simp; omega), Option.getD_some,
      bitsMSB_getElem]
    congr 1
    omega
  · rw [List.getElem?_eq_none (by simpa using Nat.le_of_not_lt hj), Nat.testBit_lt_two_pow]
    · rfl
    · exact Nat.lt_of_lt_of_le h (Nat.pow_le_pow_right (by omega) (Nat.le_of_not_lt hj))

/-- `bitsMSB(val(x), len(x)) = x`. -/
theorem bitsMSB_bitsVal (x : Bits) : bitsMSB (bitsVal x) x.length = x := by
  apply List.ext_getElem
  · simp
  · intro i h₁ h₂
    have hi : x.length - 1 - i < x.length := by omega
    rw [bitsMSB_getElem, bitsVal_testBit, List.getElem?_reverse hi, List.getElem?_eq_getElem (by omega), Option.getD_some]
    congr 1
    omega

@[simp] theorem padTo_length (n : Nat) (x : Bits) : (padTo n x).length = max n x.length := by
  simp [padTo]; omega

theorem padTo_of_length {n : Nat} {x : Bits} (h : x.length = n) : padTo n x = x := by
  simp [padTo, h]

namespace Machine

@[simp] theorem byteBits_length (b : Byte) : (byteBits b).length = 8 := by simp [byteBits]

/-- The stream bits of the byte made from up to 8 stream bits are those bits, with 0 bits behind them (20_memory.md R52). -/
theorem byteBits_bitsByte {x : Bits} (h : x.length ≤ 8) : byteBits (bitsByte x) = padTo 8 x := by
  have hlen : (padTo 8 x).length = 8 := by simp [h]
  have hlt := bitsVal_lt (padTo 8 x)
  have hback := bitsMSB_bitsVal (padTo 8 x)
  rw [hlen] at hlt hback
  rw [byteBits, bitsByte, BitVec.toNat_ofNat, Nat.mod_eq_of_lt hlt, hback]

theorem bitsByte_byteBits (b : Byte) : bitsByte (byteBits b) = b := by
  rw [bitsByte, padTo_of_length (byteBits_length b), byteBits, bitsVal_bitsMSB b.isLt]
  simp

/-- Position j of a byte's stream bits is its bit 7 - j. -/
theorem byteBits_eq_map (b : Byte) : byteBits b = (List.range 8).map fun j => b.getMsbD j := by
  apply List.ext_getElem
  · simp
  · intro i h₁ h₂
    have hi : i < 8 := by simpa using h₁
    simp only [byteBits, bitsMSB_getElem, List.getElem_map, List.getElem_range, BitVec.getMsbD, hi, decide_true, Bool.true_and,
      BitVec.getLsbD]

/-- A stream of bits is its whole bytes, spelled out again, and what is left over (43_packer.md R130). -/
theorem fullBytes_append_leftover (x : Bits) : (fullBytes x).flatMap byteBits ++ leftover x = x := by
  have key : ∀ n, 8 * n ≤ x.length →
      ((List.range n).map fun k => bitsByte ((x.drop (8 * k)).take 8)).flatMap byteBits = x.take (8 * n) := by
    intro n hn
    induction n with
    | zero => simp
    | succ n ih =>
      have hlen : ((x.drop (8 * n)).take 8).length = 8 := by simp; omega
      rw [List.range_succ, List.map_append, List.flatMap_append, ih (by omega)]
      simp only [List.map_cons, List.map_nil, List.flatMap_cons, List.flatMap_nil, List.append_nil]
      rw [byteBits_bitsByte (by omega), padTo_of_length hlen, Nat.mul_succ, List.take_add]
  rw [fullBytes, key _ (by omega), leftover, List.take_append_drop]

@[simp] theorem fullBytes_length (x : Bits) : (fullBytes x).length = x.length / 8 := by simp [fullBytes]

@[simp] theorem leftover_length (x : Bits) : (leftover x).length = x.length % 8 := by
  simp [leftover]; omega

end Machine

end Sys2Proof
end

