-- ==== Sys2Proof/Laws/Tables.lean ====
section
/-! SUPPORT. What is read from the FREQ and CODE tables as wholes: the counted symbols, the valid symbols and codes, the longest code,
the reverse lookup, and a list of codes written in order. -/

namespace Sys2Proof.Machine

theorem toList_table_getElem?_ofNat {α : Type} (t : Table α) {i : Nat} {v : α} (h : t.toList[i]? = some v) :
    i < 256 ∧ entry t (BitVec.ofNat 8 i) = v := by
  obtain ⟨hi, hv⟩ := List.getElem?_eq_some_iff.mp h
  have hi' : i < 256 := by simpa using hi
  refine ⟨hi', ?_⟩
  rw [← hv]
  simp [entry, Nat.mod_eq_of_lt hi']

theorem mem_table_zipIdx {α : Type} (t : Table α) (x : Sym) : (entry t x, x.toNat) ∈ t.toList.zipIdx := by
  rw [List.mem_zipIdx_iff_getElem?]
  exact toList_table_getElem? t x

/-! ### Symbols and codes -/

theorem mem_validSyms {code : Table CodeEntry} {x : Sym} : x ∈ validSyms code ↔ (entry code x).valid = true := by
  simp only [validSyms, List.mem_filterMap, Prod.exists]
  constructor
  · rintro ⟨e, i, hmem, hx⟩
    rw [List.mem_zipIdx_iff_getElem?] at hmem
    obtain ⟨-, he⟩ := toList_table_getElem?_ofNat code hmem
    split at hx
    · simp only [Option.some.injEq] at hx
      subst hx
      rw [he]
      assumption
    · simp at hx
  · intro h
    exact ⟨_, _, mem_table_zipIdx code x, by simp [h]⟩

theorem validSyms_eq_nil {code : Table CodeEntry} : validSyms code = [] ↔ ∀ x, (entry code x).valid = false := by
  rw [List.eq_nil_iff_forall_not_mem]
  simp [mem_validSyms]

theorem mem_validCodes {code : Table CodeEntry} {c : Bits} :
    c ∈ validCodes code ↔ ∃ x, (entry code x).valid = true ∧ (entry code x).bits = c := by
  simp only [validCodes, List.mem_map, List.mem_filter, mem_table_iff]
  constructor
  · rintro ⟨e, ⟨⟨x, rfl⟩, hv⟩, hc⟩
    exact ⟨x, hv, hc⟩
  · rintro ⟨x, hv, hc⟩
    exact ⟨_, ⟨⟨x, rfl⟩, hv⟩, hc⟩

theorem isCode_iff_mem {code : Table CodeEntry} {c : Bits} : isCode code c ↔ c ∈ validCodes code :=
  mem_validCodes.symm

theorem mem_mapSyms {freq : Table Word} {x : Sym} : x ∈ mapSyms freq ↔ entry freq x ≠ 0 := by
  simp only [mapSyms, List.mem_filter, List.mem_map, List.mem_range, decide_eq_true_eq, and_iff_right_iff_imp]
  exact fun _ => ⟨x.toNat, x.isLt, by simp⟩

/-! ### The longest code -/

theorem longest_fold_ge (es : List CodeEntry) :
    ∀ e ∈ es, e.valid = true →
      e.bits.length ≤ es.foldr (fun e m => if e.valid then max e.bits.length m else m) 0 := by
  induction es with
  | nil => simp
  | cons d es ih =>
    intro e he hv
    rcases List.mem_cons.mp he with rfl | he
    · simp [hv]
    · have := ih e he hv
      simp only [List.foldr_cons]
      split
      · exact le_trans this (le_max_right _ _)
      · exact this

theorem longest_fold_mem (es : List CodeEntry) :
    (∃ e ∈ es, e.valid = true ∧ e.bits.length = es.foldr (fun e m => if e.valid then max e.bits.length m else m) 0) ∨
    (es.foldr (fun e m => if e.valid then max e.bits.length m else m) 0 = 0 ∧ ∀ e ∈ es, e.valid = false) := by
  induction es with
  | nil => simp
  | cons d es ih =>
    simp only [List.foldr_cons]
    rcases hd : d.valid with _ | _
    · simp only [Bool.false_eq_true, if_false, List.mem_cons, forall_eq_or_imp, exists_eq_or_imp, hd]
      simpa using ih
    · simp only [if_true]
      left
      rcases ih with ⟨e, he, hv, hl⟩ | ⟨h0, -⟩
      · by_cases hm : d.bits.length ≤ e.bits.length
        · exact ⟨e, List.mem_cons_of_mem _ he, hv, by rw [← hl, max_eq_right hm]⟩
        · exact ⟨d, List.mem_cons_self, hd, by rw [← hl, max_eq_left (by omega)]⟩
      · exact ⟨d, List.mem_cons_self, hd, by rw [h0, Nat.max_zero]⟩

/-- Every valid code is at most as long as the longest. -/
theorem length_le_longest {code : Table CodeEntry} {x : Sym} (h : (entry code x).valid = true) :
    (entry code x).bits.length ≤ longest code :=
  longest_fold_ge code.toList _ ((mem_table_iff code _).mpr ⟨x, rfl⟩) h

/-- The longest is some valid code's length, or 0 with no valid entry. -/
theorem longest_attained (code : Table CodeEntry) :
    (∃ x, (entry code x).valid = true ∧ (entry code x).bits.length = longest code) ∨
    (longest code = 0 ∧ ∀ x, (entry code x).valid = false) := by
  rcases longest_fold_mem code.toList with ⟨e, he, hv, hl⟩ | ⟨h0, hall⟩
  · obtain ⟨x, rfl⟩ := (mem_table_iff code e).mp he
    exact .inl ⟨x, hv, hl⟩
  · exact .inr ⟨h0, fun x => hall _ ((mem_table_iff code _).mpr ⟨x, rfl⟩)⟩

theorem longest_le {code : Table CodeEntry} {n : Nat} (h : ∀ x, (entry code x).valid = true → (entry code x).bits.length ≤ n) :
    longest code ≤ n := by
  rcases longest_attained code with ⟨x, hv, hl⟩ | ⟨h0, -⟩
  · exact hl ▸ h x hv
  · omega

/-! ### The reverse lookup -/

theorem mem_symsWith {code : Table CodeEntry} {c : Bits} {x : Sym} :
    x ∈ symsWith code c ↔ (entry code x).valid = true ∧ (entry code x).bits = c := by
  simp only [symsWith, List.mem_filterMap, Prod.exists]
  constructor
  · rintro ⟨e, i, hmem, hx⟩
    rw [List.mem_zipIdx_iff_getElem?] at hmem
    obtain ⟨-, he⟩ := toList_table_getElem?_ofNat code hmem
    split at hx
    · simp only [Option.some.injEq] at hx
      subst hx
      rw [he]
      assumption
    · simp at hx
  · intro h
    exact ⟨_, _, mem_table_zipIdx code x, by simp [h]⟩

theorem nodup_symsWith (code : Table CodeEntry) (c : Bits) : (symsWith code c).Nodup := by
  have hidx : (code.toList.zipIdx.map Prod.snd).Nodup := by
    rw [List.zipIdx_map_snd]
    exact List.nodup_range'
  have hp : code.toList.zipIdx.Pairwise fun a b => a.2 ≠ b.2 := List.pairwise_map.mp hidx
  have hlt : ∀ p ∈ code.toList.zipIdx, p.2 < 256 := by
    intro p hp
    have := List.mem_zipIdx_iff_getElem?.mp hp
    exact (toList_table_getElem?_ofNat code this).1
  refine List.Pairwise.filterMap _ (R := fun a b => a.2 ≠ b.2 ∧ a.2 < 256 ∧ b.2 < 256) ?_ ?_
  · rintro a b ⟨hne, ha, hb⟩ x hx y hy
    split at hx <;> simp at hx
    split at hy <;> simp at hy
    rintro rfl
    have h := congrArg BitVec.toNat (hx.trans hy.symm)
    simp only [BitVec.toNat_ofNat] at h
    omega
  · exact hp.imp_of_mem fun ha hb h => ⟨h, hlt _ ha, hlt _ hb⟩

/-- Lookup answers x exactly when x alone is valid with the code. -/
theorem lookup_eq_some {code : Table CodeEntry} {c : Bits} {x : Sym} : lookup code c = some x ↔
    ((entry code x).valid = true ∧ (entry code x).bits = c) ∧
      ∀ y, (entry code y).valid = true → (entry code y).bits = c → y = x := by
  have hmem : ∀ y, y ∈ symsWith code c ↔ (entry code y).valid = true ∧ (entry code y).bits = c := fun y => mem_symsWith
  have hnd := nodup_symsWith code c
  unfold lookup
  split
  · rename_i h
    simp only [h, List.not_mem_nil, false_iff] at hmem
    simp [hmem x]
  · rename_i z h
    simp only [h, List.mem_singleton] at hmem
    simp only [Option.some.injEq]
    constructor
    · rintro rfl
      exact ⟨(hmem _).mp rfl, fun y hv hb => (hmem y).mpr ⟨hv, hb⟩⟩
    · intro hx
      exact ((hmem x).mpr hx.1).symm
  · rename_i a b l h
    rw [h] at hnd hmem
    simp only [reduceCtorEq, false_iff]
    rintro ⟨-, hu⟩
    have ha := (hmem a).mp (by simp)
    have hb := (hmem b).mp (by simp)
    have : a = b := (hu a ha.1 ha.2).trans (hu b hb.1 hb.2).symm
    simp [this] at hnd

/-- What lookup answers is valid and has the code. -/
theorem lookup_some {code : Table CodeEntry} {c : Bits} {x : Sym} (h : lookup code c = some x) :
    (entry code x).valid = true ∧ (entry code x).bits = c :=
  (lookup_eq_some.mp h).1

/-- Where no two valid symbols have equal codes, lookup answers NONE exactly when no valid entry has the code. -/
theorem lookup_none {code : Table CodeEntry} {c : Bits}
    (hu : ∀ x y, (entry code x).valid = true → (entry code y).valid = true → (entry code x).bits = (entry code y).bits → x = y) :
    lookup code c = none ↔ ¬ isCode code c := by
  rw [Option.eq_none_iff_forall_ne_some]
  constructor
  · rintro h ⟨x, hv, hc⟩
    exact h x (lookup_eq_some.mpr ⟨⟨hv, hc⟩, fun y hy hyc => hu y x hy hv (hyc.trans hc.symm)⟩)
  · intro h x hx
    exact h ⟨x, lookup_some hx⟩

/-! ### Codes written in order -/

/-- A symbol that is not written keeps its entry. -/
theorem entry_writeCodes_of_notMem {code : Table CodeEntry} {cs : List (Sym × Bits)} {x : Sym}
    (h : ∀ c ∈ cs, c.1 ≠ x) : entry (writeCodes code cs) x = entry code x := by
  induction cs generalizing code with
  | nil => rfl
  | cons c cs ih =>
    have hc := h c List.mem_cons_self
    have := ih (code := setEntry code c.1 ⟨true, c.2⟩) fun d hd => h d (List.mem_cons_of_mem _ hd)
    rw [writeCodes, List.foldl_cons]
    rw [writeCodes] at this
    rw [this, entry_setEntry_of_ne _ _ (Ne.symm hc)]

/-- A symbol written once gets its code. -/
theorem entry_writeCodes_of_mem {code : Table CodeEntry} {cs : List (Sym × Bits)} {x : Sym} {b : Bits}
    (hmem : (x, b) ∈ cs) (hnodup : (cs.map Prod.fst).Nodup) : entry (writeCodes code cs) x = ⟨true, b⟩ := by
  induction cs generalizing code with
  | nil => simp at hmem
  | cons c cs ih =>
    rw [List.map_cons, List.nodup_cons] at hnodup
    rw [writeCodes, List.foldl_cons]
    rcases List.mem_cons.mp hmem with rfl | hmem
    · have : ∀ d ∈ cs, d.1 ≠ x := fun d hd e => hnodup.1 (List.mem_map.mpr ⟨d, hd, e⟩)
      have := entry_writeCodes_of_notMem (code := setEntry code x ⟨true, b⟩) this
      rw [writeCodes] at this
      rw [this, entry_setEntry_self]
    · exact ih hmem hnodup.2

end Sys2Proof.Machine
end

