-- ==== Sys2Proof/Laws/Tree.lean ====
section
/-! SUPPORT. The Tree Builder's operations (42_tree_codes.md R110 to R114): which node extractMin takes, what one merge does, how many
nodes the merge loop leaves, and the leaves. -/

namespace Sys2Proof.Machine

/-! ### The queue -/

theorem minLive_none {pool : List Node} : minLive pool = none ↔ ∀ nd ∈ pool, nd.live = false := by
  induction pool with
  | nil => simp [minLive]
  | cons nd rest ih =>
    unfold minLive
    rcases hm : minLive rest with _ | ⟨j, w⟩
    · simp only [List.mem_cons, forall_eq_or_imp]
      cases nd.live <;> simp
      exact ih.mp hm
    · have : minLive rest ≠ none := by simp [hm]
      have : ¬ ∀ x ∈ rest, x.live = false := fun h => this (ih.mpr h)
      simp only [List.mem_cons, forall_eq_or_imp, this, and_false, iff_false]
      split <;> simp

/-- What `minLive` answers is in the queue and comes before every other node of the queue in the order of (W, index) (R112). -/
theorem minLive_some {pool : List Node} {i : Nat} {w : Weight} (h : minLive pool = some (i, w)) :
    ∃ nd, pool[i]? = some nd ∧ nd.live = true ∧ nd.w = w ∧
      ∀ (j : Nat) (nd' : Node), pool[j]? = some nd' → nd'.live = true → j ≠ i →
        w.toNat < nd'.w.toNat ∨ (w.toNat = nd'.w.toNat ∧ i < j) := by
  induction pool generalizing i w with
  | nil => simp [minLive] at h
  | cons nd rest ih =>
    unfold minLive at h
    rcases hm : minLive rest with _ | ⟨k, wk⟩
    · rw [hm] at h
      simp only at h
      have hdead := minLive_none.mp hm
      split at h
      · simp only [Option.some.injEq, Prod.mk.injEq] at h
        obtain ⟨rfl, rfl⟩ := h
        refine ⟨nd, rfl, ‹_›, rfl, ?_⟩
        intro j nd' hj hlive hne
        obtain ⟨j, rfl⟩ := Nat.exists_eq_succ_of_ne_zero hne
        have := hdead nd' (List.mem_of_getElem? hj)
        simp [hlive] at this
      · simp at h
    · rw [hm] at h
      simp only at h
      obtain ⟨ndk, hk, hlk, hwk, hmin⟩ := ih hm
      split at h
      · rename_i hc
        simp only [Option.some.injEq, Prod.mk.injEq] at h
        obtain ⟨rfl, rfl⟩ := h
        refine ⟨nd, rfl, hc.1, rfl, ?_⟩
        intro j nd' hj hlive hne
        obtain ⟨j, rfl⟩ := Nat.exists_eq_succ_of_ne_zero hne
        rw [Nat.succ_eq_add_one, List.getElem?_cons_succ] at hj
        have hle : wk.toNat ≤ nd'.w.toNat := by
          by_cases hjk : j = k
          · subst hjk
            rw [hk] at hj
            cases hj
            rw [hwk]
          · rcases hmin j nd' hj hlive hjk with h | ⟨h, -⟩ <;> omega
        have := BitVec.le_def.mp hc.2
        omega
      · rename_i hc
        simp only [Option.some.injEq, Prod.mk.injEq] at h
        obtain ⟨rfl, rfl⟩ := h
        refine ⟨ndk, by simpa using hk, hlk, hwk, ?_⟩
        intro j nd' hj hlive hne
        rcases j with _ | j
        · simp only [List.getElem?_cons_zero, Option.some.injEq] at hj
          subst hj
          left
          have : ¬ nd.w ≤ wk := fun hle => hc ⟨hlive, hle⟩
          rw [BitVec.le_def] at this
          omega
        · rw [List.getElem?_cons_succ] at hj
          rcases hmin j nd' hj hlive (by omega) with h | ⟨h, hlt⟩
          · exact .inl h
          · exact .inr ⟨h, by omega⟩

/-- extractMin takes the first node of the queue out of it and changes nothing else (R110). -/
theorem extractMin_some {pool pool' : List Node} {i : Nat} {w : Weight} (h : extractMin pool = some (i, w, pool')) :
    minLive pool = some (i, w) ∧ pool' = pool.modify i fun nd => { nd with live := false } := by
  unfold extractMin at h
  split at h
  · simp at h
  · rename_i a wa hm
    simp only [Option.some.injEq, Prod.mk.injEq] at h
    obtain ⟨rfl, rfl, rfl⟩ := h
    exact ⟨hm, rfl⟩

theorem extractMin_none {pool : List Node} : extractMin pool = none ↔ liveCount pool = 0 := by
  unfold extractMin liveCount
  rw [List.countP_eq_zero]
  split
  · rename_i h
    simpa using minLive_none.mp h
  · rename_i i w h
    have : ¬ ∀ nd ∈ pool, nd.live = false := fun hall => by simp [minLive_none.mpr hall] at h
    simpa using this

theorem liveCount_modify {pool : List Node} {i : Nat} {nd : Node} (h : pool[i]? = some nd) (hl : nd.live = true) :
    liveCount (pool.modify i fun nd => { nd with live := false }) + 1 = liveCount pool := by
  induction pool generalizing i with
  | nil => simp at h
  | cons d pool ih =>
    rcases i with _ | i
    · simp only [List.getElem?_cons_zero, Option.some.injEq] at h
      subst h
      simp [liveCount, hl]
    · rw [List.getElem?_cons_succ] at h
      have := ih h
      simp only [liveCount] at this ⊢
      rw [List.modify_succ_cons, List.countP_cons, List.countP_cons]
      omega

/-- Taking the first node out of the queue leaves one fewer in it. -/
theorem extractMin_liveCount {pool pool' : List Node} {i : Nat} {w : Weight} (h : extractMin pool = some (i, w, pool')) :
    liveCount pool' + 1 = liveCount pool := by
  obtain ⟨hm, rfl⟩ := extractMin_some h
  obtain ⟨nd, hi, hl, -, -⟩ := minLive_some hm
  exact liveCount_modify hi hl

/-! ### One merge -/

/-- One merge (R113): two extractions, then the internal node at the next free index. -/
theorem mergeStep_some {pool q : List Node} (h : mergeStep pool = some q) :
    ∃ a b wa wb p₁ p₂, extractMin pool = some (a, wa, p₁) ∧ extractMin p₁ = some (b, wb, p₂) ∧
      q = p₂ ++ [internalNode a b (wa + wb)] := by
  unfold mergeStep at h
  split at h
  · simp at h
  · rename_i a wa p₁ h₁
    split at h
    · simp at h
    · rename_i b wb p₂ h₂
      simp only [Option.some.injEq] at h
      exact ⟨a, b, wa, wb, p₁, p₂, h₁, h₂, h.symm⟩

theorem extractMin_length {pool pool' : List Node} {i : Nat} {w : Weight} (h : extractMin pool = some (i, w, pool')) :
    pool'.length = pool.length := by
  obtain ⟨-, rfl⟩ := extractMin_some h
  simp

/-- A merge adds one node and leaves one fewer in the queue. -/
theorem mergeStep_counts {pool q : List Node} (h : mergeStep pool = some q) :
    q.length = pool.length + 1 ∧ liveCount q + 1 = liveCount pool := by
  obtain ⟨a, b, wa, wb, p₁, p₂, h₁, h₂, rfl⟩ := mergeStep_some h
  have := extractMin_length h₁
  have := extractMin_length h₂
  have := extractMin_liveCount h₁
  have := extractMin_liveCount h₂
  refine ⟨by simp; omega, ?_⟩
  simp only [liveCount, List.countP_append] at *
  simp [internalNode]
  omega

/-- A merge happens exactly when two nodes are in the queue. -/
theorem mergeStep_isSome {pool : List Node} (h : 1 < liveCount pool) : ∃ q, mergeStep pool = some q := by
  unfold mergeStep
  split
  · rename_i h₁
    have := extractMin_none.mp h₁
    omega
  · rename_i a wa p₁ h₁
    have := extractMin_liveCount h₁
    split
    · rename_i h₂
      have := extractMin_none.mp h₂
      omega
    · exact ⟨_, rfl⟩

/-! ### The loop -/

/-- The merge loop, with fuel for every merge, ends with one node in the queue; each merge added one node (R114). -/
theorem mergeAll_counts {fuel : Nat} {pool : List Node} (h1 : 1 ≤ liveCount pool) (hf : liveCount pool ≤ fuel + 1) :
    liveCount (mergeAll fuel pool) = 1 ∧ (mergeAll fuel pool).length + 1 = pool.length + liveCount pool := by
  induction fuel generalizing pool with
  | zero =>
    simp only [mergeAll]
    omega
  | succ fuel ih =>
    unfold mergeAll
    split
    · rename_i hlt
      obtain ⟨q, hq⟩ := mergeStep_isSome hlt
      obtain ⟨hlen, hlive⟩ := mergeStep_counts hq
      rw [hq]
      have := ih (pool := q) (by omega) (by omega)
      exact ⟨this.1, by simp only; omega⟩
    · omega

/-- An invariant of merging that holds of the pool holds of what the loop leaves. -/
theorem mergeAll_induction {P : List Node → Prop} (hstep : ∀ p q, P p → mergeStep p = some q → P q) (fuel : Nat)
    {pool : List Node} (h : P pool) : P (mergeAll fuel pool) := by
  induction fuel generalizing pool with
  | zero => exact h
  | succ fuel ih =>
    unfold mergeAll
    split
    · rcases hq : mergeStep pool with _ | q
      · exact h
      · exact ih (hstep _ _ h hq)
    · exact h

/-! ### Leaves -/

theorem table_zipIdx_eq {α : Type} (t : Table α) :
    t.toList.zipIdx = (List.range 256).map fun i => (entry t (BitVec.ofNat 8 i), i) := by
  apply List.ext_getElem
  · simp
  · intro i h₁ h₂
    have hi : i < 256 := by simpa using h₁
    simp [entry, Nat.mod_eq_of_lt hi]

/-- The leaves are the counted symbols in ascending order, each with its count (R111). -/
theorem leaves_eq (freq : Table Word) : leaves freq = (mapSyms freq).map fun x => leafNode x (entry freq x) := by
  have key : ∀ l : List Nat,
      ((l.map fun i => (entry freq (BitVec.ofNat 8 i), i)).filterMap fun p =>
        if p.1 = 0 then none else some (leafNode (BitVec.ofNat 8 p.2) p.1)) =
      ((l.map (BitVec.ofNat 8)).filter fun x => entry freq x ≠ 0).map fun x => leafNode x (entry freq x) := by
    intro l
    induction l with
    | nil => rfl
    | cons i l ih =>
      rw [List.map_cons, List.map_cons, List.filterMap_cons, List.filter_cons, ih]
      by_cases h : entry freq (BitVec.ofNat 8 i) = 0#32 <;> simp [h]
  rw [leaves, table_zipIdx_eq, key, mapSyms]

theorem mapSyms_length_le (freq : Table Word) : (mapSyms freq).length ≤ 256 := by
  refine le_trans (List.length_filter_le _ _) ?_
  simp

theorem leaves_liveCount (freq : Table Word) : liveCount (leaves freq) = (leaves freq).length := by
  rw [leaves_eq, liveCount, List.countP_eq_length]
  intro nd h
  obtain ⟨x, -, rfl⟩ := List.mem_map.mp h
  rfl

/-- With n ≥ 1 counted symbols the built pool has 2n - 1 nodes, one of them in the queue; with none it is empty (R114, R116). -/
theorem buildPool_counts (freq : Table Word) :
    (mapSyms freq = [] → buildPool freq = []) ∧
    (mapSyms freq ≠ [] → (buildPool freq).length + 1 = 2 * (mapSyms freq).length ∧ liveCount (buildPool freq) = 1) := by
  have hlen : (leaves freq).length = (mapSyms freq).length := by simp [leaves_eq]
  have hle := mapSyms_length_le freq
  constructor
  · intro h
    have h0 : leaves freq = [] := by simp [leaves_eq, h]
    simp [buildPool, h0, mergeAll, liveCount]
  · intro h
    have hpos := List.length_pos_iff.mpr h
    have hl := leaves_liveCount freq
    obtain ⟨h1, h2⟩ := mergeAll_counts (fuel := 255) (pool := leaves freq) (by omega) (by omega)
    exact ⟨by rw [buildPool]; omega, h1⟩

end Sys2Proof.Machine
end

