-- ==== Sys2Proof/Laws/Paths.lean ====
section
/-! SUPPORT. Paths and leaf codes (42_tree_codes.md R118): the equations of `pathTo`, its length, and what `leafCodes` lists. -/

namespace Sys2Proof.Machine

/-- `path(ROOT) = []`. -/
theorem pathTo_root (pool : List Node) (root fuel : Nat) : pathTo pool root fuel root = some [] := by
  cases fuel <;> simp [pathTo]

/-- A node's parent is internal, has the node as a child, and stands at its own index. -/
theorem parentOf_some {pool : List Node} {i v : Nat} {nd : Node} (h : parentOf pool i = some (nd, v)) :
    pool[v]? = some nd ∧ nd.kind = .internal ∧ (nd.l.val = i ∨ nd.r.val = i) := by
  have hmem := List.mem_of_find?_eq_some h
  have hp := List.find?_some h
  rw [List.mem_zipIdx_iff_getElem?] at hmem
  simp only [isParent, decide_eq_true_eq] at hp
  exact ⟨hmem, hp.1, hp.2⟩

theorem parentOf_none {pool : List Node} {i : Nat} (h : parentOf pool i = none) :
    ∀ (v : Nat) (nd : Node), pool[v]? = some nd → nd.kind = .internal → nd.l.val ≠ i ∧ nd.r.val ≠ i := by
  intro v nd hv hk
  rw [parentOf, List.find?_eq_none] at h
  have := h (nd, v) (List.mem_zipIdx_iff_getElem?.mpr hv)
  simp only [isParent, decide_eq_true_eq, not_and, not_or] at this
  exact this hk

/-- A path is its parent's path with one bit behind it. -/
theorem pathTo_succ {pool : List Node} {root fuel i : Nat} {p : Bits} (hne : i ≠ root)
    (h : pathTo pool root (fuel + 1) i = some p) :
    ∃ nd v q, parentOf pool i = some (nd, v) ∧ pathTo pool root fuel v = some q ∧ p = q ++ [decide (nd.l.val ≠ i)] := by
  simp only [pathTo, hne, if_false] at h
  split at h
  · simp at h
  · rename_i nd v hp
    split at h
    · simp at h
    · rename_i q hq
      simp only [Option.some.injEq] at h
      exact ⟨nd, v, q, hp, hq, h.symm⟩

/-- A path is at most as long as the fuel. -/
theorem pathTo_length_le {pool : List Node} {root fuel i : Nat} {p : Bits} (h : pathTo pool root fuel i = some p) :
    p.length ≤ fuel := by
  induction fuel generalizing i p with
  | zero =>
    simp only [pathTo] at h
    split at h
    · simp only [Option.some.injEq] at h
      simp [← h]
    · simp at h
  | succ fuel ih =>
    by_cases hne : i = root
    · subst hne
      rw [pathTo_root] at h
      simp only [Option.some.injEq] at h
      simp [← h]
    · obtain ⟨nd, v, q, -, hq, rfl⟩ := pathTo_succ hne h
      have := ih hq
      simp
      omega

/-- More fuel does not change a path. -/
theorem pathTo_mono {pool : List Node} {root fuel i : Nat} {p : Bits} (h : pathTo pool root fuel i = some p) :
    pathTo pool root (fuel + 1) i = some p := by
  induction fuel generalizing i p with
  | zero =>
    simp only [pathTo] at h
    split at h
    · rename_i he
      subst he
      simpa [pathTo] using h
    · simp at h
  | succ fuel ih =>
    by_cases hne : i = root
    · subst hne
      rw [pathTo_root] at h ⊢
      exact h
    · obtain ⟨nd, v, q, hp, hq, rfl⟩ := pathTo_succ hne h
      rw [pathTo]
      simp [hne, hp, ih hq]

/-- Every leaf code fits MAXLEN (00_scope.md R8), in every state. -/
theorem leafCode_length_le (pool : List Node) (root i : Nat) : (leafCode pool root i).length ≤ 255 := by
  unfold leafCode
  rcases h : pathTo pool root Config.maxLen i with _ | p
  · simp [List.length_take, Config.maxLen]
  · simpa [Config.maxLen] using pathTo_length_le h

/-- `leafCodes` lists exactly the leaves with their codes. -/
theorem mem_leafCodes {pool : List Node} {root : Nat} {x : Sym} {b : Bits} :
    (x, b) ∈ leafCodes pool root ↔
      ∃ i nd, pool[i]? = some nd ∧ nd.kind = .leaf ∧ nd.sym = x ∧ leafCode pool root i = b := by
  simp only [leafCodes, List.mem_filterMap, Prod.exists, List.mem_zipIdx_iff_getElem?]
  constructor
  · rintro ⟨nd, i, hi, h⟩
    split at h
    · rename_i hk
      simp only [Option.some.injEq, Prod.mk.injEq] at h
      exact ⟨i, nd, hi, hk, h.1, h.2⟩
    · simp at h
  · rintro ⟨i, nd, hi, hk, rfl, rfl⟩
    exact ⟨nd, i, hi, by simp [hk]⟩

/-- The symbols `leafCodes` writes are those of the leaves, in index order. -/
theorem leafCodes_syms (pool : List Node) (root : Nat) : (leafCodes pool root).map Prod.fst = leafSyms pool := by
  have key : ∀ (l : List Node) (k : Nat),
      ((l.zipIdx k).filterMap fun p => if p.1.kind = .leaf then some (p.1.sym, leafCode pool root p.2) else none).map Prod.fst =
      l.filterMap fun nd => if nd.kind = .leaf then some nd.sym else none := by
    intro l
    induction l with
    | nil => intro k; rfl
    | cons nd l ih =>
      intro k
      rw [List.zipIdx_cons, List.filterMap_cons, List.filterMap_cons]
      by_cases h : nd.kind = .leaf <;> simp [h, ih]
  exact key pool 0

end Sys2Proof.Machine
end

