-- ==== Sys2Proof/Laws/PerInstr.lean ====
section
/-! SUPPORT. EncodeOpcode: bits 31:24 of a command's word are its opcode (30_encoding.md R70), instruction by instruction, so that the
ERR token of a command (60_exceptions.md R163) names its word's opcode. -/

namespace Sys2Proof.Laws

/-- `cmd[31:24]` of the encoding is the command's opcode. -/
def EncodeOpcode.Statement (i : Instr) : Prop := wordOpcode (encode i) = i.opcode

theorem wordOpcode_encodeN (op : Byte) : wordOpcode (encodeN op) = op := by
  ext i hi
  have h1 : 24 + i < 32 := by omega
  simp [wordOpcode, encodeN, h1, BitVec.getLsbD_eq_getElem hi]

/-- Bits or-ed in below bit 24 leave the opcode alone. -/
theorem wordOpcode_or {w v : Word} (h : v.toNat < 2 ^ 24) : wordOpcode (w ||| v) = wordOpcode w := by
  ext i hi
  have : v.getLsbD (24 + i) = false := by
    rw [BitVec.getLsbD, Nat.testBit_lt_two_pow]
    exact Nat.lt_of_lt_of_le h (Nat.pow_le_pow_right (by omega) (by omega))
  simp [wordOpcode, this]

theorem wordOpcode_encodeS (op x : Byte) : wordOpcode (encodeS op x) = op := by
  rw [encodeS, wordOpcode_or (by simp; omega), wordOpcode_encodeN]

theorem wordOpcode_encodeI (op : Byte) (v : Half) : wordOpcode (encodeI op v) = op := by
  rw [encodeI, wordOpcode_or (by simp; omega), wordOpcode_encodeN]

theorem wordOpcode_encodeA (op : Byte) (bits : Bits) : wordOpcode (encodeA op bits) = op := by
  rw [encodeA, wordOpcode_or (by simp; omega), wordOpcode_or, wordOpcode_encodeN]
  have := (BitVec.ofNat 4 (bits.length - 1)).isLt
  simp only [BitVec.toNat_shiftLeft, BitVec.toNat_setWidth, Nat.shiftLeft_eq]
  omega

theorem wordOpcode_encodeM (op : Byte) (l : Bool) : wordOpcode (encodeM op l) = op := by
  rw [encodeM, wordOpcode_or (by cases l <;> simp), wordOpcode_encodeN]

namespace EncodeOpcode

theorem nop : Statement .nop := wordOpcode_encodeN _
theorem clear : Statement .clear := wordOpcode_encodeN _
theorem statusRead : Statement .statusRead := wordOpcode_encodeN _
theorem argLo (imm16 : Half) : Statement (.argLo imm16) := wordOpcode_encodeI _ _
theorem argHi (imm16 : Half) : Statement (.argHi imm16) := wordOpcode_encodeI _ _
theorem freqAdd (sym : Sym) : Statement (.freqAdd sym) := wordOpcode_encodeS _ _
theorem freqSet (sym : Sym) : Statement (.freqSet sym) := wordOpcode_encodeS _ _
theorem freqRead (sym : Sym) : Statement (.freqRead sym) := wordOpcode_encodeS _ _
theorem buildTree : Statement .buildTree := wordOpcode_encodeN _
theorem genCodes : Statement .genCodes := wordOpcode_encodeN _
theorem codeRead (sym : Sym) : Statement (.codeRead sym) := wordOpcode_encodeS _ _
theorem encSym (sym : Sym) : Statement (.encSym sym) := wordOpcode_encodeS _ _
theorem encFlush : Statement .encFlush := wordOpcode_encodeN _
theorem tblBegin (sym : Sym) : Statement (.tblBegin sym) := wordOpcode_encodeS _ _
theorem tblAppend (bits : Bits) : Statement (.tblAppend bits) := wordOpcode_encodeA _ _
theorem tblInvert : Statement .tblInvert := wordOpcode_encodeN _
theorem decStart (legacy : Bool) : Statement (.decStart legacy) := wordOpcode_encodeM _ _
theorem decByte (byte : Byte) : Statement (.decByte byte) := wordOpcode_encodeS _ _
theorem decEnd : Statement .decEnd := wordOpcode_encodeN _

end EncodeOpcode

end Sys2Proof.Laws
end

