-- ==== Sys2Proof/Laws/Unpacker.lean ====
section
/-! SUPPORT. The unpacker's loop (44_unpacker.md R145): what one bit can do, and the loop over bits one behind the other. -/

namespace Sys2Proof.Machine

/-- Everything one bit can do when it raises nothing: a pad bit, a completed symbol, or one more accumulated bit. -/
theorem scanBit_ok {s : State} {pos : Nat} {bit : Bool} {a a' : Scan} (h : scanBit s pos bit a = .ok a') :
    (s.legacy = false ∧ s.bitlen.toNat ≤ pos ∧ bit = false ∧ a' = a) ∨
    (¬ (s.legacy = false ∧ s.bitlen.toNat ≤ pos) ∧ ∃ x, lookup s.code (a.dacc ++ [bit]) = some x ∧
      a.dsyms.toNat ≠ Config.maxCount ∧ a' = ⟨[], a.dsyms + 1, a.out ++ [.sym x]⟩) ∨
    (¬ (s.legacy = false ∧ s.bitlen.toNat ≤ pos) ∧ lookup s.code (a.dacc ++ [bit]) = none ∧
      a.dacc.length + 1 < s.lmax.toNat ∧ a' = { a with dacc := a.dacc ++ [bit] }) := by
  unfold scanBit at h
  split at h
  · rename_i hp
    split at h
    · simp at h
    · simp only [Except.ok.injEq] at h
      exact .inl ⟨hp.1, hp.2, by simpa using ‹¬ bit = true›, h.symm⟩
  · rename_i hp
    split at h
    · rename_i x hx
      split at h
      · simp at h
      · simp only [Except.ok.injEq] at h
        exact .inr (.inl ⟨hp, x, hx, ‹_›, h.symm⟩)
    · rename_i hx
      split at h
      · simp at h
      · simp only [Except.ok.injEq] at h
        exact .inr (.inr ⟨hp, hx, by omega, h.symm⟩)

/-- Why one bit raises, and that the tokens emitted before it are kept (60_exceptions.md R162, R165). -/
theorem scanBit_error {s : State} {pos : Nat} {bit : Bool} {a : Scan} {r : Raise} (h : scanBit s pos bit a = .error r) :
    r.emitted = a.out ∧
    ((r.code = .decoding ∧ s.legacy = false ∧ s.bitlen.toNat ≤ pos ∧ bit = true) ∨
     (r.code = .overflow ∧ ∃ x, lookup s.code (a.dacc ++ [bit]) = some x ∧ a.dsyms.toNat = Config.maxCount) ∨
     (r.code = .decoding ∧ lookup s.code (a.dacc ++ [bit]) = none ∧ s.lmax.toNat ≤ a.dacc.length + 1)) := by
  unfold scanBit at h
  split at h
  · rename_i hp
    split at h
    · simp only [Except.error.injEq] at h
      subst h
      exact ⟨rfl, .inl ⟨rfl, hp.1, hp.2, by simpa using ‹bit = true›⟩⟩
    · simp at h
  · split at h
    · rename_i x hx
      split at h
      · simp only [Except.error.injEq] at h
        subst h
        exact ⟨rfl, .inr (.inl ⟨rfl, x, hx, ‹_›⟩)⟩
      · simp at h
    · rename_i hx
      split at h
      · simp only [Except.error.injEq] at h
        subst h
        exact ⟨rfl, .inr (.inr ⟨rfl, hx, ‹_›⟩)⟩
      · simp at h

/-- The loop over two runs of bits is the loop over the first and then over the second. -/
theorem scanBits_append (s : State) (pos : Nat) (x y : Bits) (a : Scan) :
    scanBits s pos (x ++ y) a =
      match scanBits s pos x a with
      | .ok b => scanBits s (pos + x.length) y b
      | .error r => .error r := by
  induction x generalizing pos a with
  | nil => simp [scanBits]
  | cons b x ih =>
    simp only [List.cons_append, scanBits]
    split
    · rename_i h
      simp
    · rename_i a' h
      rw [ih, List.length_cons, Nat.add_assoc, Nat.add_comm 1]

/-- A property every bit keeps holds of what the loop leaves. -/
theorem scanBits_induction {P : Scan → Prop} {s : State}
    (hstep : ∀ pos bit a a', P a → scanBit s pos bit a = .ok a' → P a') {pos : Nat} {x : Bits} {a a' : Scan}
    (h : P a) (hx : scanBits s pos x a = .ok a') : P a' := by
  induction x generalizing pos a with
  | nil =>
    simp only [scanBits, Except.ok.injEq] at hx
    exact hx ▸ h
  | cons b x ih =>
    simp only [scanBits] at hx
    split at hx
    · simp at hx
    · exact ih (hstep _ _ _ _ h ‹_›) hx

/-- What DEC_BYTE past the phase check does when it raises nothing. -/
theorem decByte_ok {b : Byte} {s t : State} (h : decByte b s = .ok t) :
    ∃ a, scanBits s (8 * s.dbytes.toNat) (byteBits b) ⟨s.dacc, s.dsyms, []⟩ = .ok a ∧
      ¬ (s.legacy = false ∧ ceil8 s.bitlen.toNat ≤ s.dbytes.toNat) ∧ s.dbytes.toNat ≠ Config.maxCount ∧
      t = { s with dacc := a.dacc, dsyms := a.dsyms, dbytes := s.dbytes + 1, resp := s.resp ++ a.out } := by
  unfold decByte at h
  split at h
  · simp at h
  · split at h
    · simp at h
    · split at h
      · simp at h
      · rename_i a ha
        simp only [Except.ok.injEq] at h
        exact ⟨a, ha, ‹_›, ‹_›, h.symm⟩

end Sys2Proof.Machine
end

