-- ==== Sys2Proof/Machine/Assembler.lean ====
section
/-! DEFINITION. The assembly syntax of 30_encoding.md R78 with the pseudo-instructions of R79, one line at a time, on lists of
characters. White space and letter case are the model's choice where R78 is silent (log 13). -/

namespace Sys2Proof.Machine

/-- Why a line is refused. An operand out of range is refused, never truncated (R78). -/
inductive AsmError where
  | openQuote
  | unknownMnemonic
  | badOperands
  | outOfRange
  deriving DecidableEq, Repr

/-- A lexical piece of a line. -/
inductive AsmToken where
  | word (cs : List Char)
  | chr (c : Char)
  | str (cs : List Char)
  | comma
  deriving DecidableEq, Repr

def quoteChar : Char := Char.ofNat 39
def quoteString : Char := Char.ofNat 34

/-- The word read so far, if there is one. -/
def flushWord (cur : List Char) : List AsmToken := if cur = [] then [] else [.word cur]

/-- The pieces of a line: `inStr` while inside a quoted string, `cur` the characters of the piece being read. A `;` outside
quotes starts a comment. -/
def lexLine : (inStr : Bool) → (cur : List Char) → List Char → Option (List AsmToken)
  | true, _, [] => none
  | true, cur, c :: r =>
    if c = quoteString then (lexLine false [] r).map (.str cur :: ·) else lexLine true (cur ++ [c]) r
  | false, cur, [] => some (flushWord cur)
  | false, cur, c :: r =>
    if c = ';' then some (flushWord cur)
    else if c = ' ' ∨ c = '\t' then (lexLine false [] r).map (flushWord cur ++ ·)
    else if c = ',' then (lexLine false [] r).map (flushWord cur ++ .comma :: ·)
    else if c = quoteString then (lexLine true [] r).map (flushWord cur ++ ·)
    else if c = quoteChar then
      match r with
      | d :: e :: r' => if e = quoteChar then (lexLine false [] r').map (flushWord cur ++ .chr d :: ·) else none
      | _ => none
    else lexLine false (cur ++ [c]) r

/-- The value of a digit in base 10 or 16. -/
def digitValue (base : Nat) (c : Char) : Option Nat :=
  let v := if '0' ≤ c ∧ c ≤ '9' then c.toNat - 48
    else if 'a' ≤ c ∧ c ≤ 'f' then c.toNat - 87
    else if 'A' ≤ c ∧ c ≤ 'F' then c.toNat - 55
    else base
  if v < base then some v else none

/-- The value of a string of digits, none if it is empty or holds another character. -/
def digitsValue (base : Nat) (cs : List Char) : Option Nat :=
  if cs = [] then none
  else cs.foldl (fun acc c => acc.bind fun a => (digitValue base c).map (base * a + ·)) (some 0)

/-- A number: 0x and hexadecimal digits, or decimal digits (R78). -/
def numberValue : List Char → Option Nat
  | '0' :: 'x' :: cs => digitsValue 16 cs
  | cs => digitsValue 10 cs

/-- A number operand that fits in w bits (R78). -/
def numberOperand (w : Nat) : AsmToken → Except AsmError (BitVec w)
  | .word cs =>
    match numberValue cs with
    | some n => if n < 2 ^ w then .ok (BitVec.ofNat w n) else .error .outOfRange
    | none => .error .badOperands
  | _ => .error .badOperands

/-- A character whose value is below 256 (R78). -/
def charSym (c : Char) : Except AsmError Sym :=
  if c.toNat < 256 then .ok (BitVec.ofNat 8 c.toNat) else .error .outOfRange

/-- A sym or byte operand: a number or a quoted character (R78). -/
def symOperand : AsmToken → Except AsmError Sym
  | .chr c => charSym c
  | t => numberOperand 8 t

/-- The characters of a text as symbols (R79). -/
def textOperand : AsmToken → Except AsmError (List Sym)
  | .str cs => cs.mapM charSym
  | _ => .error .badOperands

/-- A quoted string of at least 1 and at most `most` characters 0 and 1 (R78). -/
def bitsOperand (most : Nat) : AsmToken → Except AsmError Bits
  | .str cs =>
    if cs.all fun c => c = '0' || c = '1' then
      if 1 ≤ cs.length ∧ cs.length ≤ most then .ok (cs.map fun c => decide (c = '1')) else .error .outOfRange
    else .error .badOperands
  | _ => .error .badOperands

/-- LENGTH is 0 and LEGACY is 1 (R78). -/
def modeOperand : AsmToken → Except AsmError Bool
  | .word ['L', 'E', 'N', 'G', 'T', 'H'] => .ok false
  | .word ['L', 'E', 'G', 'A', 'C', 'Y'] => .ok true
  | _ => .error .badOperands

/-- The operands of a list b0, b1, … (R79, DEC_BYTES). -/
def byteList : List AsmToken → Except AsmError (List Byte)
  | [] => .error .badOperands
  | [t] => (symOperand t).map ([·])
  | t :: .comma :: ts => (symOperand t).bind fun b => (byteList ts).map (b :: ·)
  | _ :: _ => .error .badOperands

/-- A mnemonic with no operand. -/
def noOperand (i : Instr) : List AsmToken → Except AsmError (List Instr)
  | [] => .ok [i]
  | _ => .error .badOperands

/-- A mnemonic with one operand. -/
def oneOperand {α : Type} (read : AsmToken → Except AsmError α) (is : α → List Instr) :
    List AsmToken → Except AsmError (List Instr)
  | [t] => (read t).map is
  | _ => .error .badOperands

/-- A mnemonic with two operands. -/
def twoOperands {α β : Type} (readA : AsmToken → Except AsmError α) (readB : AsmToken → Except AsmError β)
    (is : α → β → List Instr) : List AsmToken → Except AsmError (List Instr)
  | [t, .comma, u] => (readA t).bind fun a => (readB u).map (is a)
  | _ => .error .badOperands

/-- The commands a mnemonic and its operands stand for (R73, R78, R79). -/
def assembleCommand (m : List Char) (ops : List AsmToken) : Except AsmError (List Instr) :=
  if m = ['N','O','P'] then noOperand .nop ops
  else if m = ['C','L','E','A','R'] then noOperand .clear ops
  else if m = ['S','T','A','T','U','S','_','R','E','A','D'] then noOperand .statusRead ops
  else if m = ['A','R','G','_','L','O'] then oneOperand (numberOperand 16) (fun v => [.argLo v]) ops
  else if m = ['A','R','G','_','H','I'] then oneOperand (numberOperand 16) (fun v => [.argHi v]) ops
  else if m = ['F','R','E','Q','_','A','D','D'] then oneOperand symOperand (fun s => [.freqAdd s]) ops
  else if m = ['F','R','E','Q','_','S','E','T'] then oneOperand symOperand (fun s => [.freqSet s]) ops
  else if m = ['F','R','E','Q','_','R','E','A','D'] then oneOperand symOperand (fun s => [.freqRead s]) ops
  else if m = ['B','U','I','L','D','_','T','R','E','E'] then noOperand .buildTree ops
  else if m = ['G','E','N','_','C','O','D','E','S'] then noOperand .genCodes ops
  else if m = ['C','O','D','E','_','R','E','A','D'] then oneOperand symOperand (fun s => [.codeRead s]) ops
  else if m = ['E','N','C','_','S','Y','M'] then oneOperand symOperand (fun s => [.encSym s]) ops
  else if m = ['E','N','C','_','F','L','U','S','H'] then noOperand .encFlush ops
  else if m = ['T','B','L','_','B','E','G','I','N'] then oneOperand symOperand (fun s => [.tblBegin s]) ops
  else if m = ['T','B','L','_','A','P','P','E','N','D'] then oneOperand (bitsOperand 16) (fun c => [.tblAppend c]) ops
  else if m = ['T','B','L','_','I','N','V','E','R','T'] then noOperand .tblInvert ops
  else if m = ['D','E','C','_','S','T','A','R','T'] then oneOperand modeOperand (fun l => [.decStart l]) ops
  else if m = ['D','E','C','_','B','Y','T','E'] then oneOperand symOperand (fun b => [.decByte b]) ops
  else if m = ['D','E','C','_','E','N','D'] then noOperand .decEnd ops
  else if m = ['L','I','_','A','R','G'] then oneOperand (numberOperand 32) (fun v => (Pseudo.liArg v).expand) ops
  else if m = ['F','R','E','Q','_','L','O','A','D'] then
    twoOperands symOperand (numberOperand 32) (fun s c => (Pseudo.freqLoad s c).expand) ops
  else if m = ['F','R','E','Q','_','T','E','X','T'] then oneOperand textOperand (fun t => (Pseudo.freqText t).expand) ops
  else if m = ['E','N','C','_','T','E','X','T'] then oneOperand textOperand (fun t => (Pseudo.encText t).expand) ops
  else if m = ['T','B','L','_','L','O','A','D'] then
    twoOperands symOperand (bitsOperand 255) (fun s c => (Pseudo.tblLoad s c).expand) ops
  else if m = ['D','E','C','_','S','T','A','R','T','_','L','E','N'] then
    oneOperand (numberOperand 32) (fun v => (Pseudo.decStartLen v).expand) ops
  else if m = ['D','E','C','_','B','Y','T','E','S'] then (byteList ops).map fun bs => (Pseudo.decBytes bs).expand
  else .error .unknownMnemonic

/-- One line of assembly (R78): `MNEMONIC` or `MNEMONIC operand`, with `;` starting a comment; an empty line is no command. -/
def assembleLine (line : List Char) : Except AsmError (List Instr) :=
  match lexLine false [] line with
  | none => .error .openQuote
  | some [] => .ok []
  | some (.word m :: ops) => assembleCommand m ops
  | some _ => .error .unknownMnemonic

end Sys2Proof.Machine
end

