-- ==== Sys2Proof/Tests/Slice0.lean ====
section
/-! SUPPORT. The model's own tests: the well-formedness smoke test, words written out from 30_encoding.md, single commands with the
expected results of 95_test_vectors.md and of the commands' examples, and for every statement with hypotheses a state and operands
that meet them. -/

namespace Sys2Proof.Tests

set_option Elab.async false

open Sys2Proof.Machine

/-! ### Helpers -/

/-- The next state of an outcome. -/
def nextOf (o : Host.Outcome State Fault Refusal) : State :=
  match o with
  | .next s => s
  | .fault _ => State.reset
  | .refused _ => State.reset

/-- The outcome is a next state with the property. -/
def nextWith (o : Host.Outcome State Fault Refusal) (p : State → Bool) : Bool :=
  match o with
  | .next s => p s
  | .fault _ => false
  | .refused _ => false

theorem exists_of_nextWith {o : Host.Outcome State Fault Refusal} {p : State → Bool} (h : nextWith o p = true) :
    ∃ t, o = .next t ∧ p t = true := by
  unfold nextWith at h
  split at h
  · exact ⟨_, rfl, h⟩
  · simp at h
  · simp at h

/-- Every field but the three tables. -/
structure Fields where
  (nn root : Nat) (lmax : BitVec 8) (empty : Bool) (pend : Bits) (bitcnt : Word) (dacc : Bits) (legacy : Bool)
  (bitlen dbytes dsyms arg : Word) (sel : Sym) (phase : Phase) (err : Option Error) (resp : List Token) (port : List Word)
  deriving DecidableEq

def fields (s : State) : Fields :=
  ⟨s.nn.val, s.root.val, s.lmax, s.empty, s.pend, s.bitcnt, s.dacc, s.legacy, s.bitlen, s.dbytes, s.dsyms, s.arg, s.sel, s.phase,
    s.err, s.resp, s.port⟩

/-- The reset state in another phase. -/
def inPhase (p : Phase) : State := { State.reset with phase := p }

/-- A Code Table with the listed codes. -/
def tableOf (cs : List (Sym × Bits)) : Table CodeEntry := writeCodes State.reset.code cs

/-- Counts a:1, b:1, c:2 (95_test_vectors.md V-T1). -/
def countsABC : Table Word := setEntry (setEntry (setEntry State.reset.freq 0x61 1) 0x62 1) 0x63 2

def mapState : State := { State.reset with freq := countsABC }

/-- The pool of V-T1: leaves a, b, c, node 3 = (0,1), node 4 = (2,3). -/
def poolABC : List Node :=
  [⟨.leaf, 0x61, 1, 0, 0, false⟩, ⟨.leaf, 0x62, 1, 0, 0, false⟩, ⟨.leaf, 0x63, 2, 0, 0, false⟩,
   ⟨.internal, 0, 2, 0, 1, false⟩, ⟨.internal, 0, 4, 2, 3, true⟩]

def treeState : State :=
  { State.reset with freq := countsABC, nodes := storePool State.reset.nodes poolABC, nn := 5, root := 4, phase := .tree }

/-- One leaf, in TREE (42_tree_codes.md R115). -/
def leafState : State :=
  { State.reset with
    freq := setEntry State.reset.freq 0x61 4, nodes := storePool State.reset.nodes [⟨.leaf, 0x61, 4, 0, 0, true⟩], nn := 1,
    root := 0, phase := .tree }

/-- In CODES with one a and one b counted and the "abracadabra" codes of a and b. -/
def codesState : State :=
  { inPhase .codes with
    freq := setEntry (setEntry State.reset.freq 0x61 1) 0x62 1, code := tableOf [(0x61, [false]), (0x62, [true, true, false])]
    lmax := 3 }

/-- Decoding with the table of V-U13, LENGTH mode, BITLEN 9. -/
def decState : State :=
  { inPhase .dec with code := tableOf [(0x61, [false]), (0x62, [true, false])], lmax := 2, bitlen := 9 }

/-- The same in LEGACY mode. -/
def legacyState : State := { decState with legacy := true }

/-- A failed session. -/
def errorState : State := { inPhase .codes with err := some .encoding }

/-! ### WellFormed: one ill-formed term for each check (30_encoding.md R71 format A) -/

theorem test_wf_refuses_no_bits : (Instr.tblAppend []).wf = false := by decide
theorem test_wf_refuses_seventeen_bits : (Instr.tblAppend (List.replicate 17 true)).wf = false := by decide
theorem test_wf_accepts_sixteen_bits : (Instr.tblAppend (List.replicate 16 true)).wf = true := by decide
theorem test_pseudo_wf_refuses_256_bits : (Pseudo.tblLoad 0x61 (List.replicate 256 true)).wf = false := by decide +kernel
theorem test_pseudo_wf_refuses_no_bits : (Pseudo.tblLoad 0x61 []).wf = false := by decide

/-! ### Decoding: words written out bit by bit from 30_encoding.md R71 and R73 -/

theorem test_decode_nop : decode 0b00000000_000000000000000000000000 = .ok .nop := by decide
theorem test_decode_clear : decode 0b00000001_000000000000000000000000 = .ok .clear := by decide
theorem test_decode_statusRead : decode 0b00000010_000000000000000000000000 = .ok .statusRead := by decide
theorem test_decode_argLo : decode 0b00000011_00000000_0001001000110100 = .ok (.argLo 0x1234) := by decide
theorem test_decode_argHi : decode 0b00000100_00000000_1111111111111111 = .ok (.argHi 0xFFFF) := by decide
theorem test_decode_freqAdd : decode 0b00010000_0000000000000000_01100001 = .ok (.freqAdd 0x61) := by decide
theorem test_decode_freqSet : decode 0b00010001_0000000000000000_11111111 = .ok (.freqSet 0xFF) := by decide
theorem test_decode_freqRead : decode 0b00010010_0000000000000000_01110010 = .ok (.freqRead 0x72) := by decide
theorem test_decode_buildTree : decode 0b00100000_000000000000000000000000 = .ok .buildTree := by decide
theorem test_decode_genCodes : decode 0b00100001_000000000000000000000000 = .ok .genCodes := by decide
theorem test_decode_codeRead : decode 0b00100010_0000000000000000_01100010 = .ok (.codeRead 0x62) := by decide
theorem test_decode_encSym : decode 0b00110000_0000000000000000_01100010 = .ok (.encSym 0x62) := by decide
theorem test_decode_encFlush : decode 0b00110001_000000000000000000000000 = .ok .encFlush := by decide
theorem test_decode_tblBegin : decode 0b01000000_0000000000000000_01100010 = .ok (.tblBegin 0x62) := by decide
theorem test_decode_tblAppend : decode 0b01000001_0000_0010_1100000000000000 = .ok (.tblAppend [true, true, false]) := by decide
theorem test_decode_tblInvert : decode 0b01000010_000000000000000000000000 = .ok .tblInvert := by decide
theorem test_decode_decStart : decode 0b01010000_00000000000000000000000_1 = .ok (.decStart true) := by decide
theorem test_decode_decByte : decode 0b01010001_0000000000000000_01101110 = .ok (.decByte 0x6E) := by decide
theorem test_decode_decEnd : decode 0b01010010_000000000000000000000000 = .ok .decEnd := by decide

/-- V-U3: a full 16-bit append. -/
theorem test_decode_tblAppend_full : decode 0x410FA5A5 = .ok (.tblAppend
    [true, false, true, false, false, true, false, true, true, false, true, false, false, true, false, true]) := by decide

/-- V-C3, V-F6, V-U5: a reserved bit. -/
theorem test_decode_reserved_bit : decode 0x00000001 = .error .reservedBit ∧ decode 0x10000100 = .error .reservedBit ∧
    decode 0x50000002 = .error .reservedBit := by decide
/-- V-C4, V-C8: reserved opcodes. -/
theorem test_decode_reserved_opcode : decode 0xFF000000 = .error .reservedOpcode ∧ decode 0x05000000 = .error .reservedOpcode := by
  decide
/-- V-U4, V-U6: a payload bit the command does not use. -/
theorem test_decode_unused_payload : decode 0x41000001 = .error .unusedPayloadBit ∧
    decode 0x4100C000 = .error .unusedPayloadBit := by decide

/-- The words of 44_unpacker.md R141's and R144's examples. -/
theorem test_encode_examples : encode (.tblAppend [true, true, false]) = 0x4102C000 ∧ encode (.decStart true) = 0x50000001 ∧
    encode (.argHi 0xFFFF) = 0x0400FFFF ∧ encode (.encSym 0x62) = 0x30000062 := by decide

theorem test_decodeTableWord : decodeTableWord 32 0x5100006E = some (.decByte 0x6E) ∧ decodeTableWord 32 0xFF000000 = none := by
  decide

/-! ### Single commands -/

/-- V-C2: NOP from reset changes nothing. -/
theorem test_nop : fields (nextOf (step (State.reset.withFetchWord 32 0x00000000))) = fields State.reset := by decide +kernel
/-- V-C7: CLEAR leaves the error state and keeps RESP. -/
theorem test_clear : fields (nextOf (exec .clear { errorState with resp := [.err 0x30 .encoding] })) =
    fields { State.reset with resp := [.err 0x30 .encoding] } := by decide +kernel
/-- V-C1 and 40_control.md R94's example. -/
theorem test_statusRead : (nextOf (step (State.reset.withFetchWord 32 0x02000000))).resp = [.status 0] ∧
    (nextOf (exec .statusRead { mapState with phase := .encDone, lmax := 3 })).resp = [.status 0x00030330] := by decide +kernel
/-- R95's example. -/
theorem test_argLo : (nextOf (exec (.argLo 0x0017) { State.reset with arg := 0x12345678 })).arg = 0x12340017 := by decide +kernel
/-- R96's example. -/
theorem test_argHi : (nextOf (exec (.argHi 0xFFFF) { State.reset with arg := 0x00000017 })).arg = 0xFFFF0017 := by decide +kernel
/-- V-E2: ARG_LO is discarded in the error state. -/
theorem test_argLo_discarded : fields (nextOf (exec (.argLo 5) errorState)) = fields errorState := by decide +kernel
/-- V-F1. -/
theorem test_freqAdd : (nextOf (exec (.freqAdd 0x63) mapState)).freqOf 0x63 = 3 := by decide +kernel
/-- V-F3: OVERFLOW leaves the count. -/
theorem test_freqAdd_overflow :
    let t := nextOf (exec (.freqAdd 0x61) { State.reset with freq := setEntry State.reset.freq 0x61 0xFFFFFFFF })
    t.freqOf 0x61 = 0xFFFFFFFF ∧ t.resp.map Token.value = [0x10000007] := by decide +kernel
/-- R101's example. -/
theorem test_freqSet : (nextOf (exec (.freqSet 0x61) { State.reset with arg := 5 })).freqOf 0x61 = 5 := by decide +kernel
/-- V-F5: an absent symbol reads 0. -/
theorem test_freqRead : (nextOf (exec (.freqRead 0) mapState)).resp = [.freq 0] ∧
    (nextOf (exec (.freqRead 0x63) mapState)).resp = [.freq 2] := by decide +kernel
/-- V-T1: leaf c beats the internal node of equal weight. -/
theorem test_buildTree : (nextOf (exec .buildTree mapState)).pool = poolABC := by decide +kernel
/-- V-T6: the empty map. -/
theorem test_buildTree_empty : fields (nextOf (exec .buildTree State.reset)) = fields { State.reset with empty := true, phase := .tree } := by
  decide +kernel
/-- V-T1: codes a "10", b "11", c "0", LMAX 2. -/
theorem test_genCodes : validCodes (nextOf (exec .genCodes treeState)).code = [[true, false], [true, true], [false]] := by
  decide +kernel
/-- V-T7: the single symbol's code is "0". -/
theorem test_genCodes_single : (nextOf (exec .genCodes leafState)).codeOf 0x61 = ⟨true, [false]⟩ ∧
    fields (nextOf (exec .genCodes leafState)) = fields { leafState with lmax := 1, phase := .codes } := by decide +kernel
/-- 42_tree_codes.md R121's example. -/
theorem test_codeRead : ((nextOf (exec (.codeRead 0x62) codesState)).resp.map Token.value) = [0x00000103, 0xC0000000] := by
  decide +kernel
/-- V-T11: a 255-bit code reads as 8 words, the last with its lowest bit 0. -/
theorem test_codeRead_longest : codeWords (List.replicate 255 true) = List.replicate 7 0xFFFFFFFF ++ [0xFFFFFFFE] := by
  decide +kernel
/-- 43_packer.md R130's example. -/
theorem test_encSym : fields (nextOf (exec (.encSym 0x62) codesState)) = fields { codesState with pend := [true, true, false], bitcnt := 3 } := by
  decide +kernel
/-- V-P9: the last bits fit, and a bit more is OVERFLOW. -/
theorem test_encSym_limit :
    (nextOf (exec (.encSym 0x61) { codesState with bitcnt := 0xFFFFFFFE })).bitcnt = 0xFFFFFFFF ∧
    (nextOf (exec (.encSym 0x61) { codesState with bitcnt := 0xFFFFFFFF })).err = some .overflow := by decide +kernel
/-- R131's example: PEND "1101110" gives BYTE DC, then LEN. -/
theorem test_encFlush :
    (nextOf (exec .encFlush { codesState with pend := [true, true, false, true, true, true, false], bitcnt := 23 })).resp =
      [.byte 0xDC, .len 23] := by decide +kernel
/-- 44_unpacker.md R140's example. -/
theorem test_tblBegin : (nextOf (exec (.tblBegin 0x62) State.reset)).codeOf 0x62 = ⟨true, []⟩ ∧
    fields (nextOf (exec (.tblBegin 0x62) State.reset)) = fields { State.reset with sel := 0x62, phase := .tblLoad } := by decide +kernel
/-- R141's example. -/
theorem test_tblAppend : ((nextOf (exec (.tblAppend [true, true, false])
    { inPhase .tblLoad with code := tableOf [(0x62, [])], sel := 0x62 })).codeOf 0x62).bits = [true, true, false] := by decide +kernel
/-- V-U10: no code passes 255 bits. -/
theorem test_tblAppend_limit :
    let s := { inPhase .tblLoad with code := tableOf [(0, List.replicate 240 false)] }
    (nextOf (exec (.tblAppend (List.replicate 16 false)) s)).err = some .corruptTable ∧
    (nextOf (exec (.tblAppend (List.replicate 15 false)) s)).err = none := by decide +kernel
/-- V-U12: a code that begins another is accepted. -/
theorem test_tblInvert : fields (nextOf (exec .tblInvert
    { inPhase .tblLoad with code := tableOf [(0x61, [false]), (0x62, [false, true])] })) = fields { inPhase .rmap with lmax := 2 } := by decide +kernel
/-- V-U8 and V-U9: equal codes and an empty code. -/
theorem test_tblInvert_refuses :
    (nextOf (exec .tblInvert { inPhase .tblLoad with code := tableOf [(0x61, [false]), (0x62, [false])] })).resp =
      [.err 0x42 .corruptTable] ∧
    (nextOf (exec .tblInvert { inPhase .tblLoad with code := tableOf [(0x61, [])] })).resp = [.err 0x42 .corruptTable] := by
  decide +kernel
/-- R144's example. -/
theorem test_decStart : fields (nextOf (exec (.decStart false) { inPhase .rmap with arg := 23 })) =
    fields { inPhase .dec with arg := 23, bitlen := 23 } := by decide +kernel
/-- V-U13: the SYM tokens before the failing bit stay, DACC and DSYMS do not. -/
theorem test_decByte_error : fields (nextOf (exec (.decByte 0x0C) legacyState)) = fields { legacyState with
    err := some .decoding, resp := [.sym 0x61, .sym 0x61, .sym 0x61, .sym 0x61, .err 0x51 .decoding] } := by decide +kernel
/-- V-U16: one data bit stays in the accumulator, seven zero pad bits are consumed. -/
theorem test_decByte_padding : fields (nextOf (exec (.decByte 0x80) { decState with bitlen := 1 })) =
    fields { decState with bitlen := 1, dacc := [true], dbytes := 1 } := by decide +kernel
/-- R146's example. -/
theorem test_decEnd : fields (nextOf (exec .decEnd { decState with bitlen := 23, dbytes := 3, dsyms := 11 })) =
    fields { decState with bitlen := 23, dbytes := 3, dsyms := 11, phase := .decDone, resp := [.fin 11] } := by decide +kernel
/-- V-U19: eight zero bits are too long for padding. -/
theorem test_decEnd_residual : (nextOf (exec .decEnd { legacyState with dacc := List.replicate 8 false })).err = some .decoding ∧
    (nextOf (exec .decEnd { legacyState with dacc := List.replicate 7 false })).err = none := by decide +kernel

/-- V-C4: a reserved opcode keeps its opcode in the ERR token. -/
theorem test_step_illegal : ((nextOf (step (State.reset.withFetchWord 32 0xFF000000))).resp.map Token.wire) = [0xFFF000001] := by
  decide +kernel
/-- 30_encoding.md R79: a 20-bit code is two appends. -/
theorem test_expand_tblLoad : (Pseudo.tblLoad 0x41 (List.replicate 20 true)).expand =
    [.tblBegin 0x41, .tblAppend (List.replicate 16 true), .tblAppend (List.replicate 4 true)] := by decide
/-- R78: a quoted character, a comment, and an operand out of range. -/
theorem test_assemble : assembleLine ['F','R','E','Q','_','A','D','D',' ','\'','a','\'',' ',';','x'] = .ok [.freqAdd 0x61] ∧
    assembleLine ['A','R','G','_','L','O',' ','6','5','5','3','6'] = .error .outOfRange ∧
    assembleLine ['A','R','G','_','L','O',' ','0','x','1','7'] = .ok [.argLo 0x17] := by decide +kernel

/-! ### Witnesses: the hypotheses of every statement that has them, met together -/

theorem witness_DecodeReadsEveryEncoding : (Instr.tblAppend (List.replicate 16 true)).wf = true ∧ (Instr.tblAppend [false]).wf = true := by
  decide
theorem witness_DecodedWordIsTheEncoding : decode 0x4102C000 = .ok (.tblAppend [true, true, false]) := by decide
theorem witness_StepRunsTheDecodedCommand : ({ State.reset with port := [0x02000000] } : State).port = 0x02000000 :: [] ∧
    decode 0x02000000 = .ok .statusRead ∧ 0x520000FF < 2 ^ 32 ∧ decode (BitVec.ofNat 32 0x510000FF) = .ok (.decByte 0xFF) ∧
    State.reset.port = [] := by decide

/-- A word the decoder rejects decodes to no command. -/
theorem not_ok_of_error {w : Word} {e : Malformed} (h : decode w = .error e) : ∀ i, decode w ≠ .ok i := by
  intro i hi
  rw [h] at hi
  cases hi

theorem witness_MalformedWordRaisesIllegal : ({ State.reset with port := [0xFF000000] } : State).port = 0xFF000000 :: [] ∧
    (∀ i, decode 0xFF000000 ≠ .ok i) ∧ State.reset.err = none ∧
    ({ errorState with port := [0xFF000000] } : State).port = 0xFF000000 :: [] ∧ errorState.err ≠ none :=
  ⟨rfl, not_ok_of_error (by decide : decode 0xFF000000 = .error .reservedOpcode), rfl, rfl, by decide⟩
theorem witness_StepOnlyAppendsToResp : ∃ t, step (State.reset.withFetchWord 32 0x02000000) = .next t ∧ (t.resp != []) = true :=
  exists_of_nextWith (p := fun t => t.resp != []) (by decide +kernel)
theorem witness_HostActionsCommuteWithTheStep :
    let s := { State.reset with resp := [.byte 1, .byte 2], port := [0x02000000] }
    (∃ t, step s = .next t ∧ (t.resp != []) = true) ∧ 2 ≤ s.resp.length ∧ s.port ≠ [] :=
  ⟨exists_of_nextWith (p := fun t => t.resp != []) (by decide +kernel), by decide, by decide⟩
theorem witness_ErrorStateDiscardsCommands : errorState.err ≠ none ∧ runsInErrorState (.argHi 1) = false := by decide
theorem witness_ErrorIsStickyUntilClear : errorState.err ≠ none ∧
    (∃ t, exec .clear errorState = .next t ∧ t.err.isNone = true) ∧
    (∃ t, exec .statusRead errorState = .next t ∧ t.err.isSome = true) :=
  ⟨by decide, exists_of_nextWith (p := fun t => t.err.isNone) (by decide +kernel),
    exists_of_nextWith (p := fun t => t.err.isSome) (by decide +kernel)⟩
theorem witness_ErrorEntryIsPrecise : legacyState.err = none ∧
    ∃ t, exec (.decByte 0x0C) legacyState = .next t ∧ (t.err == some .decoding) = true :=
  ⟨rfl, exists_of_nextWith (p := fun t => t.err == some .decoding) (by decide +kernel)⟩
theorem witness_CommandsRaiseExactlyTheirRow : State.reset.err = none ∧
    (∃ t, exec .genCodes State.reset = .next t ∧ (t.err == some .sequence) = true) ∧
    (Instr.encSym 0).wf = true ∧ Error.overflow ∈ mayRaise (.encSym 0) :=
  ⟨rfl, exists_of_nextWith (p := fun t => t.err == some .sequence) (by decide +kernel), rfl, by decide⟩
theorem witness_PhaseTableIsKept : State.reset.err = none ∧ legalIn .genCodes State.reset.phase = false ∧
    legalIn .tblInvert State.reset.phase = true := by decide
theorem witness_CommandsWriteOnlyTheirElements : Element.code ∉ writes .encFlush ∧
    ∃ t, exec .encFlush codesState = .next t ∧ (t.phase == .encDone) = true :=
  ⟨by decide, exists_of_nextWith (p := fun t => t.phase == .encDone) (by decide +kernel)⟩
theorem witness_TableWritesTouchOneEntry : freqWritten (.freqAdd 0x61) ≠ some 0x62 ∧
    codeWritten State.reset (.tblBegin 0x61) ≠ some 0x62 ∧
    (∃ t, exec (.freqAdd 0x61) State.reset = .next t ∧ t.err.isNone = true) ∧
    (∃ t, exec (.tblBegin 0x61) State.reset = .next t ∧ t.err.isNone = true) :=
  ⟨by decide, by decide, exists_of_nextWith (p := fun t => t.err.isNone) (by decide +kernel),
    exists_of_nextWith (p := fun t => t.err.isNone) (by decide +kernel)⟩
theorem witness_FrequencyMapIsFrozen : Instr.decByte 0x80 ≠ .clear ∧ decState.phase ≠ .freq ∧
    ∃ t, exec (.decByte 0x80) decState = .next t ∧ t.err.isNone = true :=
  ⟨by decide, by decide, exists_of_nextWith (p := fun t => t.err.isNone) (by decide +kernel)⟩
theorem witness_TokensPerCommandAreBounded : PendOk codesState ∧ EntriesOk codesState ∧
    ∃ t, exec .encFlush codesState = .next t ∧ (t.resp.length == 1) = true :=
  ⟨by decide +kernel, by decide +kernel, exists_of_nextWith (p := fun t => t.resp.length == 1) (by decide +kernel)⟩
theorem witness_ArgHalvesAreWritten : State.reset.err = none := rfl
theorem witness_FreqAddCountsOneOccurrence :
    let full := { mapState with freq := setEntry countsABC 0x61 0xFFFFFFFF }
    (mapState.err = none ∧ mapState.phase = .freq ∧ (mapState.freqOf 0x61).toNat < 2 ^ 32 - 1) ∧
    full.err = none ∧ full.phase = .freq ∧ (full.freqOf 0x61).toNat = 2 ^ 32 - 1 := by decide +kernel
theorem witness_FreqSetLoadsArg : mapState.err = none ∧ mapState.phase = .freq := by decide
theorem witness_CountingATextGivesItsFrequencies : ∀ x : Sym, [0x61, 0x62, 0x61].count x ≤ 2 ^ 32 - 1 := by
  intro x
  exact le_trans List.count_le_length (by decide)
theorem witness_BuildTree : mapState.err = none ∧ mapState.phase = .freq ∧ mapSyms mapState.freq ≠ [] ∧
    mapSyms State.reset.freq = [] ∧ (mapSyms mapState.freq)[2]? = some 0x63 ∧
    ∃ t, exec .buildTree mapState = .next t ∧ (t.pool[4]?.isSome) = true :=
  ⟨by decide, by decide, by decide +kernel, by decide +kernel, by decide +kernel,
    exists_of_nextWith (p := fun t => t.pool[4]?.isSome) (by decide +kernel)⟩
theorem witness_GenCodesWithoutAMerge : leafState.err = none ∧ leafState.phase = .tree ∧ leafState.empty = false ∧
    (leafState.nodes[leafState.root]).kind = .leaf ∧ ({ inPhase .tree with empty := true } : State).empty = true := by decide +kernel
theorem treeState_inv : Inv treeState := by
  constructor <;> decide +kernel
theorem mapState_inv : Inv mapState := by
  constructor <;> decide +kernel
theorem decState_inv : Inv decState := by
  constructor <;> decide +kernel
theorem witness_GenCodesWritesRootPaths : Inv treeState ∧ treeState.err = none ∧ treeState.phase = .tree ∧
    treeState.empty = false ∧ (treeState.nodes[treeState.root]).kind = .internal :=
  ⟨treeState_inv, rfl, rfl, rfl, by decide +kernel⟩
theorem witness_LmaxIsTheLongestValidCode : Inv treeState ∧ treeState.err = none ∧
    (∃ t, exec .genCodes treeState = .next t ∧ t.err.isNone = true) ∧ Inv mapState ∧ mapState.err = none ∧
    (∃ t, exec .tblInvert mapState = .next t ∧ t.err.isNone = true) :=
  ⟨treeState_inv, rfl, exists_of_nextWith (p := fun t => t.err.isNone) (by decide +kernel), mapState_inv, rfl,
    exists_of_nextWith (p := fun t => t.err.isNone) (by decide +kernel)⟩
theorem witness_GeneratedCodes : Inv mapState ∧ mapState.err = none ∧ mapState.phase = .freq ∧ 2 ≤ (mapSyms mapState.freq).length ∧
    mapState.freqOf 0x61 ≠ 0 ∧ ∃ t, runAll [.buildTree, .genCodes] mapState = .next t ∧ t.err.isNone = true :=
  ⟨mapState_inv, rfl, rfl, by decide +kernel, by decide +kernel,
    exists_of_nextWith (p := fun t => t.err.isNone) (by decide +kernel)⟩

/-- A prefix code of a, b and c that is not the generated one. -/
def otherCode (x : Sym) : Bits := if x = 0x61 then [false] else if x = 0x62 then [true, false] else [true, true]

theorem witness_GeneratedCodesAreOptimal :
    ∀ x ∈ mapSyms mapState.freq, ∀ y ∈ mapSyms mapState.freq, x ≠ y → ¬ otherCode x <+: otherCode y := by decide +kernel
theorem witness_SameCountsGiveTheSameCodes : Inv mapState ∧ mapState.err = none ∧ mapState.phase = .freq ∧
    mapState.freq = { mapState with arg := 7 }.freq ∧ Inv { mapState with arg := 7 } :=
  ⟨mapState_inv, rfl, rfl, rfl, inv_arg mapState_inv 7⟩
theorem witness_EncSymPacksTheCode : codesState.err = none ∧ codesState.phase = .codes ∧ (codesState.codeOf 0x62).valid = true ∧
    codesState.bitcnt.toNat + (codesState.codeOf 0x62).bits.length ≤ 2 ^ 32 - 1 := by decide +kernel
theorem witness_EncSymErrors : codesState.err = none ∧ codesState.phase = .codes ∧ (codesState.codeOf 0x63).valid = false ∧
    ({ codesState with bitcnt := 0xFFFFFFFF } : State).err = none ∧ ({ codesState with bitcnt := 0xFFFFFFFF } : State).phase = .codes ∧
    2 ^ 32 - 1 < ({ codesState with bitcnt := 0xFFFFFFFF } : State).bitcnt.toNat + (codesState.codeOf 0x61).bits.length := by
  decide +kernel
theorem witness_EncFlushPadsAndReports : codesState.err = none ∧ codesState.phase = .codes ∧ codesState.pend.length ≤ 7 := by decide
theorem witness_PackedStreamIsThePaddedConcatenation : codesState.err = none ∧ codesState.phase = .codes ∧ codesState.pend = [] ∧
    codesState.bitcnt = 0 ∧ (∀ x ∈ [0x61, 0x62], (codesState.codeOf x).valid = true) ∧
    (codeStream codesState.code [0x61, 0x62]).length ≤ 2 ^ 32 - 1 ∧
    ∀ x, (codesState.freqOf x).toNat = [0x61, 0x62].count x := by decide +kernel
theorem witness_TblBeginOpensAnEntry : State.reset.err = none ∧ State.reset.phase = .freq ∧ (inPhase .tblLoad).phase = .tblLoad := by
  decide
theorem witness_TblAppendExtendsTheSelectedCode :
    let s := { inPhase .tblLoad with code := tableOf [(0, List.replicate 240 false)] }
    s.err = none ∧ s.phase = .tblLoad ∧ (s.codeOf s.sel).bits.length + (List.replicate 15 true).length ≤ 255 ∧
    255 < (s.codeOf s.sel).bits.length + (List.replicate 16 true).length := by decide +kernel
theorem witness_TblLoadLoadsAWholeCode : State.reset.err = none ∧ State.reset.phase = .freq ∧
    1 ≤ (List.replicate 255 true).length ∧ (List.replicate 255 true).length ≤ 255 := by decide +kernel
theorem witness_TblInvertAcceptsDistinctCodes : State.reset.err = none ∧ State.reset.phase = .freq ∧
    (∀ x, (State.reset.codeOf x).valid = true → (State.reset.codeOf x).bits ≠ []) ∧
    (∀ x y, x ≠ y → (State.reset.codeOf x).valid = true → (State.reset.codeOf y).valid = true →
      (State.reset.codeOf x).bits ≠ (State.reset.codeOf y).bits) ∧
    (let c := tableOf [(0x61, []), (0x62, [])]
     ((entry c 0x61).valid = true ∧ (entry c 0x61).bits = []) ∧ (entry c 0x62).valid = true ∧
       (entry c 0x61).bits = (entry c 0x62).bits) := by
  refine ⟨rfl, rfl, ?_, ?_, by decide +kernel⟩
  · intro x h
    simp [State.codeOf] at h
  · intro x y _ h
    simp [State.codeOf] at h
theorem witness_LookupInvertsTheTable : Inv decState ∧ decState.phase = .dec ∧ lookup decState.code [true, false] = some 0x62 ∧
    lookup decState.code [true] = none := ⟨decState_inv, rfl, by decide +kernel, by decide +kernel⟩
theorem witness_DecStartLatchesModeAndLength : (inPhase .rmap).err = none ∧ (inPhase .rmap).phase = .rmap := by decide

theorem isCode_decState {c : Bits} : isCode decState.code c ↔ c ∈ [[false], [true, false]] := by
  have h : validCodes decState.code = [[false], [true, false]] := by decide +kernel
  rw [isCode_iff_mem, h]

/-- No code of decState's table begins another: those of one bit have no proper beginning, and "1" is no code. -/
theorem decState_noShorterCode : noShorterCode decState.code [false] ∧ noShorterCode decState.code [true, false] ∧
    noShorterCode decState.code [true] := by
  refine ⟨?_, ?_, ?_⟩ <;> intro k h1 h2 hc
  · simp at h2; omega
  · have : k = 1 := by simp at h2; omega
    subst this
    simp [isCode_decState] at hc
  · simp at h2; omega

/-- Byte 01000001 in state decState: a, b, five times a, and "1" pending; BITLEN 9, so that all eight bits are data. -/
theorem witness_DecByteEmitsTheDecodedSymbols : Inv decState ∧ decState.err = none ∧ decState.phase = .dec ∧
    decState.dbytes.toNat < ceil8 decState.bitlen.toNat ∧ (∀ p ∈ padBits decState 0x41, p = false) ∧
    decState.dbytes.toNat < 2 ^ 32 - 1 ∧ decState.dsyms.toNat + [0x61, 0x62, 0x61, 0x61, 0x61, 0x61].length ≤ 2 ^ 32 - 1 ∧
    decState.dacc ++ dataBits decState 0x41 = codeStream decState.code [0x61, 0x62, 0x61, 0x61, 0x61, 0x61] ++ [true] ∧
    (∀ x ∈ [0x61, 0x62, 0x61, 0x61, 0x61, 0x61],
      (decState.codeOf x).valid = true ∧ noShorterCode decState.code (decState.codeOf x).bits) ∧
    (∀ k, 1 ≤ k → k ≤ decState.dacc.length → ¬ isCode decState.code (decState.dacc.take k)) ∧
    noShorterCode decState.code [true] ∧ ¬ isCode decState.code [true] ∧ [true].length < decState.lmax.toNat := by
  obtain ⟨ha, hb, h1⟩ := decState_noShorterCode
  have ea : (decState.codeOf 0x61) = ⟨true, [false]⟩ := by decide +kernel
  have eb : (decState.codeOf 0x62) = ⟨true, [true, false]⟩ := by decide +kernel
  refine ⟨decState_inv, rfl, rfl, by decide +kernel, by decide +kernel, by decide +kernel, by decide +kernel, by decide +kernel,
    ?_, ?_, h1, ?_, by decide +kernel⟩
  · intro x hx
    have hx : x = 0x61 ∨ x = 0x62 := by simp at hx; tauto
    rcases hx with rfl | rfl
    · rw [ea]; exact ⟨rfl, ha⟩
    · rw [eb]; exact ⟨rfl, hb⟩
  · intro k h1 h2
    have : decState.dacc.length = 0 := rfl
    omega
  · simp [isCode_decState]

theorem witness_DecByteErrorsBeforeAnyBit : decState.err = none ∧ decState.phase = .dec ∧ decState.legacy = false ∧
    (({ decState with dbytes := 2 } : State).bitlen.toNat + 7) / 8 ≤ ({ decState with dbytes := 2 } : State).dbytes.toNat ∧
    ({ legacyState with dbytes := 0xFFFFFFFF } : State).legacy = true ∧
    ({ legacyState with dbytes := 0xFFFFFFFF } : State).dbytes.toNat = 2 ^ 32 - 1 := by decide +kernel
theorem witness_PadBitsMustBeZero :
    let s := { decState with bitlen := 1 }
    s.err = none ∧ s.phase = .dec ∧ s.legacy = false ∧ s.dbytes.toNat < ceil8 s.bitlen.toNat ∧ s.dsyms.toNat + 8 ≤ 2 ^ 32 - 1 ∧
    7 < 8 ∧ s.bitlen.toNat ≤ 8 * s.dbytes.toNat + 7 ∧ (0x01 : Byte).getMsbD 7 = true ∧ s.bitlen.toNat ≤ 8 * s.dbytes.toNat + 1 := by
  decide +kernel

/-- The premises the clauses share, with the symbols a and b. -/
def DecByteErrorPremises (s : State) : Prop :=
  Inv s ∧ s.err = none ∧ s.phase = .dec ∧ s.dbytes.toNat < ceil8 s.bitlen.toNat ∧ s.dbytes.toNat < 2 ^ 32 - 1 ∧
  (∀ x ∈ [0x61, 0x62], (s.codeOf x).valid = true ∧ noShorterCode s.code (s.codeOf x).bits) ∧
  ∀ k, 1 ≤ k → k ≤ s.dacc.length → ¬ isCode s.code (s.dacc.take k)

theorem decState_premises (n m : Word) (hm : 0 < ceil8 m.toNat) :
    DecByteErrorPremises { decState with dsyms := n, bitlen := m } := by
  obtain ⟨ha, hb, -⟩ := decState_noShorterCode
  have ea : (decState.codeOf 0x61) = ⟨true, [false]⟩ := by decide +kernel
  have eb : (decState.codeOf 0x62) = ⟨true, [true, false]⟩ := by decide +kernel
  refine ⟨inv_bitlen (inv_dsyms decState_inv n) m, rfl, rfl, hm, (by decide : decState.dbytes.toNat < 2 ^ 32 - 1), ?_, ?_⟩
  · intro x hx
    show (decState.codeOf x).valid = true ∧ noShorterCode decState.code (decState.codeOf x).bits
    have hx : x = 0x61 ∨ x = 0x62 := by simpa using hx
    rcases hx with rfl | rfl
    · rw [ea]; exact ⟨rfl, ha⟩
    · rw [eb]; exact ⟨rfl, hb⟩
  · intro k h1 h2
    have h2 : k ≤ decState.dacc.length := h2
    have : decState.dacc.length = 0 := rfl
    omega
/-- Clause 1 with V-U13's byte 00001100: four times a, then "1100" reaches LMAX = 2 unmatched. -/
theorem witness_DecByteErrorsKeepEarlierSymbols_decoding : DecByteErrorPremises decState ∧
    decState.dacc ++ dataBits decState 0x0C = codeStream decState.code [0x61, 0x61, 0x61, 0x61] ++ [true, true, false, false] ∧
    decState.lmax.toNat ≤ [true, true, false, false].length ∧ decState.dsyms.toNat + 4 ≤ 2 ^ 32 - 1 ∧
    ∀ k, 1 ≤ k → k ≤ 4 → ¬ isCode decState.code ([true, true, false, false].take k) := by
  refine ⟨decState_premises decState.dsyms decState.bitlen (by decide), by decide +kernel, by decide +kernel, by decide +kernel, ?_⟩
  intro k h1 h2
  rw [isCode_decState]
  have : k = 1 ∨ k = 2 ∨ k = 3 ∨ k = 4 := by omega
  rcases this with rfl | rfl | rfl | rfl <;> decide
/-- Clause 2: DSYMS one below its limit, byte 00000000: one a, and the next a is too many. -/
theorem witness_DecByteErrorsKeepEarlierSymbols_overflow :
    let s := { decState with dsyms := 0xFFFFFFFE }
    DecByteErrorPremises s ∧ s.dacc ++ dataBits s 0x00 = codeStream s.code [0x61] ++ (s.codeOf 0x61).bits ++ List.replicate 6 false ∧
    s.dsyms.toNat + [0x61].length = 2 ^ 32 - 1 :=
  ⟨decState_premises _ decState.bitlen (by decide), by decide +kernel, by decide +kernel⟩
/-- Clause 3, as V-U15: of the byte 01000001 the first BITLEN = 3 bits are a and b, and the last pad bit is 1. -/
theorem witness_DecByteErrorsKeepEarlierSymbols_padding :
    let s := { decState with bitlen := 3 }
    DecByteErrorPremises s ∧ s.dacc ++ dataBits s 0x41 = codeStream s.code [0x61, 0x62] ++ [] ∧
    s.dsyms.toNat + [0x61, 0x62].length ≤ 2 ^ 32 - 1 ∧ noShorterCode s.code [] ∧ ¬ isCode s.code [] ∧ true ∈ padBits s 0x41 := by
  refine ⟨decState_premises decState.dsyms 3 (by decide), by decide +kernel, by decide +kernel, ?_, ?_, by decide +kernel⟩
  · intro k h1 h2
    simp at h2
  · show ¬ isCode decState.code []
    simp [isCode_decState]
/-- V-U15, with its own table: SYM 61, SYM 62, ERR 51000005. -/
theorem test_decByte_pad_error :
    ((nextOf (exec (.decByte 0x41)
      { inPhase .dec with code := tableOf [(0x61, [false]), (0x62, [true])], lmax := 1, bitlen := 2 })).resp.map Token.wire) =
      [0x300000061, 0x300000062, 0xF51000005] := by decide +kernel
theorem witness_DecEndChecksTheStream :
    let s := { decState with dbytes := 2 }
    s.err = none ∧ s.phase = .dec ∧ s.dbytes.toNat = (s.bitlen.toNat + 7) / 8 ∧ s.dacc = [] ∧
    decState.dbytes.toNat ≠ (decState.bitlen.toNat + 7) / 8 ∧
    ({ legacyState with dacc := [false] } : State).dacc = List.replicate 1 false := by decide +kernel
theorem witness_StepKeepsTheInvariant : Inv { decState with port := [0x51000000] } ∧
    ∃ t, step { decState with port := [0x51000000] } = .next t ∧ (t.dbytes == 1) = true :=
  ⟨inv_port decState_inv _,
    exists_of_nextWith (p := fun t => t.dbytes == 1) (by decide +kernel)⟩
theorem packedIs_codesState : PackedIs [] codesState := by
  constructor <;> decide +kernel
theorem witness_PendIsTheTailOfThePackedBits : PackedIs [] { codesState with port := [0x30000062] } ∧
    ∃ t, step { codesState with port := [0x30000062] } = .next t ∧ (t.bitcnt == 3) = true :=
  ⟨⟨packedIs_codesState.count, packedIs_codesState.tail, packedIs_codesState.outside, packedIs_codesState.before⟩,
    exists_of_nextWith (p := fun t => t.bitcnt == 3) (by decide +kernel)⟩
theorem witness_StepKeepsTheAccumulatorBound : DaccOk { decState with port := [0x51000000] } ∧
    ∃ t, step { decState with port := [0x51000000] } = .next t ∧ (t.dbytes == 1) = true :=
  ⟨decState_inv.dacc, exists_of_nextWith (p := fun t => t.dbytes == 1) (by decide +kernel)⟩
theorem witness_RoundTrip : ([0x61] : List Sym) ≠ [] ∧
    ∃ u, runAll (compressCommands [0x61]) State.reset = .next u ∧ u.err.isNone = true :=
  ⟨by decide, exists_of_nextWith (p := fun t => t.err.isNone) (by decide +kernel)⟩

/-- The inner premise of the LEGACY statement, for the text "a": one code bit, the code "0", 7 pad bits, 8 symbols. -/
theorem witness_LegacyDecodeAppendsPhantoms :
    (∃ u, runAll (compressCommands [0x61]) State.reset = .next u ∧
      (u.err.isNone && u.resp == [.byte 0x00, .len 1] && u.codeOf 0x61 == ⟨true, [false]⟩) = true) ∧
    [0x61].length + padCount (1 : Word).toNat / [false].length ≤ 2 ^ 32 - 1 :=
  ⟨exists_of_nextWith (p := fun u => u.err.isNone && u.resp == [.byte 0x00, .len 1] && u.codeOf 0x61 == ⟨true, [false]⟩)
    (by decide +kernel), by decide⟩

end Sys2Proof.Tests
end

section
/-! PROOF. Every step answers a next state (00_scope.md R16, 30_encoding.md R80). -/

namespace Sys2Proof.Machine

/-- `unlessError` never stops. -/
theorem unlessError_answers (body : State → State) (s : State) : ∃ t, unlessError body s = .next t := by
  by_cases h : s.err = none
  · exact ⟨_, unlessError_of_none body h⟩
  · exact ⟨_, unlessError_of_error body h⟩

/-- Each command is written with one of the three frames, and no frame stops (40_control.md R90). -/
theorem exec_answers (i : Instr) (s : State) : ∃ t, exec i s = .next t := by
  cases i with
  | nop | clear | statusRead | freqRead | codeRead => exact ⟨_, rfl⟩
  | argLo | argHi =>
    simp only [exec]
    exact unlessError_answers _ _
  | freqAdd | freqSet | buildTree | genCodes | encSym | encFlush | tblBegin | tblAppend | tblInvert | decStart | decByte
  | decEnd =>
    simp only [exec]
    exact inPhases_answers _ _ _ _

/-- A step runs the decoded command, takes the malformed word, or waits (R90, R175). -/
theorem step_answers (s : State) : ∃ t, step s = .next t := by
  unfold step
  split
  · exact ⟨_, rfl⟩
  · split
    · exact exec_answers _ _
    · exact ⟨_, rfl⟩

/-- Settles O7: none of the three frames a command is written with stops the machine, nor does a malformed word or waiting. -/
theorem everyStepAnswersNext : Obligations.EveryStepAnswersNext := step_answers

end Sys2Proof.Machine
end

section
/-! PROOF. The shape of the pool BUILD_TREE makes (42_tree_codes.md R110 to R114): leaves first, children below their parent, and
every node outside the queue has a parent. -/

namespace Sys2Proof.Machine

/-! ### One merge, node by node -/

/-- What the merge of nodes a and b does to the node at index j: a and b leave the queue (R110). -/
def leaveQueue (a b j : Nat) (nd : Node) : Node := { nd with live := nd.live && decide (a ≠ j ∧ b ≠ j) }

@[simp] theorem leaveQueue_kind (a b j : Nat) (nd : Node) : (leaveQueue a b j nd).kind = nd.kind := rfl
@[simp] theorem leaveQueue_sym (a b j : Nat) (nd : Node) : (leaveQueue a b j nd).sym = nd.sym := rfl
@[simp] theorem leaveQueue_l (a b j : Nat) (nd : Node) : (leaveQueue a b j nd).l = nd.l := rfl
@[simp] theorem leaveQueue_r (a b j : Nat) (nd : Node) : (leaveQueue a b j nd).r = nd.r := rfl

theorem leaveQueue_live_eq_false {a b j : Nat} {nd : Node} :
    (leaveQueue a b j nd).live = false ↔ nd.live = false ∨ a = j ∨ b = j := by
  simp only [leaveQueue, Bool.and_eq_false_iff, decide_eq_false_iff_not]
  tauto

/-- The pool after the merge of nodes a and b: both leave the queue, and their parent stands behind the pool (R113). -/
def mergeNodes (a b : Nat) (w : Weight) (pool : List Node) : List Node :=
  pool.mapIdx (leaveQueue a b) ++ [internalNode a b w]

theorem extractMin_lt {pool pool' : List Node} {i : Nat} {w : Weight} (h : extractMin pool = some (i, w, pool')) :
    i < pool.length := by
  obtain ⟨nd, hi, -⟩ := minLive_some (extractMin_some h).1
  exact (List.getElem?_eq_some_iff.mp hi).1

/-- The two extractions of a merge as one equation, over a pool with two nodes in the queue. -/
theorem mergeStep_eq {pool q : List Node} (h : mergeStep pool = some q) :
    ∃ a b w, a < pool.length ∧ b < pool.length ∧ 1 < liveCount pool ∧
      q = mergeNodes a b w pool := by
  obtain ⟨a, b, wa, wb, p₁, p₂, h₁, h₂, rfl⟩ := mergeStep_some h
  have hb : b < pool.length := extractMin_length h₁ ▸ extractMin_lt h₂
  have hlive₁ := extractMin_liveCount h₁
  have hlive₂ := extractMin_liveCount h₂
  refine ⟨a, b, wa + wb, extractMin_lt h₁, hb, by omega, ?_⟩
  rw [mergeNodes]
  congr 1
  obtain ⟨-, rfl⟩ := extractMin_some h₁
  obtain ⟨-, rfl⟩ := extractMin_some h₂
  apply List.ext_getElem?
  intro j
  rw [List.getElem?_modify, List.getElem?_modify, List.getElem?_mapIdx]
  rcases pool[j]? with _ | nd
  · rfl
  · by_cases haj : a = j <;> by_cases hbj : b = j <;> simp [leaveQueue, haj, hbj]

/-- A node of the merged pool is an old one or the new parent. -/
theorem mergeNodes_getElem? {pool : List Node} {a b j : Nat} {w : Weight} {nd : Node}
    (h : (mergeNodes a b w pool)[j]? = some nd) :
    (∃ old, pool[j]? = some old ∧ nd = leaveQueue a b j old) ∨ (j = pool.length ∧ nd = internalNode a b w) := by
  rw [mergeNodes, List.getElem?_append, List.length_mapIdx] at h
  split at h
  · rw [List.getElem?_mapIdx, Option.map_eq_some_iff] at h
    obtain ⟨old, hold, rfl⟩ := h
    exact .inl ⟨old, hold, rfl⟩
  · rw [List.getElem?_singleton, Option.ite_none_right_eq_some] at h
    obtain ⟨hj, hnd⟩ := h
    exact .inr ⟨by omega, (Option.some.inj hnd).symm⟩

theorem mergeNodes_getElem?_old {pool : List Node} {j : Nat} {nd : Node} (a b : Nat) (w : Weight) (h : pool[j]? = some nd) :
    (mergeNodes a b w pool)[j]? = some (leaveQueue a b j nd) := by
  obtain ⟨hj, -⟩ := List.getElem?_eq_some_iff.mp h
  rw [mergeNodes, List.getElem?_append_left (by simpa using hj), List.getElem?_mapIdx, h, Option.map_some]

theorem mergeNodes_getElem?_new (pool : List Node) (a b : Nat) (w : Weight) :
    (mergeNodes a b w pool)[pool.length]? = some (internalNode a b w) := by
  simp [mergeNodes]

/-! ### The leaves of a pool are kept by merging -/

theorem leafSyms_mapIdx {f : Nat → Node → Node} (hkind : ∀ i nd, (f i nd).kind = nd.kind)
    (hsym : ∀ i nd, (f i nd).sym = nd.sym) (pool : List Node) : leafSyms (pool.mapIdx f) = leafSyms pool := by
  simp only [leafSyms]
  induction pool generalizing f with
  | nil => rfl
  | cons nd pool ih =>
    rw [List.mapIdx_cons, List.filterMap_cons, List.filterMap_cons, hkind, hsym,
      ih (fun i => hkind (i + 1)) fun i => hsym (i + 1)]

theorem mergeStep_leafSyms {pool q : List Node} (h : mergeStep pool = some q) : leafSyms q = leafSyms pool := by
  obtain ⟨a, b, w, -, -, -, rfl⟩ := mergeStep_eq h
  have hold : leafSyms (pool.mapIdx (leaveQueue a b)) = leafSyms pool :=
    leafSyms_mapIdx (leaveQueue_kind a b) (leaveQueue_sym a b) pool
  rw [mergeNodes, leafSyms, List.filterMap_append, ← leafSyms, hold]
  simp [internalNode]

theorem leafSyms_leaves (freq : Table Word) : leafSyms (leaves freq) = mapSyms freq := by
  rw [leaves_eq, leafSyms, List.filterMap_map]
  simp [Function.comp_def, leafNode]

/-- The leaves of the built pool are those of the counted symbols, in ascending order (R111). -/
theorem leafSyms_buildPool (freq : Table Word) : leafSyms (buildPool freq) = mapSyms freq :=
  mergeAll_induction (P := fun p => leafSyms p = mapSyms freq) (fun _ _ hp h => (mergeStep_leafSyms h).trans hp) 255
    (leafSyms_leaves freq)

theorem nodup_mapSyms (freq : Table Word) : (mapSyms freq).Nodup := by
  refine List.Nodup.filter _ (List.Nodup.map_on ?_ List.nodup_range)
  intro i hi j hj h
  have := congrArg BitVec.toNat h
  simp only [List.mem_range, BitVec.toNat_ofNat] at hi hj this
  omega

theorem mem_leafSyms {pool : List Node} {x : Sym} :
    x ∈ leafSyms pool ↔ ∃ (i : Nat) (nd : Node), pool[i]? = some nd ∧ nd.kind = .leaf ∧ nd.sym = x := by
  simp only [leafSyms, List.mem_filterMap, Option.ite_none_right_eq_some, Option.some.injEq]
  constructor
  · rintro ⟨nd, hmem, hk, hx⟩
    obtain ⟨i, hi⟩ := List.mem_iff_getElem?.mp hmem
    exact ⟨i, nd, hi, hk, hx⟩
  · rintro ⟨i, nd, hi, hk, hx⟩
    exact ⟨nd, List.mem_of_getElem? hi, hk, hx⟩

/-! ### The shape of the pool during the merge loop -/

/-- An internal node of the pool has node i as a child. -/
def HasParent (pool : List Node) (i : Nat) : Prop :=
  ∃ (v : Nat) (nd : Node), pool[v]? = some nd ∧ nd.kind = .internal ∧ (nd.l.val = i ∨ nd.r.val = i)

/-- Where a parent exists, the search for one finds a parent. -/
theorem HasParent.parentOf_isSome {pool : List Node} {i : Nat} (h : HasParent pool i) :
    ∃ nd v, parentOf pool i = some (nd, v) := by
  rcases hpar : parentOf pool i with _ | ⟨nd, v⟩
  · obtain ⟨v, nd, hv, hk, hchild⟩ := h
    have := parentOf_none hpar v nd hv hk
    omega
  · exact ⟨nd, v, rfl⟩

/-- What holds of the pool at every turn of the merge loop over n leaves: the leaves are nodes 0..n-1, children are older than their
parent, a node out of the queue has a parent, and the newest node is in the queue. -/
structure MergeShape (n : Nat) (pool : List Node) : Prop where
  count : pool.length + liveCount pool = 2 * n
  leavesFirst : ∀ (i : Nat) (nd : Node), pool[i]? = some nd → (nd.kind = .leaf ↔ i < n)
  childBelow : ∀ (v : Nat) (nd : Node), pool[v]? = some nd → nd.kind = .internal → nd.l.val < v ∧ nd.r.val < v
  parented : ∀ (i : Nat) (nd : Node), pool[i]? = some nd → nd.live = false → HasParent pool i
  lastLive : ∀ nd : Node, pool[pool.length - 1]? = some nd → nd.live = true

theorem liveCount_le_length (pool : List Node) : liveCount pool ≤ pool.length := List.countP_le_length

theorem mergeShape_leaves (freq : Table Word) : MergeShape (mapSyms freq).length (leaves freq) := by
  have hleaf : ∀ (i : Nat) (nd : Node), (leaves freq)[i]? = some nd →
      i < (mapSyms freq).length ∧ nd.kind = .leaf ∧ nd.live = true := by
    intro i nd h
    rw [leaves_eq, List.getElem?_map, Option.map_eq_some_iff] at h
    obtain ⟨x, hx, rfl⟩ := h
    exact ⟨(List.getElem?_eq_some_iff.mp hx).1, rfl, rfl⟩
  have hlen : (leaves freq).length = (mapSyms freq).length := by simp [leaves_eq]
  have hlive := leaves_liveCount freq
  refine ⟨by omega, fun i nd h => ?_, fun v nd h hk => ?_, fun i nd h hl => ?_, fun nd h => (hleaf _ nd h).2.2⟩
  · simp [hleaf i nd h]
  · simp [hleaf v nd h] at hk
  · simp [hleaf i nd h] at hl

/-- Every merge keeps the shape; at most 256 leaves, so that a new node's children fit the 511 indices (R9). -/
theorem MergeShape.of_mergeStep {n : Nat} (hn : n ≤ 256) {pool q : List Node} (hp : MergeShape n pool)
    (h : mergeStep pool = some q) : MergeShape n q := by
  obtain ⟨hlen, hlive⟩ := mergeStep_counts h
  obtain ⟨a, b, w, ha, hb, h2, rfl⟩ := mergeStep_eq h
  have hcount := hp.count
  have hle := liveCount_le_length pool
  have hal : (internalNode a b w).l.val = a := Nat.mod_eq_of_lt (by omega)
  have hbr : (internalNode a b w).r.val = b := Nat.mod_eq_of_lt (by omega)
  constructor
  case count => omega
  case leavesFirst =>
    intro i nd hi
    rcases mergeNodes_getElem? hi with ⟨old, hold, rfl⟩ | ⟨rfl, rfl⟩
    · exact hp.leavesFirst i old hold
    · simp only [internalNode, reduceCtorEq, false_iff]
      omega
  case childBelow =>
    intro v nd hv hk
    rcases mergeNodes_getElem? hv with ⟨old, hold, rfl⟩ | ⟨rfl, rfl⟩
    · exact hp.childBelow v old hold hk
    · rw [hal, hbr]
      exact ⟨ha, hb⟩
  case parented =>
    intro i nd hi hdead
    rcases mergeNodes_getElem? hi with ⟨old, hold, rfl⟩ | ⟨rfl, rfl⟩
    · rcases leaveQueue_live_eq_false.mp hdead with hdead | hab
      · obtain ⟨v, pnd, hv, hk, hchild⟩ := hp.parented i old hold hdead
        exact ⟨v, _, mergeNodes_getElem?_old a b w hv, hk, hchild⟩
      · exact ⟨_, _, mergeNodes_getElem?_new pool a b w, rfl, by omega⟩
    · simp [internalNode] at hdead
  case lastLive =>
    intro nd hlast
    rw [hlen, Nat.add_sub_cancel, mergeNodes_getElem?_new] at hlast
    cases hlast
    rfl

/-- The pool BUILD_TREE makes has the shape. -/
theorem mergeShape_buildPool (freq : Table Word) : MergeShape (mapSyms freq).length (buildPool freq) :=
  mergeAll_induction (fun _ _ => MergeShape.of_mergeStep (mapSyms_length_le freq)) 255 (mergeShape_leaves freq)

/-- With one node left in the queue, and that one the newest, the others are out of it. -/
theorem dead_of_lt_last {pool : List Node} {i : Nat} (hone : liveCount pool = 1) (hlt : i < pool.length - 1)
    (hlast : (pool[pool.length - 1]).live = true) : (pool[i]).live = false := by
  obtain rfl | ⟨older, newest, rfl⟩ := pool.eq_nil_or_concat
  · simp at hlt
  have hnewest : newest.live = true := by simpa using hlast
  have hnone : liveCount older = 0 := by
    simpa [liveCount, List.countP_append, hnewest] using hone
  have hi : i < older.length := by simpa using hlt
  have := List.countP_eq_zero.mp hnone older[i] (List.getElem_mem hi)
  simpa [List.getElem_append_left hi] using this

/-- With one node left in the queue, every node but the newest has a parent. -/
theorem MergeShape.parented_of_lt {n : Nat} {pool : List Node} (hp : MergeShape n pool) (hone : liveCount pool = 1) {i : Nat}
    (hi : i < pool.length - 1) : HasParent pool i := by
  have hi' : i < pool.length := by omega
  refine hp.parented i pool[i] (List.getElem?_eq_getElem hi') ?_
  have hlast := hp.lastLive _ (List.getElem?_eq_getElem (by omega))
  exact dead_of_lt_last hone hi hlast

/-! ### Paths in the built pool -/

theorem pathTo_mono_le {pool : List Node} {root fuel fuel' i : Nat} {p : Bits} (hle : fuel ≤ fuel')
    (h : pathTo pool root fuel i = some p) : pathTo pool root fuel' i = some p := by
  induction fuel', hle using Nat.le_induction with
  | base => exact h
  | succ m _ ih => exact pathTo_mono ih

/-- In a finished tree every node has a path. Each parent is a younger internal node, so at most as many steps lead to ROOT as there
are internal nodes younger than the node. -/
theorem MergeShape.pathTo_isSome {n : Nat} {pool : List Node} (hp : MergeShape n pool) (hone : liveCount pool = 1)
    {fuel i : Nat} (hi : i < pool.length) (hfuel : pool.length ≤ 1 + fuel + max i (n - 1)) :
    ∃ p, pathTo pool (pool.length - 1) fuel i = some p := by
  have hcount := hp.count
  induction fuel generalizing i with
  | zero =>
    have hroot : i = pool.length - 1 := by omega
    exact ⟨[], hroot ▸ pathTo_root _ _ _⟩
  | succ fuel ih =>
    by_cases hroot : i = pool.length - 1
    · exact ⟨[], hroot ▸ pathTo_root _ _ _⟩
    obtain ⟨nd, v, hpar⟩ := (hp.parented_of_lt hone (i := i) (by omega)).parentOf_isSome
    obtain ⟨hv, hk, hchild⟩ := parentOf_some hpar
    have hbelow := hp.childBelow v nd hv hk
    have hinternal : ¬ v < n := fun hlt => by simp [(hp.leavesFirst v nd hv).mpr hlt] at hk
    obtain ⟨q, hq⟩ := ih (i := v) (List.getElem?_eq_some_iff.mp hv).1 (by omega)
    exact ⟨q ++ [decide (nd.l.val ≠ i)], by simp only [pathTo, if_neg hroot, hpar, hq]⟩

/-- A leaf's code in a finished tree of n ≥ 2 leaves has 1 to n - 1 bits (R124). -/
theorem MergeShape.leafCode_length {n : Nat} (hn : n ≤ 256) {pool : List Node} (hp : MergeShape n pool)
    (hone : liveCount pool = 1) {i : Nat} (h2 : 2 ≤ n) (hi : i < n) :
    1 ≤ (leafCode pool (pool.length - 1) i).length ∧ (leafCode pool (pool.length - 1) i).length ≤ n - 1 := by
  have hcount := hp.count
  have hroot : i ≠ pool.length - 1 := by omega
  obtain ⟨p, hpath⟩ := hp.pathTo_isSome hone (fuel := n - 2 + 1) (i := i) (by omega) (by omega)
  have hcode : leafCode pool (pool.length - 1) i = p := by
    rw [leafCode, pathTo_mono_le (by simp only [Config.maxLen]; omega) hpath, Option.getD_some]
  rw [hcode]
  obtain ⟨nd, v, q, -, -, rfl⟩ := pathTo_succ hroot hpath
  have := pathTo_length_le hpath
  exact ⟨by simp, by omega⟩

end Sys2Proof.Machine
end

section
/-! PROOF. BUILD_TREE followed by GEN_CODES: the code of every counted symbol (42_tree_codes.md R117 to R119) and its length (R124). -/

namespace Sys2Proof.Machine

/-! ### BUILD_TREE's state -/

theorem buildPool_length_le (freq : Table Word) : (buildPool freq).length ≤ 511 := by
  have hle := mapSyms_length_le freq
  obtain ⟨hzero, hpos⟩ := buildPool_counts freq
  by_cases h : mapSyms freq = []
  · simp [hzero h]
  · have := (hpos h).1
    omega

/-- BUILD_TREE of an empty Frequency Map (R114, R116). -/
theorem buildTree_of_nil {s : State} (h : buildPool s.freq = []) :
    buildTree s = { s with nn := 0, root := 0, empty := true, phase := .tree } := if_pos h

/-- BUILD_TREE of any other (R110, R114). -/
theorem buildTree_of_ne_nil {s : State} (h : buildPool s.freq ≠ []) :
    buildTree s = { s with
      nodes := storePool s.nodes (buildPool s.freq)
      nn := Fin.ofNat 512 (buildPool s.freq).length
      root := Fin.ofNat 511 ((buildPool s.freq).length - 1)
      phase := .tree } := if_neg h

/-- BUILD_TREE leaves the built pool as the allocated nodes (R110). -/
theorem buildTree_pool (s : State) : (buildTree s).pool = buildPool s.freq := by
  by_cases h : buildPool s.freq = []
  · simp [buildTree_of_nil h, State.pool, h]
  · have hlen := buildPool_length_le s.freq
    have hmod : (buildPool s.freq).length % 512 = (buildPool s.freq).length := Nat.mod_eq_of_lt (by omega)
    simp only [buildTree_of_ne_nil h, State.pool, Fin.val_ofNat, hmod]
    exact pool_storePool s.nodes _ hlen

theorem buildTree_root (s : State) : (buildTree s).root.val = (buildPool s.freq).length - 1 := by
  by_cases h : buildPool s.freq = []
  · simp [buildTree_of_nil h, h]
  · have hlen := buildPool_length_le s.freq
    rw [buildTree_of_ne_nil h]
    exact Nat.mod_eq_of_lt (by omega)

theorem buildTree_empty {s : State} (h : mapSyms s.freq ≠ []) : (buildTree s).empty = s.empty := by
  have hlen := ((buildPool_counts s.freq).2 h).1
  have hpos := List.length_pos_iff.mpr h
  rw [buildTree_of_ne_nil (List.ne_nil_of_length_pos (by omega))]

theorem buildTree_err (s : State) : (buildTree s).err = s.err := by
  by_cases h : buildPool s.freq = []
  · rw [buildTree_of_nil h]
  · rw [buildTree_of_ne_nil h]

theorem buildTree_phase (s : State) : (buildTree s).phase = .tree := by
  by_cases h : buildPool s.freq = []
  · rw [buildTree_of_nil h]
  · rw [buildTree_of_ne_nil h]

/-- ROOT names the newest node of the built pool (R114). -/
theorem buildTree_rootNode {s : State} (h : mapSyms s.freq ≠ []) :
    (buildPool s.freq)[(buildPool s.freq).length - 1]? = some ((buildTree s).nodes[(buildTree s).root]) := by
  have hlen := ((buildPool_counts s.freq).2 h).1
  have hpos := List.length_pos_iff.mpr h
  have hnn : (buildTree s).nn.val = (buildPool s.freq).length := by rw [← pool_length, buildTree_pool]
  rw [← buildTree_root, ← buildTree_pool]
  exact pool_getElem? (buildTree s) (buildTree s).root (by rw [buildTree_root]; omega)

/-- ROOT is a leaf exactly when one symbol is counted (R119). -/
theorem buildTree_rootNode_leaf_iff {s : State} (h : mapSyms s.freq ≠ []) :
    ((buildTree s).nodes[(buildTree s).root]).kind = .leaf ↔ (mapSyms s.freq).length = 1 := by
  have hlen := ((buildPool_counts s.freq).2 h).1
  have hpos := List.length_pos_iff.mpr h
  rw [(mergeShape_buildPool s.freq).leavesFirst _ _ (buildTree_rootNode h)]
  omega

/-! ### GEN_CODES' table -/

/-- The only counted symbol gets the code "0" (R119). -/
theorem codeOf_generated_of_single {s : State} (hempty : s.empty = false) {x : Sym} (h : mapSyms s.freq = [x]) :
    (genCodes (buildTree s)).codeOf x = ⟨true, [false]⟩ := by
  have hne : mapSyms s.freq ≠ [] := by simp [h]
  have hleaf := (buildTree_rootNode_leaf_iff hne).mpr (by simp [h])
  have hsym : ((buildTree s).nodes[(buildTree s).root]).sym = x := by
    have hmem : ((buildTree s).nodes[(buildTree s).root]).sym ∈ leafSyms (buildPool s.freq) :=
      mem_leafSyms.mpr ⟨_, _, buildTree_rootNode hne, hleaf, rfl⟩
    simpa [leafSyms_buildPool, h] using hmem
  have hempty' : (buildTree s).empty = false := (buildTree_empty hne).trans hempty
  simp only [genCodes, hempty', State.codeOf, genTable, hleaf, hsym, if_true, Bool.false_eq_true, if_false]
  exact entry_writeCodes_of_mem (by simp) (by simp)

/-- With two counted symbols or more, the symbol of leaf i gets the leaf's code (R117, R118). -/
theorem codeOf_generated_of_leaf {s : State} (hempty : s.empty = false) (h2 : 2 ≤ (mapSyms s.freq).length) {i : Nat} {nd : Node}
    (hi : (buildPool s.freq)[i]? = some nd) (hk : nd.kind = .leaf) :
    (genCodes (buildTree s)).codeOf nd.sym = ⟨true, leafCode (buildPool s.freq) ((buildPool s.freq).length - 1) i⟩ := by
  have hne : mapSyms s.freq ≠ [] := List.ne_nil_of_length_pos (by omega)
  have hinternal : ((buildTree s).nodes[(buildTree s).root]).kind ≠ .leaf := fun hleaf => by
    have := (buildTree_rootNode_leaf_iff hne).mp hleaf
    omega
  have hempty' : (buildTree s).empty = false := (buildTree_empty hne).trans hempty
  simp only [genCodes, hempty', State.codeOf, genTable, if_neg hinternal, Bool.false_eq_true, if_false, buildTree_pool,
    buildTree_root]
  refine entry_writeCodes_of_mem (mem_leafCodes.mpr ⟨i, nd, hi, hk, rfl, rfl⟩) ?_
  rw [leafCodes_syms, leafSyms_buildPool]
  exact nodup_mapSyms s.freq

/-! ### The run -/

theorem exec_buildTree_of_freq {s : State} (he : s.err = none) (hp : s.phase = .freq) :
    exec .buildTree s = .next (buildTree s) :=
  inPhases_of_ok (body := fun s => .ok (buildTree s)) he (by simp [hp]) rfl

theorem exec_genCodes_of_tree {s : State} (he : s.err = none) (hp : s.phase = .tree) :
    exec .genCodes s = .next (genCodes s) :=
  inPhases_of_ok (body := fun s => .ok (genCodes s)) he (by simp [hp]) rfl

/-- BUILD_TREE and GEN_CODES complete, one after the other, from every FREQ state without an error. -/
theorem runAll_buildTree_genCodes {s : State} (he : s.err = none) (hp : s.phase = .freq) :
    runAll [.buildTree, .genCodes] s = .next (genCodes (buildTree s)) := by
  rw [runAll_cons (exec_buildTree_of_freq he hp),
    runAll_cons (exec_genCodes_of_tree ((buildTree_err s).trans he) (buildTree_phase s)), runAll]

/-- Settles O35: a single symbol's code is "0"; otherwise a leaf's path visits internal nodes only, each younger than the one before,
and there are n - 1 of them. -/
theorem generatedCodeLengthsAreBounded : Obligations.GeneratedCodeLengthsAreBounded := by
  intro s t hinv he hp hrun x hx
  rw [runAll_buildTree_genCodes he hp, Host.Outcome.next.injEq] at hrun
  subst hrun
  obtain ⟨-, -, -, hempty⟩ := hinv.freqPhase hp
  have hmem : x ∈ mapSyms s.freq := mem_mapSyms.mpr hx
  have hle := mapSyms_length_le s.freq
  have hpos := List.length_pos_of_mem hmem
  by_cases h1 : (mapSyms s.freq).length = 1
  · obtain ⟨y, hy⟩ := List.length_eq_one_iff.mp h1
    obtain rfl : x = y := by simpa [hy] using hmem
    rw [codeOf_generated_of_single hempty hy]
    simp [h1]
  · have h2 : 2 ≤ (mapSyms s.freq).length := by omega
    obtain ⟨i, nd, hi, hk, rfl⟩ := mem_leafSyms.mp (leafSyms_buildPool s.freq ▸ hmem)
    have hshape := mergeShape_buildPool s.freq
    have hone := ((buildPool_counts s.freq).2 (List.ne_nil_of_mem hmem)).2
    obtain ⟨hlow, hhigh⟩ := hshape.leafCode_length hle hone h2 ((hshape.leavesFirst i nd hi).mp hk)
    rw [codeOf_generated_of_leaf hempty h2 hi hk]
    exact ⟨hlow, leafCode_length_le _ _ _, fun _ => hhigh, fun h => absurd h h1⟩

end Sys2Proof.Machine
end

section
/-! PROOF. What a command and a step can do, said once: a command is discarded, raises its error, or has its effect
(40_control.md R90). -/

namespace Sys2Proof.Machine

/-! ### The bodies past the phase check -/

theorem freqAdd_ok {x : Sym} {s t : State} (h : freqAdd x s = .ok t) :
    (s.freqOf x).toNat ≠ Config.maxCount ∧ t = { s with freq := setEntry s.freq x (s.freqOf x + 1) } := by
  unfold freqAdd at h
  split at h
  · cases h
  · exact ⟨‹_›, (Except.ok.inj h).symm⟩

theorem encSym_ok {x : Sym} {s t : State} (h : encSym x s = .ok t) :
    (s.codeOf x).valid = true ∧ s.bitcnt.toNat + (s.codeOf x).bits.length ≤ Config.maxCount ∧
      t = { s with
        bitcnt := s.bitcnt + BitVec.ofNat 32 (s.codeOf x).bits.length
        pend := leftover (s.pend ++ (s.codeOf x).bits)
        resp := s.resp ++ (fullBytes (s.pend ++ (s.codeOf x).bits)).map .byte } := by
  simp only [encSym] at h
  split at h
  · cases h
  · split at h
    · cases h
    · exact ⟨Bool.eq_true_of_not_eq_false ‹_›, Nat.le_of_not_lt ‹_›, (Except.ok.inj h).symm⟩

theorem tblAppend_ok {bits : Bits} {s t : State} (h : tblAppend bits s = .ok t) :
    (s.codeOf s.sel).bits.length + bits.length ≤ Config.maxLen ∧
      t = { s with code := setEntry s.code s.sel ⟨true, (s.codeOf s.sel).bits ++ bits⟩ } := by
  simp only [tblAppend] at h
  split at h
  · cases h
  · exact ⟨Nat.le_of_not_lt ‹_›, (Except.ok.inj h).symm⟩

theorem tblInvert_ok {s t : State} (h : tblInvert s = .ok t) :
    [] ∉ validCodes s.code ∧ (validCodes s.code).Nodup ∧
      t = { s with lmax := BitVec.ofNat 8 (longest s.code), phase := .rmap } := by
  unfold tblInvert at h
  split at h
  · cases h
  · split at h
    · cases h
    · exact ⟨‹_›, not_not.mp ‹_›, (Except.ok.inj h).symm⟩

theorem decEnd_ok {s t : State} (h : decEnd s = .ok t) :
    mayEnd s = true ∧ t = { s with dacc := [], phase := .decDone, resp := s.resp ++ [.fin s.dsyms] } := by
  unfold decEnd at h
  split at h
  · exact ⟨‹_›, (Except.ok.inj h).symm⟩
  · cases h

/-! ### One command -/

/-- What a command does when it is neither discarded nor raises an error, with what the rules say must hold for it. -/
inductive Effect (s : State) : Instr → State → Prop where
  | nop : Effect s .nop s
  | clear : Effect s .clear (clearSession s)
  | statusRead : Effect s .statusRead (s.emit [.status (statusWord s)])
  | argLo (v : Half) (he : s.err = none) : Effect s (.argLo v) { s with arg := putLo s.arg v }
  | argHi (v : Half) (he : s.err = none) : Effect s (.argHi v) { s with arg := putHi s.arg v }
  | freqAdd (x : Sym) (he : s.err = none) (hp : s.phase = .freq) (hx : (s.freqOf x).toNat ≠ Config.maxCount) :
      Effect s (.freqAdd x) { s with freq := setEntry s.freq x (s.freqOf x + 1) }
  | freqSet (x : Sym) (he : s.err = none) (hp : s.phase = .freq) :
      Effect s (.freqSet x) { s with freq := setEntry s.freq x s.arg }
  | freqRead (x : Sym) : Effect s (.freqRead x) (s.emit [.freq (s.freqOf x)])
  | buildTree (he : s.err = none) (hp : s.phase = .freq) : Effect s .buildTree (buildTree s)
  | genCodes (he : s.err = none) (hp : s.phase = .tree) : Effect s .genCodes (genCodes s)
  | codeRead (x : Sym) : Effect s (.codeRead x) (s.emit (codeTokens (s.codeOf x)))
  | encSym (x : Sym) (he : s.err = none) (hp : s.phase = .codes) (hv : (s.codeOf x).valid = true)
      (hfits : s.bitcnt.toNat + (s.codeOf x).bits.length ≤ Config.maxCount) :
      Effect s (.encSym x) { s with
        bitcnt := s.bitcnt + BitVec.ofNat 32 (s.codeOf x).bits.length
        pend := leftover (s.pend ++ (s.codeOf x).bits)
        resp := s.resp ++ (fullBytes (s.pend ++ (s.codeOf x).bits)).map .byte }
  | encFlush (he : s.err = none) (hp : s.phase = .codes) :
      Effect s .encFlush { s with pend := [], phase := .encDone, resp := s.resp ++ flushTokens s }
  | tblBegin (x : Sym) (he : s.err = none) (hp : s.phase = .freq ∨ s.phase = .tblLoad) :
      Effect s (.tblBegin x) { s with code := setEntry s.code x ⟨true, []⟩, sel := x, phase := .tblLoad }
  | tblAppend (bits : Bits) (he : s.err = none) (hp : s.phase = .tblLoad)
      (hfits : (s.codeOf s.sel).bits.length + bits.length ≤ Config.maxLen) :
      Effect s (.tblAppend bits) { s with code := setEntry s.code s.sel ⟨true, (s.codeOf s.sel).bits ++ bits⟩ }
  | tblInvert (he : s.err = none) (hp : s.phase = .freq ∨ s.phase = .encDone ∨ s.phase = .tblLoad)
      (hne : [] ∉ validCodes s.code) (hnodup : (validCodes s.code).Nodup) :
      Effect s .tblInvert { s with lmax := BitVec.ofNat 8 (longest s.code), phase := .rmap }
  | decStart (legacy : Bool) (he : s.err = none) (hp : s.phase = .rmap) :
      Effect s (.decStart legacy) { s with
        legacy := legacy, bitlen := s.arg, dacc := [], dbytes := 0, dsyms := 0, phase := .dec }
  | decByte (b : Byte) (a : Scan) (he : s.err = none) (hp : s.phase = .dec)
      (hscan : scanBits s (8 * s.dbytes.toNat) (byteBits b) ⟨s.dacc, s.dsyms, []⟩ = .ok a) :
      Effect s (.decByte b) { s with
        dacc := a.dacc, dsyms := a.dsyms, dbytes := s.dbytes + 1, resp := s.resp ++ a.out }
  | decEnd (he : s.err = none) (hp : s.phase = .dec) (hend : mayEnd s = true) :
      Effect s .decEnd { s with dacc := [], phase := .decDone, resp := s.resp ++ [.fin s.dsyms] }

/-- Everything a command can do: nothing in the error state (60_exceptions.md R164), raise an error (R162), or have its effect. -/
inductive CommandOutcome (s : State) (i : Instr) : State → Prop where
  | discarded (hgate : runsInErrorState i = false) (he : s.err ≠ none) : CommandOutcome s i s
  | raised (hgate : runsInErrorState i = false) (he : s.err = none) (r : Raise) : CommandOutcome s i (raiseError i.opcode r s)
  | effect (t : State) (h : Effect s i t) : CommandOutcome s i t

/-- A command of the `inPhases` kind, its body's success given as an effect. -/
theorem inPhases_outcome {i : Instr} {legal : List Phase} {body : State → Except Raise State} {s t : State}
    (h : inPhases i.opcode legal body s = .next t) (hgate : runsInErrorState i = false)
    (heffect : s.err = none → s.phase ∈ legal → body s = .ok t → Effect s i t) : CommandOutcome s i t := by
  rcases inPhases_cases h with ⟨he, rfl⟩ | ⟨he, hp, hb⟩ | ⟨r, he, -, -, rfl⟩ | ⟨he, -, rfl⟩
  · exact .discarded hgate he
  · exact .effect _ (heffect he hp hb)
  · exact .raised hgate he r
  · exact .raised hgate he _

/-- A command of the `unlessError` kind. -/
theorem unlessError_outcome {i : Instr} {body : State → State} {s t : State} (h : unlessError body s = .next t)
    (hgate : runsInErrorState i = false) (heffect : s.err = none → Effect s i (body s)) : CommandOutcome s i t := by
  by_cases he : s.err = none
  · rw [unlessError_of_none body he, Host.Outcome.next.injEq] at h
    exact h ▸ .effect _ (heffect he)
  · rw [unlessError_of_error body he, Host.Outcome.next.injEq] at h
    exact h ▸ .discarded hgate he

theorem exec_outcome {i : Instr} {s t : State} (h : exec i s = .next t) : CommandOutcome s i t := by
  cases i with
  | nop => exact Host.Outcome.next.inj h ▸ .effect _ .nop
  | clear => exact Host.Outcome.next.inj h ▸ .effect _ .clear
  | statusRead => exact Host.Outcome.next.inj h ▸ .effect _ .statusRead
  | freqRead x => exact Host.Outcome.next.inj h ▸ .effect _ (.freqRead x)
  | codeRead x => exact Host.Outcome.next.inj h ▸ .effect _ (.codeRead x)
  | argLo v =>
    simp only [exec, execArgLo] at h
    exact unlessError_outcome h rfl (.argLo v)
  | argHi v =>
    simp only [exec, execArgHi] at h
    exact unlessError_outcome h rfl (.argHi v)
  | freqAdd x =>
    refine inPhases_outcome h rfl fun he hp hb => ?_
    obtain ⟨hx, rfl⟩ := freqAdd_ok hb
    exact .freqAdd x he (by simpa using hp) hx
  | freqSet x =>
    simp only [exec, execFreqSet] at h
    refine inPhases_outcome h rfl fun he hp hb => ?_
    exact Except.ok.inj hb ▸ .freqSet x he (by simpa using hp)
  | buildTree =>
    simp only [exec, execBuildTree] at h
    refine inPhases_outcome h rfl fun he hp hb => ?_
    exact Except.ok.inj hb ▸ .buildTree he (by simpa using hp)
  | genCodes =>
    simp only [exec, execGenCodes] at h
    refine inPhases_outcome h rfl fun he hp hb => ?_
    exact Except.ok.inj hb ▸ .genCodes he (by simpa using hp)
  | encSym x =>
    refine inPhases_outcome h rfl fun he hp hb => ?_
    obtain ⟨hv, hfits, rfl⟩ := encSym_ok hb
    exact .encSym x he (by simpa using hp) hv hfits
  | encFlush =>
    simp only [exec, execEncFlush] at h
    refine inPhases_outcome h rfl fun he hp hb => ?_
    exact Except.ok.inj hb ▸ .encFlush he (by simpa using hp)
  | tblBegin x =>
    simp only [exec, execTblBegin] at h
    refine inPhases_outcome h rfl fun he hp hb => ?_
    exact Except.ok.inj hb ▸ .tblBegin x he (by simpa using hp)
  | tblAppend bits =>
    refine inPhases_outcome h rfl fun he hp hb => ?_
    obtain ⟨hfits, rfl⟩ := tblAppend_ok hb
    exact .tblAppend bits he (by simpa using hp) hfits
  | tblInvert =>
    refine inPhases_outcome h rfl fun he hp hb => ?_
    obtain ⟨hne, hnodup, rfl⟩ := tblInvert_ok hb
    exact .tblInvert he (by simpa using hp) hne hnodup
  | decStart legacy =>
    simp only [exec, execDecStart] at h
    refine inPhases_outcome h rfl fun he hp hb => ?_
    exact Except.ok.inj hb ▸ .decStart legacy he (by simpa using hp)
  | decByte b =>
    refine inPhases_outcome h rfl fun he hp hb => ?_
    obtain ⟨a, hscan, -, -, rfl⟩ := decByte_ok hb
    exact .decByte b a he (by simpa using hp) hscan
  | decEnd =>
    refine inPhases_outcome h rfl fun he hp hb => ?_
    obtain ⟨hend, rfl⟩ := decEnd_ok hb
    exact .decEnd he (by simpa using hp) hend

/-! ### One step -/

/-- Everything a step can do (R90, R175): wait, take a malformed word, or run the command of the first waiting word. -/
inductive StepOutcome (s : State) : State → Prop where
  | idle (hport : s.port = []) : StepOutcome s s
  | malformed (w : Word) (rest : List Word) (e : Malformed) (hport : s.port = w :: rest) (hdec : decode w = .error e) :
      StepOutcome s (takeMalformed w { s with port := rest })
  | command (w : Word) (rest : List Word) (i : Instr) (t : State) (hport : s.port = w :: rest) (hdec : decode w = .ok i)
      (h : CommandOutcome { s with port := rest } i t) : StepOutcome s t

theorem step_idle {s : State} (h : s.port = []) : step s = .next s := by
  simp only [step, fetch_nil h]

theorem step_malformed {s : State} {w : Word} {rest : List Word} {e : Malformed} (h : s.port = w :: rest)
    (hdec : decode w = .error e) : step s = .next (takeMalformed w { s with port := rest }) := by
  simp only [step, fetch_cons h, hdec]

theorem step_command {s : State} {w : Word} {rest : List Word} {i : Instr} (h : s.port = w :: rest)
    (hdec : decode w = .ok i) : step s = exec i { s with port := rest } := by
  simp only [step, fetch_cons h, hdec]

theorem step_outcome {s t : State} (h : step s = .next t) : StepOutcome s t := by
  rcases hport : s.port with _ | ⟨w, rest⟩
  · rw [step_idle hport] at h
    exact Host.Outcome.next.inj h ▸ .idle hport
  · rcases hdec : decode w with e | i
    · rw [step_malformed hport hdec] at h
      exact Host.Outcome.next.inj h ▸ .malformed w rest e hport hdec
    · rw [step_command hport hdec] at h
      exact .command w rest i t hport hdec (exec_outcome h)

/-- A malformed word is discarded in the error state and raises ILLEGAL otherwise (R164, R165). -/
theorem takeMalformed_cases (w : Word) (s : State) :
    takeMalformed w s = s ∨ takeMalformed w s = raiseError (wordOpcode w) (.plain .illegal) s := by
  unfold takeMalformed
  split
  · exact .inl rfl
  · exact .inr rfl

/-- A property that consuming a word, error entry and every effect keep is kept by every step. -/
theorem step_keeps {P : State → Prop} (hport : ∀ s rest, P s → P { s with port := rest })
    (hraise : ∀ s op r, P s → P (raiseError op r s)) (heffect : ∀ s i t, P s → Effect s i t → P t) {s t : State}
    (hs : P s) (h : step s = .next t) : P t := by
  cases step_outcome h with
  | idle => exact hs
  | malformed w rest =>
    rcases takeMalformed_cases w { s with port := rest } with heq | heq
    · rw [heq]
      exact hport s rest hs
    · rw [heq]
      exact hraise _ _ _ (hport s rest hs)
  | command w rest i _ _ _ h =>
    cases h with
    | discarded => exact hport s rest hs
    | raised _ _ r => exact hraise _ _ r (hport s rest hs)
    | effect _ h => exact heffect _ i t (hport s rest hs) h

end Sys2Proof.Machine
end

section
/-! PROOF. What every command and every step leaves unchanged: RESP but for appended tokens (10_state.md R32), the elements a
command does not write (R37), the entries it does not name (20_memory.md R57), the Frequency Map outside FREQ (R21). -/

namespace Sys2Proof.Machine

/-! ### GEN_CODES' state -/

theorem genCodes_of_empty {s : State} (h : s.empty = true) : genCodes s = { s with lmax := 0, phase := .codes } := if_pos h

theorem genCodes_of_not_empty {s : State} (h : s.empty = false) :
    genCodes s = { s with
      code := genTable s, lmax := BitVec.ofNat 8 (longest (genTable s)), phase := .codes } := if_neg (by simp [h])

/-! ### RESP -/

theorem buildTree_resp (s : State) : (buildTree s).resp = s.resp := by
  by_cases h : buildPool s.freq = []
  · rw [buildTree_of_nil h]
  · rw [buildTree_of_ne_nil h]

theorem genCodes_resp (s : State) : (genCodes s).resp = s.resp := by
  cases h : s.empty
  · rw [genCodes_of_not_empty h]
  · rw [genCodes_of_empty h]

theorem Effect.resp {i : Instr} {s t : State} (h : Effect s i t) : ∃ out, t.resp = s.resp ++ out := by
  cases h with
  | statusRead | freqRead | codeRead | encSym | encFlush | decByte | decEnd => exact ⟨_, rfl⟩
  | buildTree => exact ⟨[], by rw [buildTree_resp, List.append_nil]⟩
  | genCodes => exact ⟨[], by rw [genCodes_resp, List.append_nil]⟩
  | nop | clear | argLo | argHi | freqAdd | freqSet | tblBegin | tblAppend | tblInvert | decStart =>
    exact ⟨[], (List.append_nil _).symm⟩

/-- Settles O8: consuming a word keeps RESP, error entry and every effect append to it, and appending twice is appending. -/
theorem stepOnlyAppendsToResp : Obligations.StepOnlyAppendsToResp := by
  intro s t h
  refine step_keeps (P := fun u => ∃ out, u.resp = s.resp ++ out) (fun _ _ hu => hu) ?_ ?_ ⟨[], (List.append_nil _).symm⟩ h
  · rintro u op r ⟨out, hu⟩
    exact ⟨out ++ (r.emitted ++ [.err op r.code]), by rw [raiseError_resp, hu, List.append_assoc, List.append_assoc]⟩
  · rintro u i v ⟨out, hu⟩ heff
    obtain ⟨out', hv⟩ := heff.resp
    exact ⟨out ++ out', by rw [hv, hu, List.append_assoc]⟩

/-! ### Frames -/

theorem Element.same_refl (el : Element) (s : State) : el.same s s := by cases el <;> rfl

theorem Element.same_emit (el : Element) (s : State) (out : List Token) : el.same s (s.emit out) := by cases el <;> rfl

theorem buildTree_frame (s : State) {el : Element} (hel : el ∉ writes .buildTree) : el.same s (buildTree s) := by
  by_cases h : buildPool s.freq = []
  · rw [buildTree_of_nil h]
    cases el <;> simp [writes] at hel <;> rfl
  · rw [buildTree_of_ne_nil h]
    cases el <;> simp [writes] at hel <;> rfl

theorem genCodes_frame (s : State) {el : Element} (hel : el ∉ writes .genCodes) : el.same s (genCodes s) := by
  cases h : s.empty
  · rw [genCodes_of_not_empty h]
    cases el <;> simp [writes] at hel <;> rfl
  · rw [genCodes_of_empty h]
    cases el <;> simp [writes] at hel <;> rfl

/-- The frame of a command's effect (R37). -/
theorem Effect.frame {i : Instr} {s t : State} (h : Effect s i t) {el : Element} (hel : el ∉ writes i) : el.same s t := by
  cases h with
  | nop => exact el.same_refl s
  | statusRead | freqRead | codeRead => exact el.same_emit s _
  | buildTree => exact buildTree_frame s hel
  | genCodes => exact genCodes_frame s hel
  | clear | argLo | argHi | freqAdd | freqSet | encSym | encFlush | tblBegin | tblAppend | tblInvert | decStart | decByte
  | decEnd => cases el <;> simp [writes] at hel <;> rfl

theorem CommandOutcome.frame {i : Instr} {s t : State} (h : CommandOutcome s i t) {el : Element} (hel : el ∉ writes i) :
    el.same s t := by
  cases h with
  | discarded => exact el.same_refl s
  | raised => exact raiseError_same _ _ _ el
  | effect _ h => exact h.frame hel

/-- Settles O17: discarding changes nothing, error entry changes ERR and RESP only, and every effect keeps to its row of R37. -/
theorem commandsWriteOnlyTheirElements : Obligations.CommandsWriteOnlyTheirElements :=
  fun _ _ _ _ h hel => (exec_outcome h).frame hel

/-! ### Single entries -/

/-- Which commands write FREQ (R37). -/
theorem freq_mem_writes {i : Instr} : Element.freq ∈ writes i ↔ i = .clear ∨ ∃ x, i = .freqAdd x ∨ i = .freqSet x := by
  cases i <;> simp [writes]

/-- Which commands write CODE (R37). -/
theorem code_mem_writes {i : Instr} : Element.code ∈ writes i ↔
    i = .clear ∨ i = .genCodes ∨ (∃ x, i = .tblBegin x) ∨ ∃ bits, i = .tblAppend bits := by
  cases i <;> simp [writes]

/-- FREQ_ADD's and FREQ_SET's effects touch one count. -/
theorem Effect.freqOf_of_ne {i : Instr} {s t : State} (h : Effect s i t) {x : Sym} (hclear : i ≠ .clear)
    (hx : freqWritten i ≠ some x) : t.freqOf x = s.freqOf x := by
  by_cases hw : Element.freq ∈ writes i
  · obtain hc | ⟨y, rfl | rfl⟩ := freq_mem_writes.mp hw
    · exact absurd hc hclear
    all_goals
      cases h
      exact entry_setEntry_of_ne _ _ fun hy => hx (congrArg some hy.symm)
  · exact congrArg (entry · x) (h.frame hw)

/-- TBL_BEGIN's and TBL_APPEND's effects touch one code entry. -/
theorem Effect.codeOf_of_ne {i : Instr} {s t : State} (h : Effect s i t) {x : Sym} (hclear : i ≠ .clear)
    (hgen : i ≠ .genCodes) (hx : codeWritten s i ≠ some x) : t.codeOf x = s.codeOf x := by
  by_cases hw : Element.code ∈ writes i
  · obtain hc | hg | ⟨y, rfl⟩ | ⟨bits, rfl⟩ := code_mem_writes.mp hw
    · exact absurd hc hclear
    · exact absurd hg hgen
    all_goals
      cases h
      exact entry_setEntry_of_ne _ _ fun hy => hx (congrArg some hy.symm)
  · exact congrArg (entry · x) (h.frame hw)

/-- Settles O18: a table is left alone by what does not write it, and a write of one entry keeps every other. -/
theorem tableWritesTouchOneEntry : Obligations.TableWritesTouchOneEntry := by
  intro i s t x h hclear
  cases exec_outcome h with
  | discarded | raised => exact ⟨fun _ => rfl, fun _ _ => rfl⟩
  | effect _ heff => exact ⟨heff.freqOf_of_ne hclear, heff.codeOf_of_ne hclear⟩

/-- Settles O19: besides CLEAR only FREQ_ADD and FREQ_SET write FREQ, and both have their effect in phase FREQ only. -/
theorem frequencyMapIsFrozen : Obligations.FrequencyMapIsFrozen := by
  intro i s t h hclear hp
  cases exec_outcome h with
  | discarded | raised => rfl
  | effect _ heff =>
    by_cases hw : Element.freq ∈ writes i
    · obtain hc | ⟨y, rfl | rfl⟩ := freq_mem_writes.mp hw
      · exact absurd hc hclear
      all_goals
        cases heff
        exact absurd ‹s.phase = .freq› hp
    · exact heff.frame hw

end Sys2Proof.Machine
end

section
/-! PROOF. What the host does between two steps commutes with the step (10_state.md R32, 20_memory.md R59). -/

namespace Sys2Proof.Machine

/-- Both things the host does between two steps: remove k tokens from the front of RESP, and send words behind those that wait. -/
def hostAct (k : Nat) (ws : List Word) (s : State) : State := { s with resp := s.resp.drop k, port := s.port ++ ws }

theorem hostDrain_eq (k : Nat) (s : State) : hostDrain k s = hostAct k [] s := by
  simp only [hostDrain, hostAct, List.append_nil]

theorem hostSend_eq (w : Word) (s : State) : hostSend w s = hostAct 0 [w] s := rfl

section HostAct

variable {k : Nat} (ws : List Word) {s t : State}

theorem emit_hostAct (hk : k ≤ s.resp.length) (out : List Token) :
    (hostAct k ws s).emit out = hostAct k ws (s.emit out) := by
  simp only [hostAct, State.emit, List.drop_append_of_le_length hk]

theorem raiseError_hostAct (hk : k ≤ s.resp.length) (op : Byte) (r : Raise) :
    raiseError op r (hostAct k ws s) = hostAct k ws (raiseError op r s) := by
  simp only [hostAct, raiseError, List.append_assoc, List.drop_append_of_le_length hk]

theorem unlessError_hostAct {body : State → State} (hbody : body (hostAct k ws s) = hostAct k ws (body s))
    (h : unlessError body s = .next t) : unlessError body (hostAct k ws s) = .next (hostAct k ws t) := by
  by_cases he : s.err = none
  · rw [unlessError_of_none body he, Host.Outcome.next.injEq] at h
    rw [unlessError_of_none body (s := hostAct k ws s) he, hbody, h]
  · rw [unlessError_of_error body he, Host.Outcome.next.injEq] at h
    rw [unlessError_of_error body (s := hostAct k ws s) he, h]

/-- A command of the `inPhases` kind commutes with the host when its body does. -/
theorem inPhases_hostAct (hk : k ≤ s.resp.length) {op : Byte} {legal : List Phase} {body : State → Except Raise State}
    (hbody : body (hostAct k ws s) = (body s).map (hostAct k ws)) (h : inPhases op legal body s = .next t) :
    inPhases op legal body (hostAct k ws s) = .next (hostAct k ws t) := by
  rcases inPhases_cases h with ⟨he, rfl⟩ | ⟨he, hp, hb⟩ | ⟨r, he, hp, hb, rfl⟩ | ⟨he, hp, rfl⟩
  · exact inPhases_of_error op legal body he
  · exact inPhases_of_ok he hp (by rw [hbody, hb]; rfl)
  · rw [← raiseError_hostAct ws hk]
    exact inPhases_of_raise he hp (by rw [hbody, hb]; rfl)
  · rw [← raiseError_hostAct ws hk]
    exact inPhases_of_phase op body he hp

/-! ### The bodies read neither RESP nor the port -/

theorem freqAdd_hostAct (x : Sym) : freqAdd x (hostAct k ws s) = (freqAdd x s).map (hostAct k ws) := by
  simp only [freqAdd, apply_ite (Except.map (hostAct k ws))]
  rfl

theorem buildTree_hostAct : buildTree (hostAct k ws s) = hostAct k ws (buildTree s) := by
  simp only [buildTree, apply_ite (hostAct k ws)]
  rfl

theorem genCodes_hostAct : genCodes (hostAct k ws s) = hostAct k ws (genCodes s) := by
  simp only [genCodes, apply_ite (hostAct k ws)]
  rfl

theorem encSym_hostAct (hk : k ≤ s.resp.length) (x : Sym) :
    encSym x (hostAct k ws s) = (encSym x s).map (hostAct k ws) := by
  simp only [encSym, apply_ite (Except.map (hostAct k ws))]
  simp only [Except.map, hostAct, List.drop_append_of_le_length hk]
  rfl

theorem tblAppend_hostAct (bits : Bits) : tblAppend bits (hostAct k ws s) = (tblAppend bits s).map (hostAct k ws) := by
  simp only [tblAppend, apply_ite (Except.map (hostAct k ws))]
  rfl

theorem tblInvert_hostAct : tblInvert (hostAct k ws s) = (tblInvert s).map (hostAct k ws) := by
  simp only [tblInvert, apply_ite (Except.map (hostAct k ws))]
  rfl

theorem hostAct_err : (hostAct k ws s).err = s.err := rfl
theorem hostAct_dacc : (hostAct k ws s).dacc = s.dacc := rfl
theorem hostAct_dsyms : (hostAct k ws s).dsyms = s.dsyms := rfl
theorem hostAct_dbytes : (hostAct k ws s).dbytes = s.dbytes := rfl

theorem scanBits_hostAct (pos : Nat) (x : Bits) (a : Scan) : scanBits (hostAct k ws s) pos x a = scanBits s pos x a := by
  induction x generalizing pos a with
  | nil => rfl
  | cons b x ih =>
    have hbit : scanBit (hostAct k ws s) pos b a = scanBit s pos b a := rfl
    simp only [scanBits, hbit, ih]

theorem decByte_hostAct (hk : k ≤ s.resp.length) (b : Byte) :
    decByte b (hostAct k ws s) = (decByte b s).map (hostAct k ws) := by
  simp only [decByte, scanBits_hostAct, apply_ite (Except.map (hostAct k ws)), hostAct_dacc, hostAct_dsyms, hostAct_dbytes]
  rcases scanBits s (8 * s.dbytes.toNat) (byteBits b) ⟨s.dacc, s.dsyms, []⟩ with r | a
  · rfl
  · simp only [Except.map, hostAct, List.drop_append_of_le_length hk]
    rfl

theorem decEnd_hostAct (hk : k ≤ s.resp.length) : decEnd (hostAct k ws s) = (decEnd s).map (hostAct k ws) := by
  simp only [decEnd, apply_ite (Except.map (hostAct k ws))]
  simp only [Except.map, hostAct, List.drop_append_of_le_length hk]
  rfl

/-! ### Commands and steps -/

theorem exec_hostAct (hk : k ≤ s.resp.length) {i : Instr} (h : exec i s = .next t) :
    exec i (hostAct k ws s) = .next (hostAct k ws t) := by
  cases i with
  | nop => exact Host.Outcome.next.inj h ▸ rfl
  | clear => exact Host.Outcome.next.inj h ▸ rfl
  | statusRead => exact Host.Outcome.next.inj h ▸ congrArg Host.Outcome.next (emit_hostAct ws hk _)
  | freqRead x => exact Host.Outcome.next.inj h ▸ congrArg Host.Outcome.next (emit_hostAct ws hk _)
  | codeRead x => exact Host.Outcome.next.inj h ▸ congrArg Host.Outcome.next (emit_hostAct ws hk _)
  | argLo v =>
    simp only [exec, execArgLo] at h ⊢
    exact unlessError_hostAct ws rfl h
  | argHi v =>
    simp only [exec, execArgHi] at h ⊢
    exact unlessError_hostAct ws rfl h
  | freqAdd x => exact inPhases_hostAct ws hk (freqAdd_hostAct ws x) h
  | freqSet x =>
    simp only [exec, execFreqSet] at h ⊢
    exact inPhases_hostAct ws hk rfl h
  | buildTree =>
    simp only [exec, execBuildTree] at h ⊢
    exact inPhases_hostAct ws hk (congrArg Except.ok (buildTree_hostAct ws)) h
  | genCodes =>
    simp only [exec, execGenCodes] at h ⊢
    exact inPhases_hostAct ws hk (congrArg Except.ok (genCodes_hostAct ws)) h
  | encSym x => exact inPhases_hostAct ws hk (encSym_hostAct ws hk x) h
  | encFlush =>
    simp only [exec, execEncFlush] at h ⊢
    refine inPhases_hostAct ws hk ?_ h
    simp only [Except.map, hostAct, List.drop_append_of_le_length hk]
    rfl
  | tblBegin x =>
    simp only [exec, execTblBegin] at h ⊢
    exact inPhases_hostAct ws hk rfl h
  | tblAppend bits => exact inPhases_hostAct ws hk (tblAppend_hostAct ws bits) h
  | tblInvert => exact inPhases_hostAct ws hk (tblInvert_hostAct ws) h
  | decStart legacy =>
    simp only [exec, execDecStart] at h ⊢
    exact inPhases_hostAct ws hk rfl h
  | decByte b => exact inPhases_hostAct ws hk (decByte_hostAct ws hk b) h
  | decEnd => exact inPhases_hostAct ws hk (decEnd_hostAct ws hk) h

theorem takeMalformed_hostAct (hk : k ≤ s.resp.length) (w : Word) :
    takeMalformed w (hostAct k ws s) = hostAct k ws (takeMalformed w s) := by
  simp only [takeMalformed, hostAct_err]
  split
  · rfl
  · exact raiseError_hostAct ws hk _ _

/-- The host's actions commute with the step, but for a word sent to an idle engine, which the step would take. -/
theorem step_hostAct (hk : k ≤ s.resp.length) (hws : s.port ≠ [] ∨ ws = []) (h : step s = .next t) :
    step (hostAct k ws s) = .next (hostAct k ws t) := by
  rcases hport : s.port with _ | ⟨w, rest⟩
  · obtain rfl : ws = [] := hws.resolve_left (not_not.mpr hport)
    rw [step_idle hport] at h
    rw [step_idle (by simp [hostAct, hport]), Host.Outcome.next.inj h]
  · have hport' : (hostAct k ws s).port = w :: (rest ++ ws) := by simp [hostAct, hport]
    rcases hdec : decode w with e | i
    · rw [step_malformed hport hdec] at h
      rw [step_malformed hport' hdec, ← Host.Outcome.next.inj h]
      exact congrArg Host.Outcome.next (takeMalformed_hostAct ws (s := { s with port := rest }) hk w)
    · rw [step_command hport hdec] at h
      rw [step_command hport' hdec]
      exact exec_hostAct ws (s := { s with port := rest }) hk h

end HostAct

/-- Settles O9: draining and sending are one host action, which every body and every frame commutes with. -/
theorem hostActionsCommuteWithTheStep : Obligations.HostActionsCommuteWithTheStep := by
  refine ⟨fun s t k h hk => ?_, fun s t w h hport => ?_⟩
  · rw [hostDrain_eq, hostDrain_eq]
    exact step_hostAct [] hk (.inr rfl) h
  · exact step_hostAct [w] (Nat.zero_le _) (.inl hport) h

end Sys2Proof.Machine
end

section
/-! PROOF. The unpacker's accumulator stays below LMAX (10_state.md R27, R39 item 2). -/

namespace Sys2Proof.Machine

theorem daccOk_of_nil {s : State} (h : s.dacc = []) : DaccOk s := ⟨.inr h, fun _ => h⟩

/-- The loop of DEC_BYTE keeps the accumulator empty or below LMAX (R145). -/
theorem scanBits_dacc {s : State} {pos : Nat} {x : Bits} {a a' : Scan}
    (ha : a.dacc.length < s.lmax.toNat ∨ a.dacc = []) (h : scanBits s pos x a = .ok a') :
    a'.dacc.length < s.lmax.toNat ∨ a'.dacc = [] := by
  refine scanBits_induction (P := fun a => a.dacc.length < s.lmax.toNat ∨ a.dacc = []) ?_ ha h
  intro pos bit a a' ha hbit
  obtain ⟨-, -, -, rfl⟩ | ⟨-, x, -, -, rfl⟩ | ⟨-, -, hlt, rfl⟩ := scanBit_ok hbit
  · exact ha
  · exact .inr rfl
  · exact .inl (by simpa using hlt)

theorem buildTree_dacc (s : State) : (buildTree s).dacc = s.dacc := buildTree_frame s (el := .dacc) (by simp [writes])

theorem genCodes_dacc (s : State) : (genCodes s).dacc = s.dacc := genCodes_frame s (el := .dacc) (by simp [writes])

/-- Only DEC_BYTE leaves a non-empty accumulator where PHASE or LMAX could have changed. -/
theorem Effect.daccOk {i : Instr} {s t : State} (hs : DaccOk s) (h : Effect s i t) : DaccOk t := by
  obtain ⟨hbound, hnil⟩ := hs
  cases h with
  | nop | statusRead | argLo | argHi | freqAdd | freqSet | freqRead | codeRead | encSym | tblAppend => exact ⟨hbound, hnil⟩
  | clear | decStart | decEnd => exact daccOk_of_nil rfl
  | buildTree _ hp => exact daccOk_of_nil ((buildTree_dacc s).trans (hnil (by simp [hp])))
  | genCodes _ hp => exact daccOk_of_nil ((genCodes_dacc s).trans (hnil (by simp [hp])))
  | encFlush _ hp => exact daccOk_of_nil (hnil (by simp [hp]))
  | tblBegin _ _ hp => exact daccOk_of_nil (hnil (by rcases hp with hp | hp <;> simp [hp]))
  | tblInvert _ hp => exact daccOk_of_nil (hnil (by rcases hp with hp | hp | hp <;> simp [hp]))
  | decByte b a _ hp hscan =>
    have hbound' : a.dacc.length < s.lmax.toNat ∨ a.dacc = [] := scanBits_dacc hbound hscan
    exact ⟨hbound', fun hne => absurd hp hne⟩

/-- LMAX has 8 bits, so a bounded accumulator has at most 254 (R27). -/
theorem dacc_length_le {s : State} (h : DaccOk s) : s.dacc.length ≤ 254 := by
  have hlmax := s.lmax.isLt
  rcases h.1 with hlt | hnil
  · omega
  · simp [hnil]

/-- Settles O57: neither a word consumed nor an error touches DACC, LMAX and PHASE, and every effect keeps the bound. -/
theorem stepKeepsTheAccumulatorBound : Obligations.StepKeepsTheAccumulatorBound := by
  intro s t hs h
  have ht : DaccOk t := step_keeps (P := DaccOk) (fun _ _ h => h) (fun _ _ _ h => h) (fun _ _ _ => Effect.daccOk) hs h
  exact ⟨ht, dacc_length_le ht⟩

end Sys2Proof.Machine
end

section
/-! PROOF. PEND is the last of the bits packed since the last CLEAR, and BITCNT their number (10_state.md R26, R39 item 1). -/

namespace Sys2Proof.Machine

/-- The state's packer elements and phase are all PackedIs reads. -/
theorem PackedIs.of_same {x : Bits} {s t : State} (h : PackedIs x s) (hpend : t.pend = s.pend) (hbitcnt : t.bitcnt = s.bitcnt)
    (hphase : t.phase = s.phase) : PackedIs x t where
  count := hbitcnt ▸ h.count
  tail := hphase ▸ hpend ▸ h.tail
  outside := hphase ▸ hpend ▸ h.outside
  before := hphase ▸ h.before

/-- Nothing packed, and nothing pending. -/
theorem packedIs_nil {s : State} (hpend : s.pend = []) (hbitcnt : s.bitcnt = 0) : PackedIs [] s where
  count := by simp [hbitcnt]
  tail := fun _ => hpend
  outside := fun _ => hpend
  before := fun _ => rfl

/-- Behind the packer's own phase nothing is pending. -/
theorem packedIs_of_done {x : Bits} {s : State} (hcount : s.bitcnt.toNat = x.length) (hpend : s.pend = [])
    (hcodes : s.phase ≠ .codes) (hfreq : s.phase ≠ .freq) (htree : s.phase ≠ .tree) : PackedIs x s where
  count := hcount
  tail := fun hp => absurd hp hcodes
  outside := fun _ => hpend
  before := by rintro (hp | hp) <;> contradiction

/-- What is left behind the whole bytes of x, with c behind it, leaves what x with c behind it leaves. -/
theorem leftover_append (x c : Bits) :
    leftover (x.drop (x.length - x.length % 8) ++ c) = (x ++ c).drop ((x ++ c).length - (x ++ c).length % 8) := by
  have hle : x.length - x.length % 8 ≤ x.length := Nat.sub_le _ _
  rw [leftover, ← List.drop_append_of_le_length hle, List.drop_drop]
  congr 1
  simp only [List.length_drop, List.length_append]
  omega

theorem PackedIs.bitcnt_eq_zero {s : State} (h : PackedIs [] s) : s.bitcnt = 0 := BitVec.eq_of_toNat_eq h.count

/-- BUILD_TREE and GEN_CODES run before anything is packed. -/
theorem PackedIs.of_unpacked {x : Bits} {s t : State} (h : PackedIs x s) (hp : s.phase = .freq ∨ s.phase = .tree)
    (hpend : t.pend = s.pend) (hbitcnt : t.bitcnt = s.bitcnt) : PackedIs x t := by
  obtain rfl := h.before hp
  refine packedIs_nil (hpend.trans (h.outside ?_)) (hbitcnt.trans h.bitcnt_eq_zero)
  rcases hp with hp | hp <;> simp [hp]

/-- BITCNT after a code that fits (43_packer.md R130). -/
theorem bitcnt_add {n : Word} {k : Nat} (h : n.toNat + k ≤ Config.maxCount) : (n + BitVec.ofNat 32 k).toNat = n.toNat + k := by
  simp only [Config.maxCount] at h
  simp only [BitVec.toNat_add, BitVec.toNat_ofNat]
  omega

/-- An effect packs what `packedAfter` says. -/
theorem Effect.packedIs {i : Instr} {s t : State} {x : Bits} (hs : PackedIs x s) (h : Effect s i t) :
    PackedIs (packedAfter i s t x) t := by
  cases h with
  | nop | statusRead | argLo | argHi | freqAdd | freqSet | freqRead | codeRead | tblAppend | decByte =>
    exact hs.of_same rfl rfl rfl
  | clear => exact packedIs_nil rfl rfl
  | buildTree _ hp =>
    exact hs.of_unpacked (.inl hp) (buildTree_frame s (el := .pend) (by simp [writes]))
      (buildTree_frame s (el := .bitcnt) (by simp [writes]))
  | genCodes _ hp =>
    exact hs.of_unpacked (.inr hp) (genCodes_frame s (el := .pend) (by simp [writes]))
      (genCodes_frame s (el := .bitcnt) (by simp [writes]))
  | encSym y he hp hv hfits =>
    simp only [packedAfter, he, if_true]
    constructor
    case count => rw [bitcnt_add hfits, hs.count, List.length_append]
    case tail => exact fun _ => by rw [← leftover_append, ← hs.tail hp]
    case outside => exact fun hne => absurd hp hne
    case before => simp [hp]
  | encFlush _ hp => exact packedIs_of_done hs.count rfl (by simp) (by simp) (by simp)
  | tblBegin _ _ hp =>
    exact packedIs_of_done hs.count (hs.outside (by rcases hp with hp | hp <;> simp [hp])) (by simp) (by simp) (by simp)
  | tblInvert _ hp =>
    exact packedIs_of_done hs.count (hs.outside (by rcases hp with hp | hp | hp <;> simp [hp])) (by simp) (by simp) (by simp)
  | decStart _ _ hp | decEnd _ hp =>
    exact packedIs_of_done hs.count (hs.outside (by simp [hp])) (by simp) (by simp) (by simp)

/-- A command that is discarded or raises an error packs nothing. -/
theorem packedAfter_of_err {i : Instr} {s t : State} (x : Bits) (hgate : runsInErrorState i = false) (ht : t.err ≠ none) :
    packedAfter i s t x = x := by
  cases i with
  | clear => simp [runsInErrorState] at hgate
  | encSym => exact if_neg ht
  | _ => rfl

theorem CommandOutcome.packedIs {i : Instr} {s t : State} {x : Bits} (hs : PackedIs x s) (h : CommandOutcome s i t) :
    PackedIs (packedAfter i s t x) t := by
  cases h with
  | discarded hgate he => exact (packedAfter_of_err x hgate he).symm ▸ hs
  | raised hgate _ r =>
    rw [packedAfter_of_err x hgate (by simp)]
    exact hs.of_same rfl rfl rfl
  | effect _ h => exact h.packedIs hs

/-- Settles O56: an effect packs what `packedAfter` says; a word that is discarded, malformed or raises an error, and no word at
all, leave the packer and PHASE alone. -/
theorem pendIsTheTailOfThePackedBits : Obligations.PendIsTheTailOfThePackedBits := by
  intro s t x hs h
  cases step_outcome h with
  | idle hport =>
    simp only [packedAfterStep, hport]
    exact hs
  | malformed w rest e hport hdec =>
    simp only [packedAfterStep, hport, hdec]
    rcases takeMalformed_cases w { s with port := rest } with heq | heq <;> rw [heq] <;> exact hs.of_same rfl rfl rfl
  | command w rest i _ hport hdec hout =>
    simp only [packedAfterStep, hport, hdec]
    exact CommandOutcome.packedIs (s := { s with port := rest }) (hs.of_same rfl rfl rfl) hout

end Sys2Proof.Machine
end

section
/-! PROOF. GEN_CODES in any built tree (42_tree_codes.md R117 to R119, R123): every leaf's code leads from ROOT to that leaf, so no
code is the beginning of another. -/

namespace Sys2Proof.Machine

/-! ### The valid symbols and codes, in symbol order -/

theorem toList_table_eq {α : Type} (t : Table α) : t.toList = ((List.range 256).map (BitVec.ofNat 8)).map (entry t) := by
  rw [List.map_map, ← List.zipIdx_map_fst 0 t.toList, table_zipIdx_eq, List.map_map]
  rfl

theorem filterMap_ite_some {α β : Type} (f : α → β) (p : α → Bool) (l : List α) :
    (l.filterMap fun a => if p a then some (f a) else none) = (l.filter p).map f := by
  induction l with
  | nil => rfl
  | cons a l ih => by_cases h : p a <;> simp [h, ih]

theorem validSyms_eq_filter (code : Table CodeEntry) :
    validSyms code = ((List.range 256).map (BitVec.ofNat 8)).filter fun x => (entry code x).valid := by
  rw [validSyms, table_zipIdx_eq, List.filterMap_map, List.filter_map]
  exact filterMap_ite_some (BitVec.ofNat 8) (fun i => (entry code (BitVec.ofNat 8 i)).valid) _

theorem validCodes_eq_map (code : Table CodeEntry) :
    validCodes code = (validSyms code).map fun x => (entry code x).bits := by
  rw [validCodes, toList_table_eq, validSyms_eq_filter, List.filter_map, List.map_map]
  rfl

/-- A table whose valid symbols are the counted ones lists them in the same order. -/
theorem validSyms_eq_mapSyms {code : Table CodeEntry} {freq : Table Word}
    (h : ∀ x, (entry code x).valid = true ↔ entry freq x ≠ 0) : validSyms code = mapSyms freq := by
  rw [validSyms_eq_filter, mapSyms]
  refine List.filter_congr fun x _ => ?_
  rw [Bool.eq_iff_iff, h, decide_eq_true_eq]

/-! ### Walking down from a node -/

/-- The node reached from node i along x, left for 0 and right for 1 (R118); none at a leaf with bits to go. -/
def walk (pool : List Node) : Nat → Bits → Option Nat
  | i, [] => some i
  | i, b :: x =>
    match pool[i]? with
    | none => none
    | some nd => if nd.kind = .leaf then none else walk pool (if b then nd.r.val else nd.l.val) x

theorem walk_leaf {pool : List Node} {i : Nat} {nd : Node} (hi : pool[i]? = some nd) (hk : nd.kind = .leaf) {x : Bits} {j : Nat}
    (h : walk pool i x = some j) : x = [] ∧ i = j := by
  cases x with
  | nil => exact ⟨rfl, Option.some.inj h⟩
  | cons b x => simp [walk, hi, hk] at h

theorem walk_append (pool : List Node) (i : Nat) (x y : Bits) :
    walk pool i (x ++ y) = (walk pool i x).bind fun j => walk pool j y := by
  induction x generalizing i with
  | nil => rfl
  | cons b x ih =>
    simp only [List.cons_append, walk]
    split
    · rfl
    · split
      · rfl
      · exact ih _

/-- A node's path leads from ROOT to the node. -/
theorem walk_pathTo {pool : List Node} {root fuel i : Nat} {p : Bits} (h : pathTo pool root fuel i = some p) :
    walk pool root p = some i := by
  induction fuel generalizing i p with
  | zero =>
    simp only [pathTo, Option.ite_none_right_eq_some, Option.some.injEq] at h
    obtain ⟨rfl, rfl⟩ := h
    rfl
  | succ fuel ih =>
    by_cases hroot : i = root
    · subst hroot
      rw [pathTo_root, Option.some.injEq] at h
      exact h ▸ rfl
    · obtain ⟨nd, v, q, hpar, hq, rfl⟩ := pathTo_succ hroot h
      obtain ⟨hv, hk, hchild⟩ := parentOf_some hpar
      rw [walk_append, ih hq]
      by_cases hl : nd.l.val = i
      · simp [walk, hv, hk, hl]
      · simp [walk, hv, hk, hl, hchild.resolve_left hl]

/-- A leaf's path begins no other leaf's path. -/
theorem leaf_eq_of_path_prefix {pool : List Node} {root fuel i j : Nat} {nd : Node} {p q : Bits} (hi : pool[i]? = some nd)
    (hk : nd.kind = .leaf) (hp : pathTo pool root fuel i = some p) (hq : pathTo pool root fuel j = some q) (hpre : p <+: q) :
    i = j := by
  obtain ⟨r, rfl⟩ := hpre
  have hwalk : walk pool root (p ++ r) = some j := walk_pathTo hq
  rw [walk_append, walk_pathTo hp] at hwalk
  exact (walk_leaf hi hk hwalk).2

/-! ### The state BUILD_TREE leaves, seen from TREE -/

/-- The pool is the one BUILD_TREE makes of a Frequency Map that is not empty, and ROOT its newest node (R110, R114). -/
structure TreeBuilt (s : State) : Prop where
  pool : s.pool = buildPool s.freq
  root : s.root.val = s.nn.val - 1
  counted : mapSyms s.freq ≠ []

theorem Inv.treeBuilt {s : State} (h : Inv s) (hp : s.phase = .tree) (he : s.empty = false) : TreeBuilt s := by
  obtain ⟨-, -, hpool, hempty, hroot⟩ := h.treePhase hp
  refine ⟨hpool, hroot, fun hnil => ?_⟩
  have : s.pool = [] := hpool.trans ((buildPool_counts s.freq).1 hnil)
  simp [hempty.mpr this] at he

section TreeBuilt

variable {s : State} (h : TreeBuilt s)
include h

theorem TreeBuilt.length : s.nn.val + 1 = 2 * (mapSyms s.freq).length := by
  rw [← pool_length, h.pool]
  exact ((buildPool_counts s.freq).2 h.counted).1

theorem TreeBuilt.shape : MergeShape (mapSyms s.freq).length s.pool := h.pool ▸ mergeShape_buildPool s.freq

theorem TreeBuilt.liveCount : liveCount s.pool = 1 := h.pool ▸ ((buildPool_counts s.freq).2 h.counted).2

theorem TreeBuilt.root_eq : s.root.val = s.pool.length - 1 := by rw [pool_length, h.root]

theorem TreeBuilt.leafSyms : leafSyms s.pool = mapSyms s.freq := h.pool ▸ leafSyms_buildPool s.freq

theorem TreeBuilt.rootNode : s.pool[s.root.val]? = some (s.nodes[s.root]) := by
  have hlen := h.length
  have hpos := List.length_pos_iff.mpr h.counted
  have hroot := h.root
  exact pool_getElem? s s.root (by omega)

/-- ROOT is a leaf exactly when one symbol is counted (R119). -/
theorem TreeBuilt.rootNode_leaf_iff : (s.nodes[s.root]).kind = .leaf ↔ (mapSyms s.freq).length = 1 := by
  have hlen := h.length
  have hpos := List.length_pos_iff.mpr h.counted
  have hroot := h.root
  rw [h.shape.leavesFirst _ _ h.rootNode]
  omega

theorem TreeBuilt.genTable_of_single {x : Sym} (h1 : mapSyms s.freq = [x]) :
    genTable s = writeCodes s.code [(x, [false])] := by
  have hleaf : (s.nodes[s.root]).kind = .leaf := h.rootNode_leaf_iff.mpr (by simp [h1])
  have hmem : (s.nodes[s.root]).sym ∈ mapSyms s.freq := by
    rw [← h.leafSyms]
    exact mem_leafSyms.mpr ⟨_, _, h.rootNode, hleaf, rfl⟩
  have hsym : (s.nodes[s.root]).sym = x := by simpa [h1] using hmem
  simp only [genTable, hleaf, if_true, hsym]

theorem TreeBuilt.genTable_of_several (h2 : 2 ≤ (mapSyms s.freq).length) :
    genTable s = writeCodes s.code (leafCodes s.pool s.root.val) := by
  have hinternal : (s.nodes[s.root]).kind ≠ .leaf := fun hleaf => by
    have := h.rootNode_leaf_iff.mp hleaf
    omega
  simp only [genTable, if_neg hinternal]

/-- GEN_CODES writes no symbol that is not counted. -/
theorem TreeBuilt.entry_genTable_of_notMem {x : Sym} (hx : x ∉ mapSyms s.freq) :
    entry (genTable s) x = entry s.code x := by
  by_cases h1 : (mapSyms s.freq).length = 1
  · obtain ⟨y, hy⟩ := List.length_eq_one_iff.mp h1
    rw [h.genTable_of_single hy]
    exact entry_writeCodes_of_notMem (by simpa [hy, eq_comm] using hx)
  · have hpos := List.length_pos_iff.mpr h.counted
    rw [h.genTable_of_several (by omega)]
    refine entry_writeCodes_of_notMem fun c hc hcx => hx ?_
    rw [← h.leafSyms, ← leafCodes_syms s.pool s.root.val, List.mem_map]
    exact ⟨c, hc, hcx⟩

/-- Every counted symbol has a leaf, and gets the leaf's path as its code (R117, R118). -/
theorem TreeBuilt.entry_genTable_of_mem (h2 : 2 ≤ (mapSyms s.freq).length) {x : Sym} (hx : x ∈ mapSyms s.freq) :
    ∃ i nd p, s.pool[i]? = some nd ∧ nd.kind = .leaf ∧ nd.sym = x ∧ pathTo s.pool s.root.val Config.maxLen i = some p ∧
      1 ≤ p.length ∧ entry (genTable s) x = ⟨true, p⟩ := by
  have hn := mapSyms_length_le s.freq
  have hlen := h.length
  obtain ⟨i, nd, hi, hk, rfl⟩ := mem_leafSyms.mp (h.leafSyms ▸ hx)
  have hin : i < (mapSyms s.freq).length := (h.shape.leavesFirst i nd hi).mp hk
  have hpool := pool_length s
  obtain ⟨p, hp⟩ := h.shape.pathTo_isSome h.liveCount (fuel := Config.maxLen) (i := i) (by omega)
    (by simp only [Config.maxLen]; omega)
  have hcode : leafCode s.pool s.root.val i = p := by rw [leafCode, h.root_eq, hp, Option.getD_some]
  have hpos := (h.shape.leafCode_length hn h.liveCount h2 hin).1
  rw [← h.root_eq, hcode] at hpos
  refine ⟨i, nd, p, hi, hk, rfl, h.root_eq ▸ hp, hpos, ?_⟩
  rw [h.genTable_of_several h2]
  refine entry_writeCodes_of_mem (mem_leafCodes.mpr ⟨i, nd, hi, hk, rfl, hcode⟩) ?_
  rw [leafCodes_syms, h.leafSyms]
  exact nodup_mapSyms s.freq

/-- Every counted symbol gets a code of 1 to 255 bits. -/
theorem TreeBuilt.genTable_code {x : Sym} (hx : x ∈ mapSyms s.freq) :
    (entry (genTable s) x).valid = true ∧ 1 ≤ (entry (genTable s) x).bits.length ∧
      (entry (genTable s) x).bits.length ≤ 255 := by
  by_cases h1 : (mapSyms s.freq).length = 1
  · obtain ⟨y, hy⟩ := List.length_eq_one_iff.mp h1
    obtain rfl : x = y := by simpa [hy] using hx
    rw [h.genTable_of_single hy, entry_writeCodes_of_mem (b := [false]) (by simp) (by simp)]
    simp
  · have hpos := List.length_pos_iff.mpr h.counted
    obtain ⟨i, nd, p, -, -, -, hpath, hpos, hentry⟩ := h.entry_genTable_of_mem (by omega) hx
    rw [hentry]
    exact ⟨rfl, hpos, pathTo_length_le hpath⟩

/-- No counted symbol's code begins another's (R123): two leaves with such codes are the same leaf. -/
theorem TreeBuilt.eq_of_code_prefix {x y : Sym} (hx : x ∈ mapSyms s.freq) (hy : y ∈ mapSyms s.freq)
    (hpre : (entry (genTable s) x).bits <+: (entry (genTable s) y).bits) : x = y := by
  by_cases h1 : (mapSyms s.freq).length = 1
  · obtain ⟨z, hz⟩ := List.length_eq_one_iff.mp h1
    rw [hz, List.mem_singleton] at hx hy
    rw [hx, hy]
  · have hpos := List.length_pos_iff.mpr h.counted
    obtain ⟨i, nd, p, hi, hk, rfl, hpath, -, hentry⟩ := h.entry_genTable_of_mem (by omega) hx
    obtain ⟨j, nd', q, hj, -, rfl, hpath', -, hentry'⟩ := h.entry_genTable_of_mem (by omega) hy
    rw [hentry, hentry'] at hpre
    obtain rfl := leaf_eq_of_path_prefix hi hk hpath hpath' hpre
    rw [hi, Option.some.injEq] at hj
    rw [hj]

end TreeBuilt

end Sys2Proof.Machine
end

section
/-! PROOF. The invariant of 10_state.md R39: it holds at reset, and every step keeps it. -/

namespace Sys2Proof.Machine

/-! ### What the invariant says phase by phase -/

theorem pendOk_of_nil {s : State} (hp : s.phase ≠ .codes) (h : s.pend = []) : PendOk s := ⟨fun hc => absurd hc hp, fun _ => h⟩

theorem Inv.pend_nil {s : State} (h : Inv s) (hp : s.phase ≠ .codes) : s.pend = [] := h.pend.2 hp

theorem Inv.dacc_nil {s : State} (h : Inv s) (hp : s.phase ≠ .dec) : s.dacc = [] := h.dacc.2 hp

theorem inv_of_freq {s : State} (hp : s.phase = .freq) (hpend : s.pend = []) (hbitcnt : s.bitcnt = 0) (hdacc : DaccOk s)
    (hentries : EntriesOk s) (hfreq : s.nn = 0 ∧ validSyms s.code = [] ∧ s.lmax = 0 ∧ s.empty = false) : Inv s := by
  constructor
  case pend => exact pendOk_of_nil (by simp [hp]) hpend
  case bitcnt => exact fun _ => hbitcnt
  case dacc => exact hdacc
  case entries => exact hentries
  case freqPhase => exact fun _ => hfreq
  case empty => simp [hfreq]
  case treePhase | codesPhase | rmapPhase | tblLoadPhase | lmax => simp [hp]

theorem inv_of_tree {s : State} (hp : s.phase = .tree) (hpend : s.pend = []) (hbitcnt : s.bitcnt = 0) (hdacc : DaccOk s)
    (hentries : EntriesOk s) (hsyms : validSyms s.code = []) (hlmax : s.lmax = 0) (hpool : s.pool = buildPool s.freq)
    (hempty : s.empty = true ↔ s.pool = []) (hroot : s.root.val = s.nn.val - 1) : Inv s := by
  constructor
  case pend => exact pendOk_of_nil (by simp [hp]) hpend
  case bitcnt => exact fun _ => hbitcnt
  case dacc => exact hdacc
  case entries => exact hentries
  case empty =>
    intro he
    have hlen := pool_length s
    rw [hempty.mp he] at hlen
    exact ⟨Fin.ext hlen.symm, hsyms⟩
  case treePhase => exact fun _ => ⟨hsyms, hlmax, hpool, hempty, hroot⟩
  case freqPhase | codesPhase | rmapPhase | tblLoadPhase | lmax => simp [hp]

/-- In CODES and behind it, a code of at least one bit for exactly the leaves, none the beginning of another (R39 item 3). -/
abbrev CodesGenerated (s : State) : Prop :=
  validSyms s.code = leafSyms s.pool ∧ (∀ c ∈ validCodes s.code, 1 ≤ c.length) ∧ PrefixFree (validCodes s.code)

theorem inv_of_codes {s : State} (hp : s.phase = .codes ∨ s.phase = .encDone) (hpend : PendOk s) (hdacc : DaccOk s)
    (hentries : EntriesOk s) (hempty : EmptyOk s) (hcodes : CodesGenerated s) (hlmax : s.lmax.toNat = longest s.code) :
    Inv s := by
  constructor
  case pend => exact hpend
  case dacc => exact hdacc
  case entries => exact hentries
  case empty => exact hempty
  case codesPhase => exact fun _ => hcodes
  case lmax => exact fun _ => hlmax
  case bitcnt | freqPhase | treePhase | rmapPhase | tblLoadPhase => rcases hp with hp | hp <;> simp [hp]

theorem inv_of_tblLoad {s : State} (hp : s.phase = .tblLoad) (hpend : s.pend = []) (hdacc : DaccOk s)
    (hentries : EntriesOk s) (hload : s.nn = 0 ∧ s.lmax = 0 ∧ s.empty = false) : Inv s := by
  constructor
  case pend => exact pendOk_of_nil (by simp [hp]) hpend
  case dacc => exact hdacc
  case entries => exact hentries
  case empty => simp [hload]
  case tblLoadPhase => exact fun _ => hload
  case bitcnt | freqPhase | treePhase | codesPhase | rmapPhase | lmax => simp [hp]

/-- From RMAP on, codes of at least one bit that all differ (R39 item 4). -/
abbrev CodesInverted (s : State) : Prop := (∀ c ∈ validCodes s.code, 1 ≤ c.length) ∧ (validCodes s.code).Nodup

theorem inv_of_rmap {s : State} (hp : s.phase = .rmap ∨ s.phase = .dec ∨ s.phase = .decDone) (hpend : s.pend = [])
    (hdacc : DaccOk s) (hentries : EntriesOk s) (hempty : EmptyOk s) (hcodes : CodesInverted s)
    (hlmax : s.lmax.toNat = longest s.code) : Inv s := by
  constructor
  case pend => exact pendOk_of_nil (by rcases hp with hp | hp | hp <;> simp [hp]) hpend
  case dacc => exact hdacc
  case entries => exact hentries
  case empty => exact hempty
  case rmapPhase => exact fun _ => hcodes
  case lmax => exact fun _ => hlmax
  case bitcnt | freqPhase | treePhase | codesPhase | tblLoadPhase => rcases hp with hp | hp | hp <;> simp [hp]

/-! ### The entries of the Code Table -/

/-- 10_state.md R23 for one entry: at most 255 bits, and none in an absent entry. -/
def EntryOk (e : CodeEntry) : Prop := e.bits.length ≤ 255 ∧ (e.valid = false → e.bits = [])

theorem entriesOk_iff {s : State} : EntriesOk s ↔ ∀ x, EntryOk (entry s.code x) := by
  simp only [EntriesOk, mem_table_iff, forall_exists_index, forall_apply_eq_imp_iff, EntryOk]

theorem EntriesOk.setEntry {s : State} (h : EntriesOk s) {e : CodeEntry} (he : EntryOk e) (x : Sym) :
    EntriesOk { s with code := setEntry s.code x e } := by
  rw [entriesOk_iff] at h ⊢
  intro y
  rw [entry_setEntry]
  split
  · exact he
  · exact h y

theorem longest_le_of_entriesOk {s : State} (h : EntriesOk s) : longest s.code ≤ 255 :=
  longest_le fun x _ => (entriesOk_iff.mp h x).1

/-- LMAX holds the longest code whole (log 5). -/
theorem toNat_longest {s : State} (h : EntriesOk s) : (BitVec.ofNat 8 (longest s.code)).toNat = longest s.code := by
  have := longest_le_of_entriesOk h
  rw [BitVec.toNat_ofNat]
  omega

theorem longest_of_empty {code : Table CodeEntry} (h : validSyms code = []) : longest code = 0 := by
  have := longest_le (code := code) (n := 0) fun x hx => by simp [validSyms_eq_nil.mp h x] at hx
  omega

theorem validCodes_of_empty {code : Table CodeEntry} (h : validSyms code = []) : validCodes code = [] := by
  rw [validCodes_eq_map, h, List.map_nil]

/-! ### Reset -/

theorem validSyms_reset : validSyms State.reset.code = [] := by simp [validSyms_eq_nil]

theorem inv_reset : Inv State.reset :=
  inv_of_freq rfl rfl rfl (daccOk_of_nil rfl) (entriesOk_iff.mpr (by simp [EntryOk])) ⟨rfl, validSyms_reset, rfl, rfl⟩

/-- Settles O54: reset is the empty FREQ state, and PEND and BITCNT are empty in it. -/
theorem resetMeetsTheInvariant : Obligations.ResetMeetsTheInvariant := ⟨inv_reset, packedIs_nil rfl rfl⟩

theorem inv_clearSession (s : State) : Inv (clearSession s) := inv_port (inv_resp inv_reset s.resp) s.port

theorem inv_raiseError {s : State} (h : Inv s) (op : Byte) (r : Raise) : Inv (raiseError op r s) :=
  inv_resp (s := { s with err := some r.code }) (inv_err h _) _

/-! ### The Frequency Map and the tree -/

/-- In FREQ no clause reads the counts. -/
theorem inv_freq {s : State} (h : Inv s) (hp : s.phase = .freq) (f : Table Word) : Inv { s with freq := f } :=
  inv_of_freq hp (h.pend_nil (by simp [hp])) (h.bitcnt (.inl hp)) h.dacc h.entries (h.freqPhase hp)

theorem buildTree_empty_iff {s : State} (he : s.empty = false) : (buildTree s).empty = true ↔ (buildTree s).pool = [] := by
  rw [buildTree_pool]
  by_cases h : buildPool s.freq = []
  · simp [buildTree_of_nil h, h]
  · simp [buildTree_of_ne_nil h, h, he]

theorem inv_buildTree {s : State} (h : Inv s) (hp : s.phase = .freq) : Inv (buildTree s) := by
  have keeps : ∀ el : Element, el ∉ writes .buildTree → el.same s (buildTree s) := fun _ => buildTree_frame s
  have hcode : (buildTree s).code = s.code := keeps .code (by simp [writes])
  obtain ⟨-, hsyms, hlmax, hempty⟩ := h.freqPhase hp
  refine inv_of_tree (buildTree_phase s) ?_ ?_ ?_ ?_ (hcode ▸ hsyms) ?_ ?_ (buildTree_empty_iff hempty) ?_
  · exact (keeps .pend (by simp [writes])).trans (h.pend_nil (by simp [hp]))
  · exact (keeps .bitcnt (by simp [writes])).trans (h.bitcnt (.inl hp))
  · exact daccOk_of_nil ((buildTree_dacc s).trans (h.dacc_nil (by simp [hp])))
  · rw [EntriesOk, hcode]
    exact h.entries
  · exact (keeps .lmax (by simp [writes])).trans hlmax
  · rw [buildTree_pool, show (buildTree s).freq = s.freq from keeps .freq (by simp [writes])]
  · rw [buildTree_root, ← pool_length, buildTree_pool]

/-! ### The Code Table generated -/

theorem TreeBuilt.entriesOk_genTable {s : State} (h : TreeBuilt s) (hentries : EntriesOk s) :
    EntriesOk { s with code := genTable s } := by
  rw [entriesOk_iff] at hentries ⊢
  intro x
  by_cases hx : x ∈ mapSyms s.freq
  · obtain ⟨hv, -, hle⟩ := h.genTable_code hx
    exact ⟨hle, fun hv' => by simp [hv] at hv'⟩
  · have hold : entry (genTable s) x = entry s.code x := h.entry_genTable_of_notMem hx
    exact hold ▸ hentries x

theorem TreeBuilt.validSyms_genTable {s : State} (h : TreeBuilt s) (hsyms : validSyms s.code = []) :
    validSyms (genTable s) = mapSyms s.freq := by
  refine validSyms_eq_mapSyms fun x => ?_
  rw [← mem_mapSyms]
  constructor
  · intro hv
    by_contra hx
    rw [h.entry_genTable_of_notMem hx, validSyms_eq_nil.mp hsyms x] at hv
    cases hv
  · exact fun hx => (h.genTable_code hx).1

/-- R39 item 3 for the table GEN_CODES writes over an empty one. -/
theorem TreeBuilt.codesGenerated {s : State} (h : TreeBuilt s) (hsyms : validSyms s.code = []) :
    CodesGenerated { s with code := genTable s } := by
  have hvalid := h.validSyms_genTable hsyms
  refine ⟨hvalid.trans h.leafSyms.symm, fun c hc => ?_, ?_⟩
  · obtain ⟨x, hv, rfl⟩ := mem_validCodes.mp hc
    exact (h.genTable_code (hvalid ▸ mem_validSyms.mpr hv)).2.1
  · show PrefixFree (validCodes (genTable s))
    rw [validCodes_eq_map, hvalid, PrefixFree, List.pairwise_map]
    refine (nodup_mapSyms s.freq).pairwise_of_forall_ne fun x hx y hy hne => ⟨fun hpre => ?_, fun hpre => ?_⟩
    · exact hne (h.eq_of_code_prefix hx hy hpre)
    · exact hne (h.eq_of_code_prefix hy hx hpre).symm

/-- GEN_CODES of an empty Frequency Map: no leaf and no code (R117). -/
theorem inv_genCodes_of_empty {s : State} (h : Inv s) (hp : s.phase = .tree) (he : s.empty = true) :
    Inv { s with lmax := 0, phase := .codes } := by
  obtain ⟨hsyms, -, -, hempty, -⟩ := h.treePhase hp
  have hpool : s.pool = [] := hempty.mp he
  refine inv_of_codes (.inl rfl) ⟨fun _ => ?_, fun hne => absurd rfl hne⟩ (daccOk_of_nil (h.dacc_nil (by simp [hp])))
    h.entries h.empty ⟨?_, ?_, ?_⟩ (longest_of_empty hsyms).symm
  · simp [h.pend_nil, hp, h.bitcnt]
  · show validSyms s.code = leafSyms s.pool
    rw [hsyms, hpool]
    rfl
  · simp [validCodes_of_empty hsyms]
  · simp [validCodes_of_empty hsyms]

theorem inv_genCodes {s : State} (h : Inv s) (hp : s.phase = .tree) : Inv (genCodes s) := by
  obtain ⟨hsyms, -, -, -, -⟩ := h.treePhase hp
  cases he : s.empty with
  | true =>
    rw [genCodes_of_empty he]
    exact inv_genCodes_of_empty h hp he
  | false =>
    have hbuilt : TreeBuilt s := h.treeBuilt hp he
    have hentries := hbuilt.entriesOk_genTable h.entries
    rw [genCodes_of_not_empty he]
    refine inv_of_codes (.inl rfl) ⟨fun _ => ?_, fun hne => absurd rfl hne⟩ (daccOk_of_nil (h.dacc_nil (by simp [hp])))
      hentries (by simp [EmptyOk, he]) (hbuilt.codesGenerated hsyms) (toNat_longest hentries)
    simp [h.pend_nil, hp, h.bitcnt]

/-! ### Packing -/

/-- The bits left pending count as BITCNT does, whose wrapping at 2^32 does not show modulo 8. -/
theorem leftover_length_bitcnt {x c : Bits} {n : Word} (h : x.length = n.toNat % 8) :
    (leftover (x ++ c)).length = (n + BitVec.ofNat 32 c.length).toNat % 8 := by
  simp only [leftover_length, List.length_append, BitVec.toNat_add, BitVec.toNat_ofNat]
  omega

/-! ### Every effect, every step -/

theorem Effect.inv {i : Instr} {s t : State} (hs : Inv s) (h : Effect s i t) : Inv t := by
  have hdacc : DaccOk t := h.daccOk hs.dacc
  cases h with
  | nop => exact hs
  | clear => exact inv_clearSession s
  | statusRead | freqRead | codeRead => exact inv_resp hs _
  | argLo | argHi => exact inv_arg hs _
  | freqAdd _ _ hp | freqSet _ _ hp => exact inv_freq hs hp _
  | buildTree _ hp => exact inv_buildTree hs hp
  | genCodes _ hp => exact inv_genCodes hs hp
  | encSym x _ hp =>
    exact inv_of_codes (.inl hp) ⟨fun _ => leftover_length_bitcnt (hs.pend.1 hp), fun hne => absurd hp hne⟩ hdacc hs.entries
      hs.empty (hs.codesPhase (.inl hp)) (hs.lmax (.inl hp))
  | encFlush _ hp =>
    exact inv_of_codes (.inr rfl) (pendOk_of_nil (by simp) rfl) hdacc hs.entries hs.empty (hs.codesPhase (.inl hp))
      (hs.lmax (.inl hp))
  | tblBegin x _ hp =>
    have hload : s.nn = 0 ∧ s.lmax = 0 ∧ s.empty = false := by
      rcases hp with hp | hp
      · obtain ⟨hnn, -, hlmax, hempty⟩ := hs.freqPhase hp
        exact ⟨hnn, hlmax, hempty⟩
      · exact hs.tblLoadPhase hp
    exact inv_of_tblLoad rfl (hs.pend_nil (by rcases hp with hp | hp <;> simp [hp])) hdacc
      (hs.entries.setEntry (e := ⟨true, []⟩) (by simp [EntryOk]) x) hload
  | tblAppend bits _ hp hfits =>
    refine inv_of_tblLoad hp (hs.pend_nil (by simp [hp])) hdacc (hs.entries.setEntry ⟨?_, by simp⟩ s.sel) (hs.tblLoadPhase hp)
    simpa using hfits
  | tblInvert _ hp hne hnodup =>
    exact inv_of_rmap (.inl rfl) (hs.pend_nil (by rcases hp with hp | hp | hp <;> simp [hp])) hdacc hs.entries hs.empty
      ⟨fun c hc => List.length_pos_iff.mpr fun hnil => hne (hnil ▸ hc), hnodup⟩ (toNat_longest hs.entries)
  | decStart _ _ hp =>
    exact inv_of_rmap (.inr (.inl rfl)) (hs.pend_nil (by simp [hp])) hdacc hs.entries hs.empty (hs.rmapPhase (.inl hp))
      (hs.lmax (by simp [hp]))
  | decByte _ _ _ hp =>
    exact inv_of_rmap (.inr (.inl hp)) (hs.pend_nil (by simp [hp])) hdacc hs.entries hs.empty (hs.rmapPhase (.inr (.inl hp)))
      (hs.lmax (by simp [hp]))
  | decEnd _ hp =>
    exact inv_of_rmap (.inr (.inr rfl)) (hs.pend_nil (by simp [hp])) hdacc hs.entries hs.empty
      (hs.rmapPhase (.inr (.inl hp))) (hs.lmax (by simp [hp]))

/-- Settles O55: no clause reads the port, ERR or RESP, and every effect keeps the clauses of the phase it leads to. -/
theorem stepKeepsTheInvariant : Obligations.StepKeepsTheInvariant :=
  fun _ _ hs h => step_keeps (fun _ rest hs => inv_port hs rest) (fun _ op r hs => inv_raiseError hs op r)
    (fun _ _ _ => Effect.inv) hs h

end Sys2Proof.Machine
end

section
/-! PROOF. The fields of the ERR token and of STATUS (60_exceptions.md R163, 10_state.md R31), and the commands that only report
(40_control.md R92, R94; 41_frequency.md R102). -/

namespace Sys2Proof.Machine

/-! ### Fields of a word put together with shifts -/

/-- Bits or-ed in above a value that ends below them are added to it. -/
theorem toNat_or_shiftLeft {a b : Word} {k x y : Nat} (ha : a.toNat = x) (hx : x < 2 ^ k) (hb : b.toNat = y)
    (hy : y * 2 ^ k < 2 ^ 32) : (a ||| b <<< k).toNat = x + y * 2 ^ k := by
  rw [BitVec.toNat_or, BitVec.toNat_shiftLeft, Nat.shiftLeft_eq, hb, Nat.mod_eq_of_lt hy, Nat.or_comm, Nat.mul_comm,
    ha, ← Nat.two_pow_add_eq_or_of_lt hx, Nat.add_comm]

theorem extractLsb'_eq_of_toNat {w : Word} {k n : Nat} {v : BitVec n} (h : w.toNat / 2 ^ k % 2 ^ n = v.toNat) :
    w.extractLsb' k n = v := by
  apply BitVec.eq_of_toNat_eq
  rw [BitVec.extractLsb'_toNat, Nat.shiftRight_eq_div_pow, h]

theorem getLsbD_eq_of_toNat {w : Word} {k : Nat} {b : Bool} (h : w.toNat / 2 ^ k % 2 = b.toNat) : w.getLsbD k = b := by
  rw [BitVec.getLsbD, Nat.testBit_eq_decide_div_mod_eq, h]
  cases b <;> rfl

/-! ### The ERR token -/

theorem errToken_value_toNat (op : Byte) (e : Error) :
    (Token.err op e).value.toNat = e.code.toNat + op.toNat * 2 ^ 24 := by
  have hop := op.isLt
  have hcode := e.code.isLt
  rw [Token.value, BitVec.or_comm]
  exact toNat_or_shiftLeft (BitVec.toNat_setWidth_of_le (by omega)) (by omega) (BitVec.toNat_setWidth_of_le (by omega)) (by omega)

/-- Settles O13: the value is the code plus the opcode times 2^24. -/
theorem errTokenCarriesOpcodeAndCode : Obligations.ErrTokenCarriesOpcodeAndCode := by
  refine ⟨⟨rfl, rfl, rfl, rfl, rfl, rfl, rfl, fun _ => rfl⟩, fun op e => ?_⟩
  have hop := op.isLt
  have hcode := e.code.isLt
  have hvalue := errToken_value_toNat op e
  refine ⟨rfl, extractLsb'_eq_of_toNat ?_, extractLsb'_eq_of_toNat ?_, extractLsb'_eq_of_toNat ?_⟩
  · omega
  · show _ = 0
    omega
  · omega

/-! ### STATUS -/

/-- Every position of a table, as the statements count them. -/
theorem toList_table_eq_finRange {α : Type} (t : Table α) :
    t.toList = (List.finRange 256).map fun k => entry t (BitVec.ofNat 8 k.val) := by
  rw [toList_table_eq, ← List.map_coe_finRange_eq_range, List.map_map, List.map_map]
  rfl

/-- NDIST is the number of symbols counted at least once (41_frequency.md R103). -/
theorem ndist_eq_card (freq : Table Word) :
    ndist freq = ((Finset.univ : Finset (Fin 256)).filter fun k => 1 ≤ (entry freq (BitVec.ofNat 8 k.val)).toNat).card := by
  rw [ndist, toList_table_eq_finRange, List.countP_map, List.countP_eq_length_filter, Fin.univ_def, Finset.card_def,
    Finset.filter_val, Multiset.filter_coe, Multiset.coe_card]
  refine congrArg List.length (List.filter_congr fun k _ => ?_)
  rw [Function.comp_apply, Bool.eq_iff_iff, bne_iff_ne, decide_eq_true_eq, ne_eq, ← BitVec.toNat_inj]
  exact Nat.pos_iff_ne_zero.symm

theorem ndist_le (freq : Table Word) : ndist freq ≤ 256 := by
  simpa [ndist] using List.countP_le_length (p := fun c => c != 0) (l := freq.toList)

/-- STATUS as a sum of its fields (R31). -/
theorem statusWord_toNat (s : State) :
    (statusWord s).toNat = (errCode s.err).toNat + s.phase.code.toNat * 2 ^ 4 + s.empty.toNat * 2 ^ 7 + s.lmax.toNat * 2 ^ 8 +
      ndist s.freq * 2 ^ 16 + s.legacy.toNat * 2 ^ 25 := by
  have herr := (errCode s.err).isLt
  have hphase := s.phase.code.isLt
  have hlmax := s.lmax.isLt
  have hndist := ndist_le s.freq
  have hempty := Bool.toNat_le s.empty
  have hlegacy := Bool.toNat_le s.legacy
  have hfield {n : Nat} (v : BitVec n) (hn : n ≤ 32) : (v.setWidth 32).toNat = v.toNat := BitVec.toNat_setWidth_of_le hn
  have hbool (b : Bool) : ((BitVec.ofBool b).setWidth 32).toNat = b.toNat := by
    rw [hfield _ (by omega), BitVec.toNat_ofBool]
  have hcount : (BitVec.ofNat 32 (ndist s.freq)).toNat = ndist s.freq := by
    rw [BitVec.toNat_ofNat, Nat.mod_eq_of_lt (by omega)]
  have h4 := toNat_or_shiftLeft (k := 4) (hfield (errCode s.err) (by omega)) (by omega)
    (hfield s.phase.code (by omega)) (by omega)
  have h7 := toNat_or_shiftLeft (k := 7) h4 (by omega) (hbool s.empty) (by omega)
  have h8 := toNat_or_shiftLeft (k := 8) h7 (by omega) (hfield s.lmax (by omega)) (by omega)
  have h16 := toNat_or_shiftLeft (k := 16) h8 (by omega) hcount (by omega)
  exact toNat_or_shiftLeft (k := 25) h16 (by omega) (hbool s.legacy) (by omega)

/-- Settles O23: the reads append one token, and each field of STATUS is read off the sum of its fields. -/
theorem nopAndReadsOnlyReport : Obligations.NopAndReadsOnlyReport := by
  refine ⟨⟨rfl, rfl, rfl, rfl, rfl, rfl, rfl, rfl⟩, fun s x =>
    ⟨rfl, rfl, statusWord s, ndist s.freq, rfl, ndist_eq_card s.freq, ?_⟩⟩
  have hword := statusWord_toNat s
  have herr := (errCode s.err).isLt
  have hphase := s.phase.code.isLt
  have hlmax := s.lmax.isLt
  have hndist := ndist_le s.freq
  have hempty := Bool.toNat_le s.empty
  have hlegacy := Bool.toNat_le s.legacy
  refine ⟨extractLsb'_eq_of_toNat ?_, extractLsb'_eq_of_toNat ?_, getLsbD_eq_of_toNat ?_, extractLsb'_eq_of_toNat ?_, ?_,
    getLsbD_eq_of_toNat ?_, extractLsb'_eq_of_toNat ?_⟩
  case refine_5 =>
    rw [BitVec.extractLsb'_toNat, Nat.shiftRight_eq_div_pow]
    omega
  case refine_7 =>
    show _ = 0
    omega
  all_goals omega

end Sys2Proof.Machine
end

section
/-! PROOF. What CODE_READ reports (42_tree_codes.md R121, 20_memory.md R54) and what ENC_SYM packs (43_packer.md R130, R52). -/

namespace Sys2Proof

/-! ### The bits of a left-aligned field -/

/-- The field with the value of n bits has position j of them in bit n - 1 - j. -/
theorem getMsbD_ofNat_bitsVal {n : Nat} {x : Bits} (h : x.length = n) (j : Nat) :
    (BitVec.ofNat n (bitsVal x)).getMsbD j = (x[j]?).getD false := by
  by_cases hj : j < n
  · have hrev : n - 1 - j < x.length := by omega
    have hback : x.length - 1 - (n - 1 - j) = j := by omega
    rw [BitVec.getMsbD, BitVec.getLsbD_ofNat, bitsVal_testBit, List.getElem?_reverse hrev, hback]
    simp [hj, h ▸ hrev]
  · simp [BitVec.getMsbD, hj, h]

theorem padTo_getElem?_getD (n : Nat) (x : Bits) (j : Nat) : ((padTo n x)[j]?).getD false = (x[j]?).getD false := by
  rw [padTo, List.getElem?_append]
  split
  · rfl
  · rw [List.getElem?_replicate, List.getElem?_eq_none (Nat.le_of_not_lt ‹_›)]
    split <;> rfl

namespace Machine

/-! ### CODE_READ -/

@[simp] theorem codeWords_length (x : Bits) : (codeWords x).length = (x.length + 31) / 32 := by simp [codeWords]

/-- Bit 31 - j of CODEBITS word k is position 32k + j of the code, 0 past its end (R54, R121). -/
theorem codeWords_getMsbD {x : Bits} {k j : Nat} {w : Word} (h : (codeWords x)[k]? = some w) (hj : j < 32) :
    w.getMsbD j = (x[32 * k + j]?).getD false := by
  obtain ⟨hk, rfl⟩ := List.getElem?_eq_some_iff.1 h
  have hfield : (padTo 32 ((x.drop (32 * k)).take 32)).length = 32 := by simp
  simp only [codeWords, List.getElem_map, List.getElem_range]
  rw [getMsbD_ofNat_bitsVal hfield, padTo_getElem?_getD, List.getElem?_take_of_lt hj, List.getElem?_drop]

/-- Settles O38: the words are `codeWords` of the entry's bits. -/
theorem codeReadReportsTheEntry : Obligations.CodeReadReportsTheEntry := fun s x =>
  ⟨codeWords (s.codeOf x).bits, rfl, codeWords_length _, fun _ _ _ => codeWords_getMsbD⟩

/-! ### ENC_SYM -/

theorem streamBits_eq_flatMap_byteBits (bs : List Byte) : streamBits bs = bs.flatMap byteBits := by
  rw [streamBits, funext byteBits_eq_map]

/-- ENC_SYM of a valid symbol whose code fits BITCNT raises nothing; `encSym_ok` is the other direction. -/
theorem encSym_of_fits {x : Sym} {s : State} (hvalid : (s.codeOf x).valid = true)
    (hfits : s.bitcnt.toNat + (s.codeOf x).bits.length ≤ Config.maxCount) :
    encSym x s = .ok { s with
      bitcnt := s.bitcnt + BitVec.ofNat 32 (s.codeOf x).bits.length
      pend := leftover (s.pend ++ (s.codeOf x).bits)
      resp := s.resp ++ (fullBytes (s.pend ++ (s.codeOf x).bits)).map .byte } := by
  simp [encSym, hvalid, Nat.not_lt.2 hfits]

/-- Settles O39: the bytes are the whole bytes of the old PEND with the code behind it, and the new PEND is what they leave over. -/
theorem encSymPacksTheCode : Obligations.EncSymPacksTheCode := by
  intro s x he hp hvalid hfits
  have hexec : exec (.encSym x) s = _ :=
    inPhases_of_ok (legal := [.codes]) he (hp ▸ List.mem_singleton_self _) (encSym_of_fits hvalid hfits)
  refine ⟨_, leftover _, fullBytes _, hexec, bitcnt_add hfits, ?_, ?_, ?_⟩
  · rw [streamBits_eq_flatMap_byteBits, fullBytes_append_leftover]
  · rw [leftover_length]
    exact Nat.mod_lt _ (by decide)
  · rw [fullBytes_length, List.length_append]

end Machine

end Sys2Proof
end

section
/-! PROOF. The decoder reads exactly the words the encoder writes, and those are the words of the opcode table (30_encoding.md R71 to
R75). -/

namespace Sys2Proof

open Machine

/-! ### Words as numbers -/

theorem extractLsb'_toNat_eq (w : Word) (k n : Nat) : (w.extractLsb' k n).toNat = w.toNat / 2 ^ k % 2 ^ n := by
  rw [BitVec.extractLsb'_toNat, Nat.shiftRight_eq_div_pow]

theorem wordOpcode_toNat (w : Word) : (wordOpcode w).toNat = w.toNat / 2 ^ 24 := by
  rw [wordOpcode, extractLsb'_toNat_eq]
  omega

/-- A word is its opcode with 24 operand bits below it (R70). -/
theorem encodeN_or_eq_iff {op : Byte} {v w : Word} (hv : v.toNat < 2 ^ 24) :
    encodeN op ||| v = w ↔ wordOpcode w = op ∧ w.toNat % 2 ^ 24 = v.toNat := by
  have hop := op.isLt
  have hsum : (encodeN op ||| v).toNat = v.toNat + op.toNat * 2 ^ 24 := by
    rw [BitVec.or_comm]
    exact toNat_or_shiftLeft rfl hv (BitVec.toNat_setWidth_of_le (by omega)) (by omega)
  rw [← BitVec.toNat_inj, ← BitVec.toNat_inj, hsum, wordOpcode_toNat]
  omega

theorem toNat_mod_eq_iff {w : Word} {k m : Nat} (hkm : k + m = 24) {x : BitVec k} :
    w.toNat % 2 ^ 24 = x.toNat ↔ w.extractLsb' k m = 0 ∧ w.extractLsb' 0 k = x := by
  have hx := x.isLt
  have hlow : w.toNat % 2 ^ k < 2 ^ k := Nat.mod_lt _ (Nat.two_pow_pos k)
  rw [← BitVec.toNat_inj, ← BitVec.toNat_inj, extractLsb'_toNat_eq, extractLsb'_toNat_eq, ← hkm, Nat.pow_add, Nat.mod_mul,
    BitVec.ofNat_eq_ofNat, BitVec.toNat_zero, Nat.pow_zero, Nat.div_one]
  generalize w.toNat / 2 ^ k % 2 ^ m = high
  constructor
  · intro h
    rcases Nat.eq_zero_or_pos high with rfl | hpos
    · simpa using h
    · have := Nat.le_mul_of_pos_right (2 ^ k) hpos
      omega
  · rintro ⟨rfl, h⟩
    simpa using h

/-- The word with operand x in its k low bits: the opcode is in place, the bits between are 0, and the low bits are x (R71). -/
theorem encodeN_or_field_eq_iff {op : Byte} {w : Word} {k : Nat} (m : Nat) (hkm : k + m = 24) {x : BitVec k} :
    encodeN op ||| x.setWidth 32 = w ↔ wordOpcode w = op ∧ w.extractLsb' k m = 0 ∧ w.extractLsb' 0 k = x := by
  have hx : (x.setWidth 32).toNat = x.toNat := BitVec.toNat_setWidth_of_le (by omega)
  have hlt : x.toNat < 2 ^ 24 := Nat.lt_of_lt_of_le x.isLt (Nat.pow_le_pow_right (by omega) (by omega))
  rw [encodeN_or_eq_iff (hx ▸ hlt), hx, toNat_mod_eq_iff hkm]

/-! ### A code in the payload of format A (R54, R71) -/

theorem bitsVal_padTo (n : Nat) (x : Bits) : bitsVal (padTo n x) = bitsVal x * 2 ^ (n - x.length) := by
  rw [padTo, bitsVal_append, bitsVal_replicate_false, List.length_replicate, Nat.add_zero]

/-- The code read from a payload is x, and the rest of the payload is 0, exactly when the payload is x left-aligned and nm1 is one
less than the length of x. -/
theorem payload_eq_iff {nm1 : BitVec 4} {payload : BitVec 16} {x : Bits} :
    payload.toNat % 2 ^ (16 - (nm1.toNat + 1)) = 0 ∧
        bitsMSB (payload.toNat / 2 ^ (16 - (nm1.toNat + 1))) (nm1.toNat + 1) = x ↔
      (1 ≤ x.length ∧ x.length ≤ 16) ∧ nm1 = BitVec.ofNat 4 (x.length - 1) ∧
        payload = BitVec.ofNat 16 (bitsVal (padTo 16 x)) := by
  have hnm1 := nm1.isLt
  constructor
  · rintro ⟨hunused, rfl⟩
    have hfits : payload.toNat / 2 ^ (16 - (nm1.toNat + 1)) < 2 ^ (nm1.toNat + 1) := by
      apply Nat.div_lt_of_lt_mul
      rw [← Nat.pow_add, Nat.sub_add_cancel (by omega)]
      exact payload.isLt
    rw [bitsVal_padTo, bitsMSB_length, bitsVal_bitsMSB hfits, Nat.div_mul_cancel (Nat.dvd_of_mod_eq_zero hunused)]
    exact ⟨by omega, by simp, by simp⟩
  · rintro ⟨⟨h1, h16⟩, rfl, rfl⟩
    have hlen : (BitVec.ofNat 4 (x.length - 1)).toNat + 1 = x.length := by
      rw [BitVec.toNat_ofNat]
      omega
    have hval : (BitVec.ofNat 16 (bitsVal (padTo 16 x))).toNat = bitsVal (padTo 16 x) := by
      have := bitsVal_lt (padTo 16 x)
      rw [padTo_length, max_eq_left h16] at this
      rw [BitVec.toNat_ofNat, Nat.mod_eq_of_lt this]
    rw [hlen, hval, bitsVal_padTo, Nat.mul_mod_left, Nat.mul_div_cancel _ (Nat.two_pow_pos _), bitsMSB_bitsVal]
    exact ⟨rfl, rfl⟩

theorem encodeA_eq_iff {op : Byte} {x : Bits} {w : Word} :
    encodeA op x = w ↔ wordOpcode w = op ∧ w.extractLsb' 20 4 = 0 ∧ w.extractLsb' 16 4 = BitVec.ofNat 4 (x.length - 1) ∧
      w.extractLsb' 0 16 = BitVec.ofNat 16 (bitsVal (padTo 16 x)) := by
  generalize hnm1 : BitVec.ofNat 4 (x.length - 1) = nm1
  generalize hpayload : BitVec.ofNat 16 (bitsVal (padTo 16 x)) = payload
  have hlow : (payload.setWidth 32 ||| nm1.setWidth 32 <<< 16 : Word).toNat = payload.toNat + nm1.toNat * 2 ^ 16 :=
    toNat_or_shiftLeft (BitVec.toNat_setWidth_of_le (by omega)) (by omega) (BitVec.toNat_setWidth_of_le (by omega)) (by omega)
  rw [encodeA, hnm1, hpayload, BitVec.or_assoc, BitVec.or_comm (nm1.setWidth 32 <<< 16), encodeN_or_eq_iff (by omega), hlow]
  simp only [← BitVec.toNat_inj, extractLsb'_toNat_eq, BitVec.ofNat_eq_ofNat, BitVec.toNat_zero]
  omega

/-! ### What each format's reader accepts (R71, R74) -/

section Readers
variable {op : Byte} {w : Word} {i j : Instr}

theorem decodeN_eq_ok : wordOpcode w = op ∧ decodeN i w = .ok j ↔ i = j ∧ encodeN op = w := by
  have hword := encodeN_or_field_eq_iff (op := op) (w := w) (x := 0#0) 24 rfl
  rw [show encodeN op = encodeN op ||| (0#0).setWidth 32 by simp, hword, decodeN]
  split <;> simp_all [and_comm]

/-- A reader of one field of k bits above which the format marks all bits 0. -/
theorem readField_eq_ok {k m : Nat} (hkm : k + m = 24) {c : BitVec k → Instr} {e : Malformed} :
    wordOpcode w = op ∧ (if w.extractLsb' k m = 0 then .ok (c (w.extractLsb' 0 k)) else .error e) = Except.ok j ↔
      ∃ x, c x = j ∧ encodeN op ||| x.setWidth 32 = w := by
  simp only [encodeN_or_field_eq_iff m hkm]
  split <;> simp_all [and_comm]

theorem decodeS_eq_ok {c : Byte → Instr} : wordOpcode w = op ∧ decodeS c w = .ok j ↔ ∃ x, c x = j ∧ encodeS op x = w :=
  readField_eq_ok rfl

theorem decodeI_eq_ok {c : Half → Instr} : wordOpcode w = op ∧ decodeI c w = .ok j ↔ ∃ x, c x = j ∧ encodeI op x = w :=
  readField_eq_ok rfl

theorem decodeM_eq_ok {c : Bool → Instr} : wordOpcode w = op ∧ decodeM c w = .ok j ↔ ∃ x, c x = j ∧ encodeM op x = w := by
  have hbit (x : Bool) : w.extractLsb' 0 1 = BitVec.ofBool x ↔ w.getLsbD 0 = x := by
    rw [← BitVec.toNat_inj, BitVec.toNat_ofBool, extractLsb'_toNat_eq, BitVec.getLsbD, Nat.testBit_zero]
    cases x <;> simp
  simp only [encodeM, encodeN_or_field_eq_iff 23 rfl, decodeM, hbit]
  split <;> simp_all [and_comm]

theorem decodeA_eq_ok {c : Bits → Instr} :
    wordOpcode w = op ∧ decodeA c w = .ok j ↔ ∃ x, c x = j ∧ (1 ≤ x.length ∧ x.length ≤ 16) ∧ encodeA op x = w := by
  simp only [encodeA_eq_iff, decodeA]
  constructor
  · rintro ⟨hop, h⟩
    split at h
    · cases h
    · split at h
      · cases h
      · obtain ⟨hwf, hfields⟩ := payload_eq_iff.1 ⟨not_not.1 ‹_›, rfl⟩
        exact ⟨_, Except.ok.inj h, hwf, hop, not_not.1 ‹_›, hfields⟩
  · rintro ⟨x, rfl, hwf, hop, hreserved, hfields⟩
    obtain ⟨hunused, hcode⟩ := payload_eq_iff.2 ⟨hwf, hfields⟩
    rw [if_neg (not_not.2 hreserved), if_neg (not_not.2 hunused), hcode]
    exact ⟨hop, rfl⟩

end Readers

/-! ### The dispatch on the opcode (R73, R75) -/

/-- The reader of a command's format, which gives a command of the same row of R73. -/
def Instr.reader : Instr → Word → Except Malformed Instr
  | .nop => decodeN .nop
  | .clear => decodeN .clear
  | .statusRead => decodeN .statusRead
  | .argLo _ => decodeI .argLo
  | .argHi _ => decodeI .argHi
  | .freqAdd _ => decodeS .freqAdd
  | .freqSet _ => decodeS .freqSet
  | .freqRead _ => decodeS .freqRead
  | .buildTree => decodeN .buildTree
  | .genCodes => decodeN .genCodes
  | .codeRead _ => decodeS .codeRead
  | .encSym _ => decodeS .encSym
  | .encFlush => decodeN .encFlush
  | .tblBegin _ => decodeS .tblBegin
  | .tblAppend _ => decodeA .tblAppend
  | .tblInvert => decodeN .tblInvert
  | .decStart _ => decodeM .decStart
  | .decByte _ => decodeS .decByte
  | .decEnd => decodeN .decEnd

theorem decode_of_opcode {i : Instr} {w : Word} (h : wordOpcode w = i.opcode) : decode w = i.reader w := by
  cases i <;> simp [decode, Instr.reader, h, Instr.opcode]

theorem decode_of_reserved {w : Word} (h : ∀ i : Instr, wordOpcode w ≠ i.opcode) : decode w = .error .reservedOpcode :=
  (if_neg (h .nop)).trans <| (if_neg (h .clear)).trans <| (if_neg (h .statusRead)).trans <|
  (if_neg (h (.argLo 0))).trans <| (if_neg (h (.argHi 0))).trans <| (if_neg (h (.freqAdd 0))).trans <|
  (if_neg (h (.freqSet 0))).trans <| (if_neg (h (.freqRead 0))).trans <| (if_neg (h .buildTree)).trans <|
  (if_neg (h .genCodes)).trans <| (if_neg (h (.codeRead 0))).trans <| (if_neg (h (.encSym 0))).trans <|
  (if_neg (h .encFlush)).trans <| (if_neg (h (.tblBegin 0))).trans <| (if_neg (h (.tblAppend []))).trans <|
  (if_neg (h .tblInvert)).trans <| (if_neg (h (.decStart false))).trans <| (if_neg (h (.decByte 0))).trans <|
  if_neg (h .decEnd)

/-- A word is dispatched to the reader of the row with its opcode. -/
theorem decode_eq_ok_iff {w : Word} {j : Instr} : decode w = .ok j ↔ ∃ i : Instr, wordOpcode w = i.opcode ∧ i.reader w = .ok j := by
  constructor
  · intro h
    by_cases hop : ∃ i : Instr, wordOpcode w = i.opcode
    · obtain ⟨i, hi⟩ := hop
      exact ⟨i, hi, decode_of_opcode hi ▸ h⟩
    · rw [decode_of_reserved fun i hi => hop ⟨i, hi⟩] at h
      cases h
  · rintro ⟨i, hi, h⟩
    rw [decode_of_opcode hi, h]

/-- Settles O1: the word carries its command's opcode, and each format's reader reads back what its encoder wrote. -/
theorem decodeReadsEveryEncoding : Obligations.DecodeReadsEveryEncoding := by
  intro i hwf
  rw [decode_eq_ok_iff]
  refine ⟨i, ?_⟩
  cases i
  case nop | clear | statusRead | buildTree | genCodes | encFlush | tblInvert | decEnd => exact decodeN_eq_ok.2 ⟨rfl, rfl⟩
  case argLo v | argHi v => exact decodeI_eq_ok.2 ⟨v, rfl, rfl⟩
  case tblAppend x => exact decodeA_eq_ok.2 ⟨x, rfl, by simpa [Instr.wf] using hwf, rfl⟩
  case decStart b => exact decodeM_eq_ok.2 ⟨b, rfl, rfl⟩
  all_goals exact decodeS_eq_ok.2 ⟨_, rfl, rfl⟩

/-- Settles O4: each word is the encoding of its command. -/
theorem sampleWordsDecode : Obligations.SampleWordsDecode :=
  ⟨decodeReadsEveryEncoding .nop rfl, decodeReadsEveryEncoding (.argLo 0x1234) rfl, decodeReadsEveryEncoding (.freqAdd 0x61) rfl,
    decodeReadsEveryEncoding (.codeRead 0xFF) rfl, decodeReadsEveryEncoding .encFlush rfl,
    decodeReadsEveryEncoding (.tblAppend [true, true, false]) rfl, decodeReadsEveryEncoding (.decStart true) rfl,
    decodeReadsEveryEncoding (.decByte 0x6E) rfl⟩

/-- Settles O2: each format's reader accepts only words its encoder writes for the row's opcode. -/
theorem decodedWordIsTheEncoding : Obligations.DecodedWordIsTheEncoding := by
  intro w j h
  obtain ⟨i, h⟩ := decode_eq_ok_iff.1 h
  cases i
  case nop | clear | statusRead | buildTree | genCodes | encFlush | tblInvert | decEnd =>
    obtain ⟨rfl, hw⟩ := decodeN_eq_ok.1 h
    exact ⟨rfl, hw⟩
  case argLo | argHi =>
    obtain ⟨v, rfl, hw⟩ := decodeI_eq_ok.1 h
    exact ⟨rfl, hw⟩
  case tblAppend =>
    obtain ⟨x, rfl, hwf, hw⟩ := decodeA_eq_ok.1 h
    exact ⟨by simpa [Instr.wf] using hwf, hw⟩
  case decStart =>
    obtain ⟨b, rfl, hw⟩ := decodeM_eq_ok.1 h
    exact ⟨rfl, hw⟩
  all_goals
    obtain ⟨x, rfl, hw⟩ := decodeS_eq_ok.1 h
    exact ⟨rfl, hw⟩

/-! ### The rows of the opcode table (R73, R74) -/

/-- The number of low bits that hold the operand fields in a command's format (R71). -/
def Instr.operandBits : Instr → Nat
  | .nop | .clear | .statusRead | .buildTree | .genCodes | .encFlush | .tblInvert | .decEnd => 0
  | .decStart _ => 1
  | .freqAdd _ | .freqSet _ | .freqRead _ | .codeRead _ | .encSym _ | .tblBegin _ | .decByte _ => 8
  | .argLo _ | .argHi _ => 16
  | .tblAppend _ => 20

/-- A command's row: its opcode in the match, every bit but the operand fields in the mask. -/
def Instr.row (i : Instr) : Word × Word := (encodeN i.opcode, BitVec.allOnes 32 <<< i.operandBits)

/-- One command of every row, in the order of the table. -/
def rowCommands : List Instr :=
  [.nop, .clear, .statusRead, .argLo 0, .argHi 0, .freqAdd 0, .freqSet 0, .freqRead 0, .buildTree, .genCodes, .codeRead 0, .encSym 0,
   .encFlush, .tblBegin 0, .tblAppend [], .tblInvert, .decStart false, .decByte 0, .decEnd]

theorem opcodeRows_eq_map : opcodeRows = rowCommands.map Instr.row := rfl

theorem mem_opcodeRows {row : Word × Word} : row ∈ opcodeRows ↔ ∃ i : Instr, i.row = row := by
  rw [opcodeRows_eq_map]
  constructor
  · intro h
    obtain ⟨i, -, hi⟩ := List.mem_map.1 h
    exact ⟨i, hi⟩
  · rintro ⟨i, rfl⟩
    cases i <;> simp only [rowCommands, List.map_cons, List.mem_cons, Instr.row, Instr.opcode, Instr.operandBits, true_or, or_true]

/-- The bits from bit k up match the opcode's word exactly when the opcode is in place and the bits between are 0. -/
theorem and_shiftLeft_eq_encodeN_iff {op : Byte} {w : Word} {k m : Nat} (hkm : k + m = 24) :
    w &&& BitVec.allOnes 32 <<< k = encodeN op ↔ wordOpcode w = op ∧ w.extractLsb' k m = 0 := by
  have hw := w.isLt
  have hop := op.isLt
  have hpow : 2 ^ 24 = 2 ^ k * 2 ^ m := by rw [← hkm, Nat.pow_add]
  have hmask : (w &&& BitVec.allOnes 32 <<< k).toNat = 2 ^ k * (w.toNat / 2 ^ k) := by
    have hle : 2 ^ k * (w.toNat / 2 ^ k) ≤ w.toNat := Nat.mul_div_le ..
    rw [← BitVec.shiftLeft_ushiftRight, BitVec.toNat_shiftLeft, BitVec.toNat_ushiftRight, Nat.shiftLeft_eq,
      Nat.shiftRight_eq_div_pow, Nat.mul_comm, Nat.mod_eq_of_lt (by omega)]
  have hencode : (encodeN op).toNat = 2 ^ k * (2 ^ m * op.toNat) := by
    rw [encodeN, BitVec.toNat_shiftLeft, BitVec.toNat_setWidth_of_le (by omega), Nat.shiftLeft_eq, Nat.mod_eq_of_lt (by omega),
      hpow, Nat.mul_comm, Nat.mul_assoc]
  rw [← BitVec.toNat_inj, ← BitVec.toNat_inj, ← BitVec.toNat_inj, hmask, hencode, Nat.mul_left_cancel_iff (Nat.two_pow_pos k),
    wordOpcode_toNat, extractLsb'_toNat_eq, hpow, ← Nat.div_div_eq_div_mul, BitVec.ofNat_eq_ofNat, BitVec.toNat_zero]
  rw [Nat.div_mod_unique (Nat.two_pow_pos m), Nat.zero_add, and_iff_left (Nat.two_pow_pos m), eq_comm]

theorem exists_ite_ok_iff {p : Prop} [Decidable p] {i : Instr} {e : Malformed} :
    (∃ j, (if p then Except.ok i else .error e) = .ok j) ↔ p := by
  split <;> simp [*]

theorem decodeA_isOk_iff {w : Word} {c : Bits → Instr} :
    (∃ j, decodeA c w = .ok j) ↔ w.extractLsb' 20 4 = 0 ∧ unusedPayloadZero w := by
  have hunused : unusedPayloadZero w ↔ (w.extractLsb' 0 16).toNat % 2 ^ (16 - ((w.extractLsb' 16 4).toNat + 1)) = 0 := by
    rw [extractLsb'_toNat_eq, extractLsb'_toNat_eq, Nat.pow_zero, Nat.div_one,
      Nat.mod_mod_of_dvd _ (Nat.pow_dvd_pow 2 (by omega))]
    rfl
  by_cases hreserved : w.extractLsb' 20 4 = 0
  · simp only [decodeA, hreserved, hunused, ne_eq, not_true_eq_false, if_false, ite_not, exists_ite_ok_iff, true_and]
  · simp only [decodeA, hreserved, ne_eq, not_false_eq_true, if_true, reduceCtorEq, exists_false, false_and]

theorem operandBits_le (i : Instr) : i.operandBits ≤ 24 := by cases i <;> simp [Instr.operandBits]

/-- A command's reader accepts a word whose reserved bits are 0, and for TBL_APPEND the unused payload bits too (R74). -/
theorem reader_isOk_iff {i : Instr} {w : Word} : (∃ j, i.reader w = .ok j) ↔
    w.extractLsb' i.operandBits (24 - i.operandBits) = 0 ∧ (i.opcode = 0x41 → unusedPayloadZero w) := by
  cases i
  case tblAppend => exact decodeA_isOk_iff.trans (and_congr_right' ⟨fun h _ => h, fun h => h rfl⟩)
  all_goals exact exists_ite_ok_iff.trans (and_iff_left fun h => by simp [Instr.opcode] at h).symm

/-- Settles O3: a row's match is its opcode with the reserved bits 0, which is what the row's reader checks. -/
theorem decodedWordsAreTheTableRows : Obligations.DecodedWordsAreTheTableRows := by
  intro w
  have hrow (i : Instr) := and_shiftLeft_eq_encodeN_iff (op := i.opcode) (w := w) (Nat.add_sub_cancel' (operandBits_le i))
  constructor
  · rintro ⟨j, h⟩
    obtain ⟨i, hop, hread⟩ := decode_eq_ok_iff.1 h
    obtain ⟨hreserved, hunused⟩ := reader_isOk_iff.1 ⟨j, hread⟩
    exact ⟨⟨i.row, mem_opcodeRows.2 ⟨i, rfl⟩, (hrow i).2 ⟨hop, hreserved⟩⟩, fun h41 => hunused (hop ▸ h41)⟩
  · rintro ⟨⟨row, hmem, hmatch⟩, hunused⟩
    obtain ⟨i, rfl⟩ := mem_opcodeRows.1 hmem
    obtain ⟨hop, hreserved⟩ := (hrow i).1 hmatch
    obtain ⟨j, hread⟩ := reader_isOk_iff.2 ⟨hreserved, fun h41 => hunused (hop.trans h41)⟩
    exact ⟨j, decode_eq_ok_iff.2 ⟨i, hop, hread⟩⟩

end Sys2Proof
end

section
/-! PROOF. The tokens' tags, values and 36 bits (30_encoding.md R77), and the two halves of ARG (40_control.md R95, R96; R79). -/

namespace Sys2Proof.Machine

theorem codeLen_value_toNat (v : Bool) (n : BitVec 8) : (Token.codeLen v n).value.toNat = n.toNat + v.toNat * 2 ^ 8 := by
  have hv := Bool.toNat_le v
  rw [Token.value, BitVec.or_comm]
  exact toNat_or_shiftLeft (BitVec.toNat_setWidth_of_le (by omega)) n.isLt (by cases v <;> rfl) (by omega)

theorem wire_tag (tok : Token) : tok.wire.extractLsb' 32 4 = tok.tag := by
  rw [Token.wire]
  ext i hi
  have hpos : 32 + i < 36 := by omega
  simp [hpos, BitVec.getLsbD_eq_getElem hi]

theorem wire_value (tok : Token) : tok.wire.extractLsb' 0 32 = tok.value := by
  rw [Token.wire]
  ext i hi
  have hpos : i < 36 := by omega
  simp [hi, hpos]

/-- Settles O14: a value of two fields is the lower one plus the upper one shifted; the channel word is the tag above the value. -/
theorem tokensHaveTheirTagsAndValues : Obligations.TokensHaveTheirTagsAndValues := by
  refine ⟨fun b => ⟨rfl, BitVec.toNat_setWidth_of_le (by omega)⟩, fun _ => ⟨rfl, rfl⟩,
    fun x => ⟨rfl, BitVec.toNat_setWidth_of_le (by omega)⟩, fun _ => ⟨rfl, rfl⟩, fun _ => ⟨rfl, rfl⟩,
    fun v n => ⟨rfl, ?_⟩, fun _ => ⟨rfl, rfl⟩, fun _ => ⟨rfl, rfl⟩, fun op e => ⟨rfl, ?_⟩, fun tok => ⟨wire_tag tok, wire_value tok⟩⟩
  · rw [codeLen_value_toNat, Nat.add_comm]
  · rw [errToken_value_toNat, Nat.add_comm]

/-! ### ARG -/

theorem putLo_toNat (a : Word) (v : Half) : (putLo a v).toNat = v.toNat + a.toNat / 2 ^ 16 * 2 ^ 16 := by
  rw [putLo, BitVec.or_comm]
  refine toNat_or_shiftLeft (BitVec.toNat_setWidth_of_le (by omega)) v.isLt ?_ (by omega)
  rw [BitVec.toNat_setWidth_of_le (by omega), extractLsb'_toNat_eq]
  omega

theorem putHi_toNat (a : Word) (v : Half) : (putHi a v).toNat = a.toNat % 2 ^ 16 + v.toNat * 2 ^ 16 := by
  rw [putHi, BitVec.or_comm]
  refine toNat_or_shiftLeft ?_ (Nat.mod_lt _ (by omega)) (BitVec.toNat_setWidth_of_le (by omega)) (by omega)
  rw [BitVec.toNat_setWidth_of_le (by omega), extractLsb'_toNat_eq, Nat.pow_zero, Nat.div_one]

/-- Both halves of a word written to ARG leave that word there, whatever ARG held. -/
theorem putHi_putLo (a w : Word) : putHi (putLo a (w.extractLsb' 0 16)) (w.extractLsb' 16 16) = w := by
  apply BitVec.eq_of_toNat_eq
  rw [putHi_toNat, putLo_toNat, extractLsb'_toNat_eq, extractLsb'_toNat_eq]
  omega

theorem exec_argLo {s : State} (v : Half) (he : s.err = none) : exec (.argLo v) s = .next { s with arg := putLo s.arg v } :=
  unlessError_of_none (fun s => { s with arg := putLo s.arg v }) he

theorem exec_argHi {s : State} (v : Half) (he : s.err = none) : exec (.argHi v) s = .next { s with arg := putHi s.arg v } :=
  unlessError_of_none (fun s => { s with arg := putHi s.arg v }) he

theorem runAll_loadArg {s : State} (w : Word) (he : s.err = none) : runAll (loadArg w) s = .next { s with arg := w } := by
  rw [loadArg, runAll_cons (exec_argLo _ he), runAll_cons (exec_argHi (s := { s with arg := putLo s.arg _ }) _ he), runAll,
    putHi_putLo]

/-- Settles O24: ARG after each half write, read as a number, has the written half and the kept one; two writes give all of it. -/
theorem argHalvesAreWritten : Obligations.ArgHalvesAreWritten := by
  intro s v he
  have hv := v.isLt
  have hlo := putLo_toNat s.arg v
  have hhi := putHi_toNat s.arg v
  have hhigh := extractLsb'_toNat_eq s.arg 16 16
  have hlow := extractLsb'_toNat_eq s.arg 0 16
  exact ⟨⟨_, exec_argLo v he, extractLsb'_eq_of_toNat (by omega), extractLsb'_eq_of_toNat (by omega)⟩,
    ⟨_, exec_argHi v he, extractLsb'_eq_of_toNat (by omega), extractLsb'_eq_of_toNat (by omega)⟩, fun w => runAll_loadArg w he⟩

end Sys2Proof.Machine
end

section
/-! PROOF. A malformed word raises ILLEGAL unless the error state discards it (30_encoding.md R74, 60_exceptions.md R162 to R164). -/

namespace Sys2Proof.Machine

theorem takeMalformed_of_none (w : Word) {s : State} (he : s.err = none) :
    takeMalformed w s = raiseError (wordOpcode w) (.plain .illegal) s := by
  simp only [takeMalformed, he]

theorem takeMalformed_of_error (w : Word) {s : State} (he : s.err ≠ none) : takeMalformed w s = s := by
  unfold takeMalformed
  split
  · rfl
  · exact absurd ‹_› he

/-- Settles O6: with the word consumed, `takeMalformed` is error entry with ILLEGAL or, in the error state, nothing. -/
theorem malformedWordRaisesIllegal : Obligations.MalformedWordRaisesIllegal := by
  intro s w rest hport hmalformed
  rcases hdec : decode w with e | i
  · rw [step_malformed hport hdec]
    refine ⟨fun he => ?_, fun he => ?_⟩
    · rw [takeMalformed_of_none w (s := { s with port := rest }) he, raiseError_plain]
      rfl
    · rw [takeMalformed_of_error w (s := { s with port := rest }) he]
  · exact absurd hdec (hmalformed i)

end Sys2Proof.Machine
end

section
/-! PROOF. TBL_LOAD loads a whole code, 16 bits at a time (30_encoding.md R79, 44_unpacker.md R140, R141). -/

namespace Sys2Proof.Machine

theorem setEntry_setEntry {α : Type} (t : Table α) (x : Sym) (v v' : α) : setEntry (setEntry t x v) x v' = setEntry t x v' := by
  simp only [setEntry, Vector.set_set]

/-- The pieces of a code in order are the code. -/
theorem chunks16_flatten (c : Bits) : (chunks16 c).flatten = c := by
  have hprefix (n : Nat) : ((List.range n).map fun k => (c.drop (16 * k)).take 16).flatten = c.take (16 * n) := by
    induction n with
    | zero => simp
    | succ n ih => simp [List.range_succ, ih, Nat.mul_succ, List.take_add]
  rw [chunks16, hprefix, List.take_of_length_le (by omega)]

/-- The state in the middle of loading a code for x: c holds the bits so far (R140, R141). -/
def loading (s : State) (x : Sym) (c : Bits) : State :=
  { s with code := setEntry s.code x ⟨true, c⟩, sel := x, phase := .tblLoad }

theorem exec_tblBegin {s : State} (x : Sym) (he : s.err = none) (hp : s.phase = .freq ∨ s.phase = .tblLoad) :
    exec (.tblBegin x) s = .next (loading s x []) :=
  inPhases_of_ok (body := fun s => .ok (loading s x [])) he (by simpa using hp) rfl

theorem exec_tblAppend_loading {s : State} {x : Sym} {c bits : Bits} (he : s.err = none) (hfits : c.length + bits.length ≤ 255) :
    exec (.tblAppend bits) (loading s x c) = .next (loading s x (c ++ bits)) := by
  have hentry : (loading s x c).codeOf (loading s x c).sel = ⟨true, c⟩ := entry_setEntry_self ..
  refine inPhases_of_ok (legal := [.tblLoad]) he (List.mem_singleton_self _) ?_
  rw [tblAppend, hentry, if_neg (Nat.not_lt.2 hfits)]
  simp only [loading, setEntry_setEntry]

theorem runAll_tblAppend_loading {s : State} {x : Sym} (he : s.err = none) (pieces : List Bits) {c : Bits}
    (hfits : (c ++ pieces.flatten).length ≤ 255) :
    runAll (pieces.map .tblAppend) (loading s x c) = .next (loading s x (c ++ pieces.flatten)) := by
  induction pieces generalizing c with
  | nil => simp [runAll]
  | cons bits pieces ih =>
    rw [List.flatten_cons, ← List.append_assoc] at hfits ⊢
    have hbits : c.length + bits.length ≤ 255 := by
      simp only [List.length_append] at hfits
      omega
    rw [List.map_cons, runAll_cons (exec_tblAppend_loading he hbits), ih hfits]

theorem runAll_tblLoad {s : State} {x : Sym} {c : Bits} (he : s.err = none) (hp : s.phase = .freq ∨ s.phase = .tblLoad)
    (hfits : c.length ≤ 255) : runAll (Pseudo.tblLoad x c).expand s = .next (loading s x c) := by
  have hpieces := chunks16_flatten c
  have happend := runAll_tblAppend_loading (x := x) he (chunks16 c) (c := []) (by rwa [hpieces])
  rw [hpieces] at happend
  rw [Pseudo.expand, runAll_cons (exec_tblBegin x he hp)]
  exact happend

/-- Settles O45: the pieces TBL_APPEND adds are in order the whole code, and no other entry is written on the way. -/
theorem tblLoadLoadsAWholeCode : Obligations.TblLoadLoadsAWholeCode := fun s x c he hp _ hfits =>
  ⟨loading s x c, runAll_tblLoad he hp hfits, he, rfl, entry_setEntry_self .., fun _ hy => entry_setEntry_of_ne _ _ hy⟩

end Sys2Proof.Machine
end

section
/-! PROOF. The errors a command's body raises past the phase check, by command (60_exceptions.md R161). -/

namespace Sys2Proof.Machine

theorem freqAdd_error {x : Sym} {s : State} {r : Raise} (h : freqAdd x s = .error r) : r = .plain .overflow := by
  unfold freqAdd at h
  split at h
  · exact (Except.error.inj h).symm
  · cases h

theorem encSym_error {x : Sym} {s : State} {r : Raise} (h : encSym x s = .error r) :
    r = .plain .encoding ∨ r = .plain .overflow := by
  simp only [encSym] at h
  split at h
  · exact .inl (Except.error.inj h).symm
  · split at h
    · exact .inr (Except.error.inj h).symm
    · cases h

theorem tblAppend_error {bits : Bits} {s : State} {r : Raise} (h : tblAppend bits s = .error r) :
    r = .plain .corruptTable := by
  simp only [tblAppend] at h
  split at h
  · exact (Except.error.inj h).symm
  · cases h

theorem tblInvert_error {s : State} {r : Raise} (h : tblInvert s = .error r) : r = .plain .corruptTable := by
  unfold tblInvert at h
  split at h
  · exact (Except.error.inj h).symm
  · split at h
    · exact (Except.error.inj h).symm
    · cases h

/-- The loop raises what one of its bits raises (44_unpacker.md R145). -/
theorem scanBits_error_code {s : State} {pos : Nat} {x : Bits} {a : Scan} {r : Raise} (h : scanBits s pos x a = .error r) :
    r.code = .decoding ∨ r.code = .overflow := by
  induction x generalizing pos a with
  | nil => cases h
  | cons b x ih =>
    simp only [scanBits] at h
    split at h
    · obtain rfl := Except.error.inj h
      obtain ⟨-, ⟨hcode, -⟩ | ⟨hcode, -⟩ | ⟨hcode, -⟩⟩ := scanBit_error ‹_›
      · exact .inl hcode
      · exact .inr hcode
      · exact .inl hcode
    · exact ih h

theorem decByte_error_code {b : Byte} {s : State} {r : Raise} (h : decByte b s = .error r) :
    r.code = .decoding ∨ r.code = .overflow := by
  unfold decByte at h
  split at h
  · exact .inl (Except.error.inj h ▸ rfl)
  · split at h
    · exact .inr (Except.error.inj h ▸ rfl)
    · split at h
      · exact Except.error.inj h ▸ scanBits_error_code ‹_›
      · cases h

theorem decEnd_error {s : State} {r : Raise} (h : decEnd s = .error r) : r = .plain .decoding := by
  unfold decEnd at h
  split at h
  · cases h
  · exact (Except.error.inj h).symm

end Sys2Proof.Machine
end

section
/-! PROOF. The phase table (40_control.md R91): SEQUENCE outside the legal phases and only there, the listed phase after success. -/

namespace Sys2Proof.Machine

/-- The command is the phase check over its row of R91's table, and then a body that keeps ERR or raises an error of its row of
R161's table other than SEQUENCE, the row's first. -/
structure ChecksPhase (i : Instr) (legal : List Phase) (body : State → Except Raise State) : Prop where
  exec_eq : ∀ s, exec i s = inPhases i.opcode legal body s
  mem_legal : ∀ p, p ∈ legal ↔ legalIn i p = true
  keepsErr : ∀ s t, body s = .ok t → t.err = s.err
  raises : ∀ s r, body s = .error r → r.code ∈ (mayRaise i).tail

/-- The command is legal in every phase and raises nothing (R91, R161). -/
structure NeverRaises (i : Instr) : Prop where
  legal : ∀ p, legalIn i p = true
  err_none : ∀ s t, s.err = none → exec i s = .next t → t.err = none

/-- A command whose body raises nothing checks its phase and nothing else. -/
theorem checksPhase_of_total {i : Instr} {legal : List Phase} {f : State → State}
    (hexec : ∀ s, exec i s = inPhases i.opcode legal (fun s => .ok (f s)) s) (hlegal : ∀ p, p ∈ legal ↔ legalIn i p = true)
    (herr : ∀ s, (f s).err = s.err) : ChecksPhase i legal fun s => .ok (f s) where
  exec_eq := hexec
  mem_legal := hlegal
  keepsErr s _ h := Except.ok.inj h ▸ herr s
  raises _ _ h := by cases h

theorem neverRaises_of_next {i : Instr} {f : State → State} (hlegal : ∀ p, legalIn i p = true)
    (hexec : ∀ s, s.err = none → exec i s = .next (f s)) (herr : ∀ s, s.err = none → (f s).err = none) : NeverRaises i where
  legal := hlegal
  err_none s t he h := by
    rw [hexec s he, Host.Outcome.next.injEq] at h
    exact h ▸ herr s he

theorem genCodes_err (s : State) : (genCodes s).err = s.err := by
  cases h : s.empty
  · rw [genCodes_of_not_empty h]
  · rw [genCodes_of_empty h]

theorem genCodes_phase (s : State) : (genCodes s).phase = .codes := by
  cases h : s.empty
  · rw [genCodes_of_not_empty h]
  · rw [genCodes_of_empty h]

/-- Every command is of one of the two kinds. -/
theorem neverRaises_or_checksPhase (i : Instr) : NeverRaises i ∨ ∃ legal body, ChecksPhase i legal body := by
  cases i with
  | nop | statusRead | freqRead | codeRead =>
    exact .inl (neverRaises_of_next (fun _ => rfl) (fun _ _ => rfl) fun _ he => he)
  | clear => exact .inl (neverRaises_of_next (fun _ => rfl) (fun _ _ => rfl) fun _ _ => rfl)
  | argLo v => exact .inl (neverRaises_of_next (fun _ => rfl) (fun _ => exec_argLo v) fun _ he => he)
  | argHi v => exact .inl (neverRaises_of_next (fun _ => rfl) (fun _ => exec_argHi v) fun _ he => he)
  | freqSet | encFlush | tblBegin | decStart =>
    exact .inr ⟨_, _, checksPhase_of_total (fun _ => rfl) (by simp [legalIn]) fun _ => rfl⟩
  | buildTree => exact .inr ⟨_, _, checksPhase_of_total (fun _ => rfl) (by simp [legalIn]) buildTree_err⟩
  | genCodes => exact .inr ⟨_, _, checksPhase_of_total (fun _ => rfl) (by simp [legalIn]) genCodes_err⟩
  | freqAdd x =>
    refine .inr ⟨_, freqAdd x, fun _ => rfl, by simp [legalIn], fun s t h => ?_, fun s r h => ?_⟩
    · obtain ⟨-, rfl⟩ := freqAdd_ok h
      rfl
    · simp [freqAdd_error h, mayRaise]
  | encSym x =>
    refine .inr ⟨_, encSym x, fun _ => rfl, by simp [legalIn], fun s t h => ?_, fun s r h => ?_⟩
    · obtain ⟨-, -, rfl⟩ := encSym_ok h
      rfl
    · obtain rfl | rfl := encSym_error h <;> simp [mayRaise]
  | tblAppend bits =>
    refine .inr ⟨_, tblAppend bits, fun _ => rfl, by simp [legalIn], fun s t h => ?_, fun s r h => ?_⟩
    · obtain ⟨-, rfl⟩ := tblAppend_ok h
      rfl
    · simp [tblAppend_error h, mayRaise]
  | tblInvert =>
    refine .inr ⟨_, tblInvert, fun _ => rfl, by simp [legalIn, or_assoc], fun s t h => ?_, fun s r h => ?_⟩
    · obtain ⟨-, -, rfl⟩ := tblInvert_ok h
      rfl
    · simp [tblInvert_error h, mayRaise]
  | decByte b =>
    refine .inr ⟨_, decByte b, fun _ => rfl, by simp [legalIn], fun s t h => ?_, fun s r h => ?_⟩
    · obtain ⟨a, -, -, -, rfl⟩ := decByte_ok h
      rfl
    · simpa [mayRaise] using decByte_error_code h
  | decEnd =>
    refine .inr ⟨_, decEnd, fun _ => rfl, by simp [legalIn], fun s t h => ?_, fun s r h => ?_⟩
    · obtain ⟨-, rfl⟩ := decEnd_ok h
      rfl
    · simp [decEnd_error h, mayRaise]

/-- SEQUENCE stands only first in its row of R161's table. -/
theorem sequence_notMem_tail_mayRaise (i : Instr) : Error.sequence ∉ (mayRaise i).tail := by cases i <;> simp [mayRaise]

theorem exec_of_not_legal {i : Instr} {s : State} (he : s.err = none) (hlegal : legalIn i s.phase = false) :
    exec i s = .next (raiseError i.opcode (.plain .sequence) s) := by
  obtain hfree | ⟨legal, body, hcheck⟩ := neverRaises_or_checksPhase i
  · simp [hfree.legal] at hlegal
  · rw [hcheck.exec_eq]
    exact inPhases_of_phase _ body he (by simp [hcheck.mem_legal, hlegal])

theorem err_ne_sequence_of_legal {i : Instr} {s t : State} (he : s.err = none) (hlegal : legalIn i s.phase = true)
    (h : exec i s = .next t) : t.err ≠ some .sequence := by
  obtain hfree | ⟨legal, body, hcheck⟩ := neverRaises_or_checksPhase i
  · simp [hfree.err_none s t he h]
  · rw [hcheck.exec_eq] at h
    rcases inPhases_cases h with ⟨he', -⟩ | ⟨-, -, hb⟩ | ⟨r, -, -, hb, rfl⟩ | ⟨-, hp, -⟩
    · exact absurd he he'
    · simp [hcheck.keepsErr s t hb, he]
    · intro hseq
      exact sequence_notMem_tail_mayRaise i (Option.some.inj hseq ▸ hcheck.raises s r hb)
    · exact absurd ((hcheck.mem_legal _).mpr hlegal) hp

/-- An effect leads to the phase of the table's last column. -/
theorem Effect.phase {i : Instr} {s t : State} (h : Effect s i t) : t.phase = phaseAfter i s.phase := by
  cases h with
  | buildTree => exact buildTree_phase s
  | genCodes => exact genCodes_phase s
  | nop | clear | statusRead | argLo | argHi | freqAdd | freqSet | freqRead | codeRead | encSym | encFlush | tblBegin | tblAppend
  | tblInvert | decStart | decByte | decEnd => rfl

theorem phase_of_success {i : Instr} {s t : State} (he : s.err = none) (h : exec i s = .next t) (ht : t.err = none) :
    t.phase = phaseAfter i s.phase := by
  cases exec_outcome h with
  | discarded _ he' => exact absurd he he'
  | raised => simp at ht
  | effect _ heff => exact heff.phase

/-- Settles O16: outside its legal phases a command is the phase check's SEQUENCE; in them no body raises SEQUENCE, and what succeeds
is the command's effect. -/
theorem phaseTableIsKept : Obligations.PhaseTableIsKept := by
  refine fun i s he => ⟨fun hlegal => ?_, fun hlegal => ?_⟩
  · rw [exec_of_not_legal he hlegal, raiseError_plain]
  · obtain ⟨t, ht⟩ := exec_answers i s
    exact ⟨t, ht, err_ne_sequence_of_legal he hlegal ht, phase_of_success he ht⟩

end Sys2Proof.Machine
end

section
/-! PROOF. A step runs the command its word decodes to (40_control.md R90, 60_exceptions.md R175), and CLEAR starts a new session
(R93, R166). -/

namespace Sys2Proof.Machine

theorem withFetchWord_eq_pushWord (s : State) {w : Nat} (hw : w < 2 ^ 32) :
    s.withFetchWord 32 w = s.pushWord (BitVec.ofNat 32 w) := by rw [State.withFetchWord, Nat.mod_eq_of_lt hw]

/-- A word put in front and then consumed leaves the state as it was. -/
theorem step_pushWord {s : State} {w : Word} {i : Instr} (h : decode w = .ok i) : step (s.pushWord w) = exec i s :=
  step_command (s := s.pushWord w) rfl h

/-- Settles O5: the word taken is the first waiting one, `withFetchWord` puts the word there, and an engine with none waits. -/
theorem stepRunsTheDecodedCommand : Obligations.StepRunsTheDecodedCommand :=
  ⟨fun _ _ _ _ => step_command, fun s w i hw hdec => by rw [withFetchWord_eq_pushWord s hw, step_pushWord hdec],
    fun _ => step_idle⟩

theorem exec_clear (s : State) : exec .clear s = .next (clearSession s) := always_eq clearSession s

/-- Settles O22: CLEAR runs in every phase and in the error state, and its body is a new session. -/
theorem clearStartsANewSession : Obligations.ClearStartsANewSession := exec_clear

end Sys2Proof.Machine
end

section
/-! PROOF. The Frequency Analyzer: FREQ_ADD counts one occurrence, FREQ_SET loads ARG, and counting a text gives its
frequencies (41_frequency.md R100, R101, R104). -/

namespace Sys2Proof.Machine

theorem exec_freqAdd_of_lt {s : State} {x : Sym} (he : s.err = none) (hp : s.phase = .freq) (hx : (s.freqOf x).toNat < 2 ^ 32 - 1) :
    exec (.freqAdd x) s = .next { s with freq := setEntry s.freq x (s.freqOf x + 1) } :=
  inPhases_of_ok he (List.mem_singleton.mpr hp) (if_neg hx.ne)

theorem exec_freqAdd_of_max {s : State} {x : Sym} (he : s.err = none) (hp : s.phase = .freq) (hx : (s.freqOf x).toNat = 2 ^ 32 - 1) :
    exec (.freqAdd x) s = .next (raiseError Opcode.freqAdd (.plain .overflow) s) :=
  inPhases_of_raise he (List.mem_singleton.mpr hp) (if_pos hx)

theorem exec_freqSet {s : State} (x : Sym) (he : s.err = none) (hp : s.phase = .freq) :
    exec (.freqSet x) s = .next { s with freq := setEntry s.freq x s.arg } :=
  inPhases_of_ok (body := fun s => .ok { s with freq := setEntry s.freq x s.arg }) he (List.mem_singleton.mpr hp) rfl

/-- Below the largest count, one more occurrence is one more in the number the count stands for (R6). -/
theorem toNat_count_add_one {c : Word} (hc : c.toNat < 2 ^ 32 - 1) : (c + 1).toNat = c.toNat + 1 :=
  BitVec.toNat_add_of_lt (by simpa using Nat.add_lt_of_lt_sub hc)

/-- Settles O25: the new table differs in the symbol's entry alone, and at the largest count the body raises OVERFLOW. -/
theorem freqAddCountsOneOccurrence : Obligations.FreqAddCountsOneOccurrence := by
  refine fun s x he hp => ⟨fun hx => ⟨_, exec_freqAdd_of_lt he hp hx, ?_, fun y hy => entry_setEntry_of_ne _ _ hy⟩, fun hx => ?_⟩
  · rw [entry_setEntry_self, toNat_count_add_one hx]
  · rw [exec_freqAdd_of_max he hp hx, raiseError_plain]

/-- Settles O26: the entry written is ARG, and the others are read back as they were. -/
theorem freqSetLoadsArg : Obligations.FreqSetLoadsArg := fun _ x he hp =>
  ⟨_, exec_freqSet x he hp, entry_setEntry_self .., fun _ hy => entry_setEntry_of_ne _ _ hy⟩

/-- Counting a text on top of the counts there are: where no sum of a count and the occurrences to come passes the largest count,
FREQ takes the sums and nothing else changes (R100, R104). -/
theorem runAll_freqAdd {s : State} {t : List Sym} (he : s.err = none) (hp : s.phase = .freq)
    (hfits : ∀ x, (s.freqOf x).toNat + t.count x ≤ 2 ^ 32 - 1) :
    ∃ f : Table Word, runAll (t.map .freqAdd) s = .next { s with freq := f } ∧
      ∀ x, (entry f x).toNat = (s.freqOf x).toNat + t.count x := by
  induction t generalizing s with
  | nil => exact ⟨s.freq, rfl, fun _ => rfl⟩
  | cons c t ih =>
    have hc : (s.freqOf c).toNat < 2 ^ 32 - 1 := by
      have := hfits c
      rw [List.count_cons_self] at this
      omega
    obtain ⟨f, hexec, hself, hother⟩ := (freqAddCountsOneOccurrence s c he hp).1 hc
    have hsum (x : Sym) : (entry f x).toNat + t.count x = (s.freqOf x).toNat + (c :: t).count x := by
      by_cases hx : x = c
      · rw [hx, hself, List.count_cons_self, Nat.add_assoc, Nat.add_comm 1]
      · rw [hother x hx, List.count_cons_of_ne (Ne.symm hx)]
    obtain ⟨g, hrun, hg⟩ := ih (s := { s with freq := f }) he hp fun x => (hsum x).trans_le (hfits x)
    exact ⟨g, (runAll_cons hexec).trans hrun, fun x => (hg x).trans (hsum x)⟩

/-- Settles O27: CLEAR leaves every count 0 in phase FREQ without an error, and the text is counted on top of that. -/
theorem countingATextGivesItsFrequencies : Obligations.CountingATextGivesItsFrequencies := by
  intro s t hcount
  have hzero (x : Sym) : ((clearSession s).freqOf x).toNat + t.count x = t.count x := by
    simp [State.freqOf, State.reset]
  obtain ⟨f, hrun, hf⟩ := runAll_freqAdd (s := clearSession s) rfl rfl fun x => (hzero x).trans_le (hcount x)
  exact ⟨_, (runAll_cons (exec_clear s)).trans hrun, rfl, rfl, rfl, fun x => (hf x).trans (hzero x)⟩

end Sys2Proof.Machine
end

section
/-! PROOF. The pool BUILD_TREE leaves (42_tree_codes.md R111 to R114): how many nodes, the leaves in symbol order, and the queue order
of the merges. -/

namespace Sys2Proof.Machine

/-! ### The nodes allocated (R114) -/

theorem countP_leaf_eq (pool : List Node) : pool.countP (fun nd => nd.kind = .leaf) = (leafSyms pool).length := by
  rw [leafSyms, List.length_filterMap_eq_countP]
  refine List.countP_congr fun nd _ => ?_
  by_cases hk : nd.kind = .leaf <;> simp [hk]

theorem countP_leaf_add_countP_internal (pool : List Node) :
    pool.countP (fun nd => nd.kind = .leaf) + pool.countP (fun nd => nd.kind = .internal) = pool.length := by
  rw [List.length_eq_countP_add_countP (fun nd : Node => decide (nd.kind = .leaf))]
  congr 1
  refine List.countP_congr fun nd _ => ?_
  cases nd.kind <;> simp

/-- When one node is left in the queue it is the newest (R114). -/
theorem MergeShape.live_iff {n : Nat} {pool : List Node} (h : MergeShape n pool) (hone : liveCount pool = 1) {k : Nat}
    {nd : Node} (hk : pool[k]? = some nd) : nd.live = true ↔ k = pool.length - 1 := by
  obtain ⟨hlt, rfl⟩ := List.getElem?_eq_some_iff.mp hk
  constructor
  · intro hlive
    by_contra hne
    have hlast := h.lastLive _ (List.getElem?_eq_getElem (by omega))
    simp [dead_of_lt_last hone (i := k) (by omega) hlast] at hlive
  · rintro rfl
    exact h.lastLive _ hk

/-- Behind the leaves every node is internal (R111, R113). -/
theorem MergeShape.kind_of_ge {n : Nat} {pool : List Node} (h : MergeShape n pool) {k : Nat} {nd : Node} (hk : n ≤ k)
    (hnd : pool[k]? = some nd) : nd.kind = .internal := by
  cases hkind : nd.kind with
  | leaf => exact absurd ((h.leavesFirst k nd hnd).mp hkind) (Nat.not_lt.mpr hk)
  | internal => rfl

theorem buildTree_nn (s : State) : (buildTree s).nn.val = (buildPool s.freq).length := by rw [← pool_length, buildTree_pool]

/-- The nodes behind the allocated ones keep their value (R110). -/
theorem buildTree_nodes_of_ge (s : State) {i : Fin 511} (hi : (buildTree s).nn.val ≤ i.val) :
    (buildTree s).nodes[i] = s.nodes[i] := by
  rw [buildTree_nn] at hi
  by_cases h : buildPool s.freq = []
  · rw [buildTree_of_nil h]
  · rw [buildTree_of_ne_nil h]
    show (storePool s.nodes (buildPool s.freq))[i.val] = s.nodes[i.val]
    rw [storePool_getElem _ _ _ i.isLt (buildPool_length_le s.freq), List.getElem?_eq_none hi, Option.getD_none]

/-- Settles O28: n leaves and one internal node a merge, and the merges stop with the newest node alone in the queue. -/
theorem buildTreeAllocatesTheTree : Obligations.BuildTreeAllocatesTheTree := by
  refine fun s he hp => ⟨_, exec_buildTree_of_freq he hp, (buildTree_err s).trans he, buildTree_phase s, buildTree_resp s,
    fun hnil => ?_, fun hne => ?_⟩
  · rw [buildTree_of_nil ((buildPool_counts s.freq).1 hnil)]
    exact ⟨rfl, rfl, rfl, rfl⟩
  · obtain ⟨hlen, hone⟩ := (buildPool_counts s.freq).2 hne
    have hleaf : (buildPool s.freq).countP (fun nd => nd.kind = .leaf) = (mapSyms s.freq).length := by
      rw [countP_leaf_eq, leafSyms_buildPool]
    have hsum := countP_leaf_add_countP_internal (buildPool s.freq)
    rw [buildTree_pool, buildTree_root, buildTree_nn]
    refine ⟨buildTree_empty hne, by omega, rfl, rfl, hleaf, by omega, fun k nd hk => ?_, fun i hi => ?_⟩
    · exact (mergeShape_buildPool s.freq).live_iff hone hk
    · exact buildTree_nodes_of_ge s (by rwa [buildTree_nn])

/-! ### The leaves in symbol order (R111) -/

theorem leafNode_weight (x : Sym) (c : Word) : (leafNode x c).w.toNat = c.toNat := by
  have := c.isLt
  simp only [leafNode, BitVec.toNat_setWidth]
  omega

/-- The node is x's leaf, in the queue or out of it, with x's count as weight. -/
def IsLeafOf (freq : Table Word) (x : Sym) (nd : Node) : Prop :=
  nd.kind = .leaf ∧ nd.sym = x ∧ nd.w.toNat = (entry freq x).toNat ∧ nd.l = 0 ∧ nd.r = 0

/-- The leaves stand in the pool in symbol order. -/
def LeavesInOrder (freq : Table Word) (pool : List Node) : Prop :=
  ∀ (k : Nat) (x : Sym), (mapSyms freq)[k]? = some x → ∃ nd, pool[k]? = some nd ∧ IsLeafOf freq x nd

theorem leavesInOrder_buildPool (freq : Table Word) : LeavesInOrder freq (buildPool freq) := by
  refine mergeAll_induction (P := LeavesInOrder freq) (fun p q hp hstep k x hx => ?_) 255 fun k x hx => ?_
  · obtain ⟨a, b, w, -, -, -, rfl⟩ := mergeStep_eq hstep
    obtain ⟨nd, hk, hleaf⟩ := hp k x hx
    exact ⟨_, mergeNodes_getElem?_old a b w hk, hleaf⟩
  · refine ⟨leafNode x (entry freq x), ?_, rfl, rfl, leafNode_weight x _, rfl, rfl⟩
    rw [leaves_eq, List.getElem?_map, hx, Option.map_some]

/-- What `exec` makes of BUILD_TREE in phase FREQ. -/
theorem eq_buildTree_of_exec {s t : State} (he : s.err = none) (hp : s.phase = .freq) (h : exec .buildTree s = .next t) :
    t = buildTree s := Host.Outcome.next.inj (h.symm.trans (exec_buildTree_of_freq he hp))

/-- Settles O29: the leaves are made in symbol order, and merging changes LIVE alone. -/
theorem buildTreeMakesLeavesInSymbolOrder : Obligations.BuildTreeMakesLeavesInSymbolOrder := by
  intro s t he hp h k x hx
  obtain rfl := eq_buildTree_of_exec he hp h
  rw [buildTree_pool]
  exact leavesInOrder_buildPool s.freq k x hx

/-! ### The queue, by index and weight -/

/-- Node i is in the queue (R110). -/
def InQueue (pool : List Node) (i : Nat) : Prop := ∃ nd, pool[i]? = some nd ∧ nd.live = true

/-- The sum of the weights in the queue. -/
def queueWeight (pool : List Node) : Nat := (pool.map fun nd => if nd.live then nd.w.toNat else 0).sum

theorem weightAt_of_some {pool : List Node} {i : Nat} {nd : Node} (h : pool[i]? = some nd) : weightAt pool i = nd.w.toNat := by
  simp [weightAt, h]

/-- extractMin takes the first node of the queue (R110, R112). -/
theorem extractMin_first {pool pool' : List Node} {i : Nat} {w : Weight} (h : extractMin pool = some (i, w, pool')) :
    InQueue pool i ∧ weightAt pool i = w.toNat ∧ ∀ j, InQueue pool j → j ≠ i → comesBefore pool i j := by
  obtain ⟨nd, hi, hlive, rfl, hmin⟩ := minLive_some (extractMin_some h).1
  refine ⟨⟨nd, hi, hlive⟩, weightAt_of_some hi, ?_⟩
  rintro j ⟨nd', hj, hlive'⟩ hne
  rw [comesBefore, weightAt_of_some hi, weightAt_of_some hj]
  exact hmin j nd' hj hlive' hne

/-- Behind extractMin the others are still in the queue, and every weight is as it was. -/
theorem extractMin_rest {pool pool' : List Node} {i : Nat} {w : Weight} (h : extractMin pool = some (i, w, pool')) (j : Nat) :
    (InQueue pool' j ↔ InQueue pool j ∧ j ≠ i) ∧ weightAt pool' j = weightAt pool j := by
  obtain ⟨-, rfl⟩ := extractMin_some h
  simp only [InQueue, weightAt, List.getElem?_modify]
  rcases pool[j]? with _ | nd
  · simp
  · by_cases hij : i = j
    · simp [hij]
    · simp [hij, Ne.symm hij]

theorem queueWeight_modify {pool : List Node} {i : Nat} {nd : Node} (h : pool[i]? = some nd) (hl : nd.live = true) :
    queueWeight (pool.modify i fun nd => { nd with live := false }) + nd.w.toNat = queueWeight pool := by
  induction pool generalizing i with
  | nil => simp at h
  | cons d pool ih =>
    rcases i with _ | i
    · obtain rfl : d = nd := by simpa using h
      simp [queueWeight, hl, Nat.add_comm]
    · have := ih (i := i) (by simpa using h)
      simp only [queueWeight, List.modify_succ_cons, List.map_cons, List.sum_cons] at this ⊢
      omega

theorem extractMin_queueWeight {pool pool' : List Node} {i : Nat} {w : Weight} (h : extractMin pool = some (i, w, pool')) :
    queueWeight pool' + w.toNat = queueWeight pool := by
  obtain ⟨hm, rfl⟩ := extractMin_some h
  obtain ⟨nd, hi, hl, rfl, -⟩ := minLive_some hm
  exact queueWeight_modify hi hl

/-! ### One merge in queue order -/

/-- The new node of a merge has the first node of the queue on the left and the second on the right; the weights in the queue fit 40
bits, so its weight is their exact sum, and the queue weighs what it did (R112, R113). -/
theorem mergeStep_first_two {pool q : List Node} (h : mergeStep pool = some q) (hlen : pool.length ≤ 511)
    (hw : queueWeight pool < 2 ^ 40) {nd : Node} (hnd : q[pool.length]? = some nd) :
    (InQueue pool nd.l.val ∧ InQueue pool nd.r.val ∧ nd.l ≠ nd.r) ∧
    (∀ i, InQueue pool i → i ≠ nd.l.val → comesBefore pool nd.l.val i) ∧
    (∀ i, InQueue pool i → i ≠ nd.l.val → i ≠ nd.r.val → comesBefore pool nd.r.val i) ∧
    nd.w.toNat = weightAt pool nd.l.val + weightAt pool nd.r.val ∧ queueWeight q = queueWeight pool := by
  obtain ⟨a, b, wa, wb, p₁, p₂, h₁, h₂, rfl⟩ := mergeStep_some h
  have hlen₁ := extractMin_length h₁
  have hlen₂ := extractMin_length h₂
  have ha := extractMin_lt h₁
  have hb := extractMin_lt h₂
  obtain rfl : internalNode a b (wa + wb) = nd := by
    simpa [List.getElem?_append_right (hlen₂.trans hlen₁).le, hlen₂, hlen₁] using hnd
  have hal : (internalNode a b (wa + wb)).l.val = a := Nat.mod_eq_of_lt (by omega)
  have hbr : (internalNode a b (wa + wb)).r.val = b := Nat.mod_eq_of_lt (by omega)
  obtain ⟨hqa, hwa, hmina⟩ := extractMin_first h₁
  obtain ⟨hqb, hwb, hminb⟩ := extractMin_first h₂
  have hrest := extractMin_rest h₁
  have hsum₁ := extractMin_queueWeight h₁
  have hsum₂ := extractMin_queueWeight h₂
  have hqb' := (hrest b).1.mp hqb
  have hexact : (wa + wb).toNat = wa.toNat + wb.toNat := BitVec.toNat_add_of_lt (by omega)
  rw [Ne, Fin.ext_iff, hal, hbr]
  refine ⟨⟨hqa, hqb'.1, hqb'.2.symm⟩, hmina, fun i hi hia hib => ?_, ?_, ?_⟩
  · have := hminb i ((hrest i).1.mpr ⟨hi, hia⟩) hib
    rwa [comesBefore, (hrest b).2, (hrest i).2] at this
  · rw [hwa, ← (hrest b).2, hwb]
    exact hexact
  · simp only [queueWeight, List.map_append, List.sum_append] at hsum₁ hsum₂ ⊢
    simp [internalNode, hexact]
    omega

/-! ### The queue at every merge -/

section MergeNodes

variable {pool : List Node} {a b : Nat} {w : Weight}

/-- What was in the queue at the creation of an old node does not depend on the merges since. -/
theorem queuedAt_mergeNodes {i k : Nat} (hk : k ≤ pool.length) : queuedAt (mergeNodes a b w pool) i k ↔ queuedAt pool i k := by
  refine and_congr_right fun _ => ⟨fun h j nd hj hnd => ?_, fun h j nd hj hnd => ?_⟩
  · exact h j (leaveQueue a b j nd) hj (mergeNodes_getElem?_old a b w hnd)
  · rcases mergeNodes_getElem? hnd with ⟨old, hold, rfl⟩ | ⟨rfl, -⟩
    · exact h j old hj hold
    · omega

theorem weightAt_mergeNodes {i : Nat} (hi : i < pool.length) : weightAt (mergeNodes a b w pool) i = weightAt pool i := by
  rw [weightAt_of_some (mergeNodes_getElem?_old a b w (List.getElem?_eq_getElem hi)),
    weightAt_of_some (List.getElem?_eq_getElem hi)]
  rfl

theorem comesBefore_mergeNodes {i j : Nat} (hi : i < pool.length) (hj : j < pool.length) :
    comesBefore (mergeNodes a b w pool) i j ↔ comesBefore pool i j := by
  rw [comesBefore, comesBefore, weightAt_mergeNodes hi, weightAt_mergeNodes hj]

/-- An old node merged the first two of the queue, and still did. -/
theorem mergesFirstTwo_mergeNodes {k : Nat} {nd : Node} (hk : k ≤ pool.length) :
    mergesFirstTwo (mergeNodes a b w pool) k nd ↔ mergesFirstTwo pool k nd := by
  have hlt {i : Nat} (hi : queuedAt pool i k) : i < pool.length := Nat.lt_of_lt_of_le hi.1 hk
  simp only [mergesFirstTwo, queuedAt_mergeNodes hk]
  refine and_congr_right fun hl => and_congr_right fun hr => and_congr_right fun _ => ?_
  rw [weightAt_mergeNodes (hlt hl), weightAt_mergeNodes (hlt hr)]
  refine and_congr (forall₂_congr fun i hi => ?_) (and_congr_left fun _ => forall₂_congr fun i hi => ?_)
  · rw [comesBefore_mergeNodes (hlt hl) (hlt hi)]
  · rw [comesBefore_mergeNodes (hlt hr) (hlt hi)]

theorem inQueue_mergeNodes {i : Nat} :
    InQueue (mergeNodes a b w pool) i ↔ (InQueue pool i ∧ a ≠ i ∧ b ≠ i) ∨ i = pool.length := by
  constructor
  · rintro ⟨nd, hi, hlive⟩
    rcases mergeNodes_getElem? hi with ⟨old, hold, rfl⟩ | ⟨rfl, -⟩
    · simp only [leaveQueue, Bool.and_eq_true, decide_eq_true_eq] at hlive
      exact .inl ⟨⟨old, hold, hlive.1⟩, hlive.2⟩
    · exact .inr rfl
  · rintro (⟨⟨nd, hi, hlive⟩, hne⟩ | rfl)
    · exact ⟨_, mergeNodes_getElem?_old a b w hi, by simp [leaveQueue, hlive, hne]⟩
    · exact ⟨_, mergeNodes_getElem?_new pool a b w, rfl⟩

end MergeNodes

/-- From the creation of node k to the next, the queue loses k's children and gets k. -/
theorem queuedAt_succ {pool : List Node} {k : Nat} {nd : Node} (hk : pool[k]? = some nd) (hint : nd.kind = .internal)
    (hbelow : ∀ (v : Nat) (nd : Node), pool[v]? = some nd → nd.kind = .internal → nd.l.val < v ∧ nd.r.val < v) (i : Nat) :
    queuedAt pool i (k + 1) ↔ (queuedAt pool i k ∧ nd.l.val ≠ i ∧ nd.r.val ≠ i) ∨ i = k := by
  constructor
  · rintro ⟨hi, hfree⟩
    by_cases hik : i = k
    · exact .inr hik
    · exact .inl ⟨⟨by omega, fun j x hj => hfree j x (by omega)⟩, hfree k nd (by omega) hk hint⟩
  · rintro (⟨⟨hi, hfree⟩, hne⟩ | rfl)
    · refine ⟨by omega, fun j x hj hx hkind => ?_⟩
      by_cases hjk : j = k
      · subst hjk
        rw [hk, Option.some.injEq] at hx
        exact hx ▸ hne
      · exact hfree j x (by omega) hx hkind
    · refine ⟨by omega, fun j x hj hx hkind => ?_⟩
      have := hbelow j x hx hkind
      omega

/-- What holds of the queue at every turn of the merge loop: LIVE marks it, every internal node merged its first two, and its
weights fit 40 bits together (R7). -/
structure MergeOrder (pool : List Node) : Prop where
  queued : ∀ i, InQueue pool i ↔ queuedAt pool i pool.length
  merges : ∀ (k : Nat) (nd : Node), pool[k]? = some nd → nd.kind = .internal → nd.sym = 0 ∧ mergesFirstTwo pool k nd
  fits : queueWeight pool < 2 ^ 40

/-- 256 counts of 32 bits have a sum of 40 bits (R7). -/
theorem queueWeight_leaves_lt (freq : Table Word) : queueWeight (leaves freq) < 2 ^ 40 := by
  have hle : ∀ c ∈ (leaves freq).map fun nd => if nd.live then nd.w.toNat else 0, c ≤ 2 ^ 32 - 1 := by
    intro c hc
    rw [leaves_eq, List.map_map, List.mem_map] at hc
    obtain ⟨x, -, rfl⟩ := hc
    have hlt := (entry freq x).isLt
    rw [← leafNode_weight x] at hlt
    simp only [Function.comp_apply]
    split <;> omega
  have hsum := List.sum_le_card_nsmul _ _ hle
  have hn := mapSyms_length_le freq
  rw [List.length_map, leaves_eq, List.length_map, ← leaves_eq, smul_eq_mul] at hsum
  rw [queueWeight]
  omega

theorem mergeOrder_leaves (freq : Table Word) : MergeOrder (leaves freq) := by
  have hleaf : ∀ (i : Nat) (nd : Node), (leaves freq)[i]? = some nd → nd.kind = .leaf ∧ nd.live = true := by
    intro i nd h
    rw [leaves_eq, List.getElem?_map, Option.map_eq_some_iff] at h
    obtain ⟨x, -, rfl⟩ := h
    exact ⟨rfl, rfl⟩
  refine ⟨fun i => ⟨?_, fun ⟨hi, _⟩ => ?_⟩, fun k nd hk hint => ?_, queueWeight_leaves_lt freq⟩
  · rintro ⟨nd, hi, -⟩
    refine ⟨(List.getElem?_eq_some_iff.mp hi).1, fun j x _ hx hint => ?_⟩
    simp [(hleaf j x hx).1] at hint
  · exact ⟨_, List.getElem?_eq_getElem hi, (hleaf i _ (List.getElem?_eq_getElem hi)).2⟩
  · simp [(hleaf k nd hk).1] at hint

/-- Every merge keeps the order. -/
theorem MergeOrder.of_mergeStep {n : Nat} (hn : n ≤ 256) {pool q : List Node} (hshape : MergeShape n pool) (h : MergeOrder pool)
    (hstep : mergeStep pool = some q) : MergeOrder q := by
  have hshape' := hshape.of_mergeStep hn hstep
  have hcount := hshape.count
  obtain ⟨hlen, -⟩ := mergeStep_counts hstep
  obtain ⟨a, b, w, ha, hb, h2, rfl⟩ := mergeStep_eq hstep
  have hnew := mergeNodes_getElem?_new pool a b w
  obtain ⟨⟨hql, hqr, hne⟩, hminl, hminr, hw, hweight⟩ := mergeStep_first_two hstep (by omega) h.fits hnew
  constructor
  case queued =>
    intro i
    have hal : (internalNode a b w).l.val = a := Nat.mod_eq_of_lt (by omega)
    have hbr : (internalNode a b w).r.val = b := Nat.mod_eq_of_lt (by omega)
    rw [hlen, queuedAt_succ hnew rfl hshape'.childBelow, queuedAt_mergeNodes le_rfl, ← h.queued, hal, hbr, inQueue_mergeNodes]
  case merges =>
    intro k nd hk hint
    rcases mergeNodes_getElem? hk with ⟨old, hold, rfl⟩ | ⟨rfl, rfl⟩
    · have hlt := (List.getElem?_eq_some_iff.mp hold).1
      obtain ⟨hsym, hfirst⟩ := h.merges k old hold hint
      exact ⟨hsym, (mergesFirstTwo_mergeNodes hlt.le).mpr hfirst⟩
    · refine ⟨rfl, (mergesFirstTwo_mergeNodes le_rfl).mpr ?_⟩
      simp only [mergesFirstTwo, ← h.queued]
      exact ⟨hql, hqr, hne, hminl, hminr, hw⟩
  case fits => rw [hweight]; exact h.fits

/-- The pool BUILD_TREE makes has the order. -/
theorem mergeOrder_buildPool (freq : Table Word) : MergeOrder (buildPool freq) := by
  have hn := mapSyms_length_le freq
  refine (mergeAll_induction (P := fun p => MergeShape (mapSyms freq).length p ∧ MergeOrder p) ?_ 255
    ⟨mergeShape_leaves freq, mergeOrder_leaves freq⟩).2
  rintro p q ⟨hshape, horder⟩ hstep
  exact ⟨hshape.of_mergeStep hn hstep, horder.of_mergeStep hn hshape hstep⟩

/-- Settles O30: behind the leaves every node is internal, and each merge keeps what the others did. -/
theorem buildTreeMergesTheTwoLowest : Obligations.BuildTreeMergesTheTwoLowest := by
  intro s t he hp h k nd hk hnd _
  obtain rfl := eq_buildTree_of_exec he hp h
  rw [buildTree_pool] at hnd ⊢
  have hint : nd.kind = .internal := (mergeShape_buildPool s.freq).kind_of_ge hk hnd
  exact ⟨hint, (mergeOrder_buildPool s.freq).merges k nd hnd hint⟩

end Sys2Proof.Machine
end

section
/-! PROOF. The codes GEN_CODES writes (42_tree_codes.md R117 to R120, R123, R126): a single leaf's, the paths from ROOT, the longest of
them, that every bit sequence begins with one, and that the counts alone decide them. -/

namespace Sys2Proof.Machine

/-! ### Without a merge (R117, R119) -/

/-- Settles O31: an EMPTY tree writes nothing, and a leaf at ROOT makes GEN_CODES write its symbol's entry alone. -/
theorem genCodesWithoutAMerge : Obligations.GenCodesWithoutAMerge := by
  refine fun s he hp => ⟨fun hempty => ?_, fun hempty hleaf => ?_⟩
  · rw [exec_genCodes_of_tree he hp, genCodes_of_empty hempty]
  · have htable : genTable s = writeCodes s.code [((s.nodes[s.root]).sym, [false])] := if_pos hleaf
    have hcode : (genCodes s).code = genTable s := by rw [genCodes_of_not_empty hempty]
    refine ⟨_, exec_genCodes_of_tree he hp, (genCodes_err s).trans he, genCodes_phase s, genCodes_resp s, ?_, fun x hx => ?_⟩
    · rw [State.codeOf, hcode, htable, entry_writeCodes_of_mem (b := [false]) (by simp) (by simp)]
    · rw [State.codeOf, hcode, htable, entry_writeCodes_of_notMem (by simpa using hx.symm), State.codeOf]

/-! ### LMAX (R120) -/

/-- Settles O33: both commands lead to a phase where the invariant holds LMAX to the longest valid code. -/
theorem lmaxIsTheLongestValidCode : Obligations.LmaxIsTheLongestValidCode := by
  intro i s t hinv he hi h ht
  have hlmax : t.lmax.toNat = longest t.code := by
    cases exec_outcome h with
    | discarded _ he' => exact absurd he he'
    | raised => simp at ht
    | effect _ heff =>
      refine (heff.inv hinv).lmax ?_
      rcases hi with rfl | rfl <;> simp [heff.phase, phaseAfter]
  rw [hlmax]
  refine ⟨fun x => length_le_longest, (longest_attained t.code).imp_right fun ⟨hzero, hnone⟩ => ⟨?_, hnone⟩⟩
  exact BitVec.eq_of_toNat_eq (hlmax.trans hzero)

/-! ### The path of every node (R118) -/

/-- The path of node i, [] where there is none. -/
def nodePath (pool : List Node) (root i : Nat) : Bits := (pathTo pool root Config.maxLen i).getD []

theorem nodePath_root (pool : List Node) (root : Nat) : nodePath pool root root = [] := by
  rw [nodePath, pathTo_root, Option.getD_some]

/-- A node has one parent: once it is merged it is in no later queue (R113). -/
theorem MergeOrder.parent_unique {pool : List Node} (h : MergeOrder pool) {i v v' : Nat} {nd nd' : Node}
    (hv : pool[v]? = some nd) (hk : nd.kind = .internal) (hi : nd.l.val = i ∨ nd.r.val = i)
    (hv' : pool[v']? = some nd') (hk' : nd'.kind = .internal) (hi' : nd'.l.val = i ∨ nd'.r.val = i) : v = v' := by
  have hqueued : ∀ {k : Nat} {x : Node}, pool[k]? = some x → x.kind = .internal → (x.l.val = i ∨ x.r.val = i) →
      queuedAt pool i k := by
    intro k x hx hint hchild
    obtain ⟨hl, hr, -⟩ := (h.merges k x hx hint).2
    rcases hchild with rfl | rfl
    · exact hl
    · exact hr
  rcases Nat.lt_trichotomy v v' with hlt | heq | hgt
  · have := (hqueued hv' hk' hi').2 v nd hlt hv hk
    omega
  · exact heq
  · have := (hqueued hv hk hi).2 v' nd' hgt hv' hk'
    omega

theorem MergeOrder.parentOf_eq {pool : List Node} (h : MergeOrder pool) {i v : Nat} {nd : Node} (hv : pool[v]? = some nd)
    (hk : nd.kind = .internal) (hi : nd.l.val = i ∨ nd.r.val = i) : parentOf pool i = some (nd, v) := by
  obtain ⟨nd', v', hpar⟩ := HasParent.parentOf_isSome ⟨v, nd, hv, hk, hi⟩
  obtain ⟨hv', hk', hi'⟩ := parentOf_some hpar
  obtain rfl := h.parent_unique hv hk hi hv' hk' hi'
  rw [hv, Option.some.injEq] at hv'
  rw [hpar, hv']

section TreeBuilt

variable {s : State} (h : TreeBuilt s)
include h

theorem TreeBuilt.order : MergeOrder s.pool := h.pool ▸ mergeOrder_buildPool s.freq

/-- Every node has a path. -/
theorem TreeBuilt.pathTo_eq {i : Nat} (hi : i < s.pool.length) : pathTo s.pool s.root.val Config.maxLen i =
    some (nodePath s.pool s.root.val i) := by
  have hn := mapSyms_length_le s.freq
  have hlen := h.length
  rw [← pool_length] at hlen
  obtain ⟨p, hp⟩ := h.shape.pathTo_isSome h.liveCount hi (fuel := Config.maxLen) (by simp only [Config.maxLen]; omega)
  rw [← h.root_eq] at hp
  rw [nodePath, hp, Option.getD_some]

/-- An internal node is one step nearer to ROOT than MAXLEN. -/
theorem TreeBuilt.pathTo_internal_eq {v : Nat} {nd : Node} (hv : s.pool[v]? = some nd) (hk : nd.kind = .internal) :
    pathTo s.pool s.root.val 254 v = some (nodePath s.pool s.root.val v) := by
  have hn := mapSyms_length_le s.freq
  have hlen := h.length
  have hlt := (List.getElem?_eq_some_iff.mp hv).1
  have hge : ¬ v < (mapSyms s.freq).length := fun hlt => by simp [(h.shape.leavesFirst v nd hv).mpr hlt] at hk
  rw [← pool_length] at hlen
  obtain ⟨p, hp⟩ := h.shape.pathTo_isSome h.liveCount hlt (fuel := 254) (by omega)
  rw [← h.root_eq] at hp
  rw [hp, ← h.pathTo_eq hlt]
  exact (pathTo_mono hp).symm

/-- A child's path is its parent's with one bit behind it (R118). -/
theorem TreeBuilt.nodePath_of_child {i v : Nat} {nd : Node} (hv : s.pool[v]? = some nd) (hk : nd.kind = .internal)
    (hi : nd.l.val = i ∨ nd.r.val = i) :
    nodePath s.pool s.root.val i = nodePath s.pool s.root.val v ++ [decide (nd.l.val ≠ i)] := by
  have hbelow := h.shape.childBelow v nd hv hk
  have hlt := (List.getElem?_eq_some_iff.mp hv).1
  have hroot : i ≠ s.root.val := by
    rw [h.root_eq]
    omega
  rw [nodePath, Config.maxLen, pathTo, if_neg hroot, h.order.parentOf_eq hv hk hi]
  simp only [h.pathTo_internal_eq hv hk, Option.getD_some]

theorem TreeBuilt.nodePath_children {v : Nat} {nd : Node} (hv : s.pool[v]? = some nd) (hk : nd.kind = .internal) :
    nodePath s.pool s.root.val nd.l.val = nodePath s.pool s.root.val v ++ [false] ∧
      nodePath s.pool s.root.val nd.r.val = nodePath s.pool s.root.val v ++ [true] := by
  obtain ⟨-, -, hne, -⟩ := (h.order.merges v nd hv hk).2
  rw [h.nodePath_of_child hv hk (.inl rfl), h.nodePath_of_child hv hk (.inr rfl)]
  simp [Fin.val_inj, hne]

/-- Every leaf's code is its path (R118). -/
theorem TreeBuilt.entry_genTable_leaf (h2 : 2 ≤ (mapSyms s.freq).length) {i : Nat} {nd : Node} (hi : s.pool[i]? = some nd)
    (hk : nd.kind = .leaf) : entry (genTable s) nd.sym = ⟨true, nodePath s.pool s.root.val i⟩ := by
  have hcode : leafCode s.pool s.root.val i = nodePath s.pool s.root.val i := by
    rw [leafCode, h.pathTo_eq (List.getElem?_eq_some_iff.mp hi).1, Option.getD_some]
  rw [h.genTable_of_several h2]
  refine entry_writeCodes_of_mem (mem_leafCodes.mpr ⟨i, nd, hi, hk, rfl, hcode⟩) ?_
  rw [leafCodes_syms, h.leafSyms]
  exact nodup_mapSyms s.freq

theorem TreeBuilt.two_le_of_internal (hroot : (s.nodes[s.root]).kind = .internal) : 2 ≤ (mapSyms s.freq).length := by
  have hpos := List.length_pos_iff.mpr h.counted
  have hone : (mapSyms s.freq).length ≠ 1 := fun hone => by
    cases hroot.symm.trans (h.rootNode_leaf_iff.mpr hone)
  omega

end TreeBuilt

/-- Settles O32: the path function is the machine's own, whose equations hold because every node but ROOT has one parent. -/
theorem genCodesWritesRootPaths : Obligations.GenCodesWritesRootPaths := by
  intro s hinv he hp hempty hroot
  have h : TreeBuilt s := hinv.treeBuilt hp hempty
  have hcode : (genCodes s).code = genTable s := by rw [genCodes_of_not_empty hempty]
  refine ⟨_, nodePath s.pool s.root.val, exec_genCodes_of_tree he hp, (genCodes_err s).trans he, genCodes_phase s,
    genCodes_resp s, nodePath_root _ _, fun v nd => h.nodePath_children, fun i nd hi hk => ?_, fun x hx => ?_⟩
  · rw [State.codeOf, hcode, h.entry_genTable_leaf (h.two_le_of_internal hroot) hi hk]
  · rw [State.codeOf, hcode, h.entry_genTable_of_notMem (h.leafSyms ▸ hx), State.codeOf]

/-! ### Bit sequences and paths (R123) -/

/-- The infinite bit sequence begins with x. -/
def BeginsWith (stream : Nat → Bool) (x : Bits) : Prop := x = (List.range x.length).map stream

theorem BeginsWith.snoc {stream : Nat → Bool} {x : Bits} (h : BeginsWith stream x) :
    BeginsWith stream (x ++ [stream x.length]) := by
  rw [BeginsWith, List.length_append, List.length_singleton, List.range_succ, List.map_append, ← h]
  rfl

/-- Of two beginnings of a sequence the shorter begins the longer. -/
theorem BeginsWith.isPrefix {stream : Nat → Bool} {x y : Bits} (hx : BeginsWith stream x) (hy : BeginsWith stream y)
    (hle : x.length ≤ y.length) : x <+: y := by
  rw [hx, hy]
  obtain ⟨k, hk⟩ := Nat.exists_eq_add_of_le hle
  rw [hk, List.range_add, List.map_append]
  exact List.prefix_append _ _

/-- From a node whose path begins the sequence, the sequence leads down to a leaf. -/
theorem TreeBuilt.exists_leaf_below {s : State} (h : TreeBuilt s) (stream : Nat → Bool) (v : Nat) (hv : v < s.pool.length)
    (hpath : BeginsWith stream (nodePath s.pool s.root.val v)) :
    ∃ i nd, s.pool[i]? = some nd ∧ nd.kind = .leaf ∧ BeginsWith stream (nodePath s.pool s.root.val i) := by
  induction v using Nat.strong_induction_on with
  | _ v ih =>
    have hnode := List.getElem?_eq_getElem hv
    cases hk : (s.pool[v]).kind with
    | leaf => exact ⟨v, _, hnode, hk, hpath⟩
    | internal =>
      obtain ⟨hl, hr⟩ := h.shape.childBelow v _ hnode hk
      obtain ⟨hpl, hpr⟩ := h.nodePath_children hnode hk
      have hnext := hpath.snoc
      cases hbit : stream (nodePath s.pool s.root.val v).length with
      | false => exact ih _ hl (by omega) (by rwa [hpl, ← hbit])
      | true => exact ih _ hr (by omega) (by rwa [hpr, ← hbit])

/-! ### BUILD_TREE and GEN_CODES from FREQ -/

theorem generated_of_nil {s : State} (hnil : mapSyms s.freq = []) :
    (genCodes (buildTree s)).code = s.code ∧ (genCodes (buildTree s)).lmax = 0 := by
  rw [buildTree_of_nil ((buildPool_counts s.freq).1 hnil), genCodes_of_empty rfl]
  exact ⟨rfl, rfl⟩

theorem buildTree_freq (s : State) : (buildTree s).freq = s.freq := buildTree_frame s (el := .freq) (by simp [writes])

theorem buildTree_code (s : State) : (buildTree s).code = s.code := buildTree_frame s (el := .code) (by simp [writes])

section Generated

variable {s : State} (hinv : Inv s) (hp : s.phase = .freq)
include hinv hp

theorem Inv.buildTree_not_empty (hne : mapSyms s.freq ≠ []) : (buildTree s).empty = false := by
  obtain ⟨-, -, -, hempty⟩ := hinv.freqPhase hp
  exact (buildTree_empty hne).trans hempty

theorem Inv.treeBuilt_buildTree (hne : mapSyms s.freq ≠ []) : TreeBuilt (buildTree s) :=
  (inv_buildTree hinv hp).treeBuilt (buildTree_phase s) (hinv.buildTree_not_empty hp hne)

theorem Inv.generated_code (hne : mapSyms s.freq ≠ []) : (genCodes (buildTree s)).code = genTable (buildTree s) := by
  rw [genCodes_of_not_empty (hinv.buildTree_not_empty hp hne)]

theorem Inv.generated_valid_iff (x : Sym) : ((genCodes (buildTree s)).codeOf x).valid = true ↔ x ∈ mapSyms s.freq := by
  obtain ⟨-, hsyms, -, -⟩ := hinv.freqPhase hp
  rw [State.codeOf, ← mem_validSyms]
  by_cases hnil : mapSyms s.freq = []
  · rw [(generated_of_nil hnil).1, hsyms, hnil]
  · rw [hinv.generated_code hp hnil, (hinv.treeBuilt_buildTree hp hnil).validSyms_genTable (buildTree_code s ▸ hsyms),
      buildTree_freq]

/-- No generated code begins another (R123). -/
theorem Inv.generated_eq_of_prefix {x y : Sym} (hx : x ∈ mapSyms s.freq) (hy : y ∈ mapSyms s.freq)
    (hpre : ((genCodes (buildTree s)).codeOf x).bits <+: ((genCodes (buildTree s)).codeOf y).bits) : x = y := by
  have hne := List.ne_nil_of_mem hx
  rw [State.codeOf, State.codeOf, hinv.generated_code hp hne] at hpre
  rw [← buildTree_freq s] at hx hy
  exact (hinv.treeBuilt_buildTree hp hne).eq_of_code_prefix hx hy hpre

/-- With two counted symbols or more, every bit sequence begins with a generated code (R123). -/
theorem Inv.generated_complete (h2 : 2 ≤ (mapSyms s.freq).length) (stream : Nat → Bool) :
    ∃ x ∈ mapSyms s.freq, BeginsWith stream ((genCodes (buildTree s)).codeOf x).bits := by
  have hne : mapSyms s.freq ≠ [] := List.ne_nil_of_length_pos (by omega)
  have h : TreeBuilt (buildTree s) := hinv.treeBuilt_buildTree hp hne
  have hroot := (List.getElem?_eq_some_iff.mp h.rootNode).1
  obtain ⟨i, nd, hi, hk, hbegins⟩ := h.exists_leaf_below stream _ hroot (by rw [nodePath_root]; rfl)
  have hmem : nd.sym ∈ mapSyms s.freq := by
    rw [← buildTree_freq s, ← h.leafSyms]
    exact mem_leafSyms.mpr ⟨i, nd, hi, hk, rfl⟩
  refine ⟨nd.sym, hmem, ?_⟩
  rwa [State.codeOf, hinv.generated_code hp hne, h.entry_genTable_leaf (by rwa [buildTree_freq]) hi hk]

end Generated

/-- Settles O34: two codes of a PrefixFree table that begin the same sequence are equal, and the walk from ROOT along a sequence ends
at a leaf. -/
theorem generatedCodesArePrefixFreeAndComplete : Obligations.GeneratedCodesArePrefixFreeAndComplete := by
  intro s hinv he hp
  have hvalid := hinv.generated_valid_iff hp
  refine ⟨_, runAll_buildTree_genCodes he hp, (genCodes_err _).trans ((buildTree_err s).trans he), genCodes_phase _,
    fun x => (hvalid x).trans mem_mapSyms, fun x y hne hx hy hpre => ?_, fun h2 stream => ?_⟩
  · exact hne (hinv.generated_eq_of_prefix hp ((hvalid x).mp hx) ((hvalid y).mp hy) hpre)
  · obtain ⟨x, hx, hbegins⟩ := hinv.generated_complete hp h2 stream
    refine ⟨x, ⟨(hvalid x).mpr hx, hbegins⟩, fun y hyv hy => ?_⟩
    have hymem := (hvalid y).mp hyv
    rcases le_total ((genCodes (buildTree s)).codeOf y).bits.length ((genCodes (buildTree s)).codeOf x).bits.length with hle | hle
    · exact hinv.generated_eq_of_prefix hp hymem hx (BeginsWith.isPrefix hy hbegins hle)
    · exact (hinv.generated_eq_of_prefix hp hx hymem (hbegins.isPrefix hy hle)).symm

/-! ### The counts alone decide (R126) -/

/-- In FREQ the Code Table is the empty one. -/
theorem Inv.code_of_freq {s : State} (h : Inv s) (hp : s.phase = .freq) : s.code = Vector.replicate 256 CodeEntry.absent := by
  obtain ⟨-, hsyms, -, -⟩ := h.freqPhase hp
  refine table_ext fun x => ?_
  have hv := validSyms_eq_nil.mp hsyms x
  have hbits := (entriesOk_iff.mp h.entries x).2 hv
  rw [entry_replicate]
  show CodeEntry.mk (entry s.code x).valid (entry s.code x).bits = CodeEntry.absent
  rw [hv, hbits]

/-- GEN_CODES' table is made from the Frequency Map and the table before. -/
theorem TreeBuilt.genTable_congr {s u : State} (hs : TreeBuilt s) (hu : TreeBuilt u) (hfreq : s.freq = u.freq)
    (hcode : s.code = u.code) : genTable s = genTable u := by
  have hpool : s.pool = u.pool := by rw [hs.pool, hu.pool, hfreq]
  have hroot : s.root.val = u.root.val := by rw [hs.root_eq, hu.root_eq, hpool]
  have hat : s.pool[s.root.val]? = u.pool[u.root.val]? := by rw [hpool, hroot]
  have hnode : s.nodes[s.root] = u.nodes[u.root] := Option.some.inj (hs.rootNode.symm.trans (hat.trans hu.rootNode))
  simp only [genTable, hpool, hroot, hnode, hcode]

theorem genCodes_pool (s : State) : (genCodes s).pool = s.pool := by
  cases h : s.empty
  · rw [genCodes_of_not_empty h]
    rfl
  · rw [genCodes_of_empty h]
    rfl

theorem genCodes_root (s : State) : (genCodes s).root = s.root := genCodes_frame s (el := .root) (by simp [writes])

/-- Settles O37: in FREQ all else the two commands read is the empty Code Table. -/
theorem sameCountsGiveTheSameCodes : Obligations.SameCountsGiveTheSameCodes := by
  intro s₁ s₂ t₁ t₂ hinv₁ hinv₂ he₁ he₂ hp₁ hp₂ hfreq h₁ h₂
  rw [runAll_buildTree_genCodes he₁ hp₁, Host.Outcome.next.injEq] at h₁
  rw [runAll_buildTree_genCodes he₂ hp₂, Host.Outcome.next.injEq] at h₂
  subst h₁ h₂
  have hcode : s₁.code = s₂.code := (hinv₁.code_of_freq hp₁).trans (hinv₂.code_of_freq hp₂).symm
  refine ⟨?_, ?_, ?_⟩
  · rw [genCodes_pool, genCodes_pool, buildTree_pool, buildTree_pool, hfreq]
  · rw [genCodes_root, genCodes_root]
    exact Fin.ext (by rw [buildTree_root, buildTree_root, hfreq])
  · by_cases hnil : mapSyms s₁.freq = []
    · obtain ⟨hcode₁, hlmax₁⟩ := generated_of_nil hnil
      obtain ⟨hcode₂, hlmax₂⟩ := generated_of_nil (hfreq ▸ hnil)
      exact ⟨by rw [hcode₁, hcode₂, hcode], by rw [hlmax₁, hlmax₂]⟩
    · have hnil₂ : mapSyms s₂.freq ≠ [] := hfreq ▸ hnil
      have htable : genTable (buildTree s₁) = genTable (buildTree s₂) :=
        (hinv₁.treeBuilt_buildTree hp₁ hnil).genTable_congr (hinv₂.treeBuilt_buildTree hp₂ hnil₂)
          (by rw [buildTree_freq, buildTree_freq, hfreq]) (by rw [buildTree_code, buildTree_code, hcode])
      rw [genCodes_of_not_empty (hinv₁.buildTree_not_empty hp₁ hnil), genCodes_of_not_empty (hinv₂.buildTree_not_empty hp₂ hnil₂)]
      exact ⟨htable, by rw [htable]⟩

end Sys2Proof.Machine
end

section
/-! PROOF. The generated codes are optimal (42_tree_codes.md R122). The lengths of a PrefixFree code have a Kraft sum of at most 1. Any
lengths with such a sum can be changed, at no higher cost, so that the first two of the queue are siblings at the greatest depth, and
merging these two takes both costs down by the weight of the new node. -/

namespace Sys2Proof.Machine

open Finset

/-! ### Code lengths -/

/-- The cost of code lengths for the nodes of Q with these weights. -/
def lengthCost (Q : Finset Nat) (w len : Nat → Nat) : Nat := ∑ i ∈ Q, w i * len i

/-- Lengths of at most L whose Kraft sum, scaled by 2^L, is that of some PrefixFree code. -/
structure KraftFits (Q : Finset Nat) (len : Nat → Nat) (L : Nat) : Prop where
  le : ∀ i ∈ Q, len i ≤ L
  sum : ∑ i ∈ Q, 2 ^ (L - len i) ≤ 2 ^ L

section Lengths

variable {Q : Finset Nat} {w len : Nat → Nat} {L a b : Nat}

theorem sum_eq_add_add {f : Nat → Nat} (ha : a ∈ Q) (hb : b ∈ Q) (hne : a ≠ b) :
    ∑ i ∈ Q, f i = f a + (f b + ∑ i ∈ (Q.erase a).erase b, f i) := by
  rw [add_sum_erase _ f (mem_erase.mpr ⟨hne.symm, hb⟩), add_sum_erase _ f ha]

theorem notMem_erase_erase {k : Nat} (hk : k ∉ Q) : k ∉ (Q.erase a).erase b :=
  fun hmem => hk (mem_of_mem_erase (mem_of_mem_erase hmem))

theorem KraftFits.swap (h : KraftFits Q len L) (ha : a ∈ Q) (hb : b ∈ Q) :
    KraftFits Q (fun i => len (Equiv.swap a b i)) L where
  le i hi := by
    rw [Equiv.swap_apply_def]
    split_ifs
    · exact h.le b hb
    · exact h.le a ha
    · exact h.le i hi
  sum := by
    refine (Equiv.Perm.sum_comp (Equiv.swap a b) Q (fun i => 2 ^ (L - len i)) fun i hi => ?_).trans_le h.sum
    by_contra hiQ
    exact hi (Equiv.swap_apply_of_ne_of_ne (fun e => hiQ (by simpa [e] using ha)) fun e => hiQ (by simpa [e] using hb))

/-- Giving the lighter node the longer code costs no more. -/
theorem lengthCost_swap_le (ha : a ∈ Q) (hb : b ∈ Q) (hw : w a ≤ w b) (hlen : len a ≤ len b) :
    lengthCost Q w (fun i => len (Equiv.swap a b i)) ≤ lengthCost Q w len := by
  by_cases hne : a = b
  · simp [hne]
  · have hrest : ∑ i ∈ (Q.erase a).erase b, w i * len (Equiv.swap a b i) = ∑ i ∈ (Q.erase a).erase b, w i * len i := by
      refine sum_congr rfl fun i hi => ?_
      rw [mem_erase, mem_erase] at hi
      rw [Equiv.swap_apply_of_ne_of_ne hi.2.1 hi.1]
    rw [lengthCost, lengthCost, sum_eq_add_add ha hb hne, sum_eq_add_add ha hb hne, hrest, Equiv.swap_apply_left,
      Equiv.swap_apply_right]
    have := mul_add_mul_le_mul_add_mul hw hlen
    omega

/-- Where at most one node has length L + 1, the lengths cut to L still fit: twice the new sum is the old one and at most 1 more, and
twice 2^L is even. -/
theorem KraftFits.cut (h : KraftFits Q len (L + 1)) (hone : #{i ∈ Q | len i = L + 1} ≤ 1) :
    KraftFits Q (fun i => min (len i) L) L where
  le _ _ := min_le_right _ _
  sum := by
    have hterm : ∀ i ∈ Q, 2 * 2 ^ (L - min (len i) L) = 2 ^ (L + 1 - len i) + if len i = L + 1 then 1 else 0 := by
      intro i hi
      by_cases hlong : len i = L + 1
      · simp [hlong]
      · have := h.le i hi
        rw [if_neg hlong, min_eq_left (by omega), Nat.succ_sub (by omega), pow_succ, mul_comm, add_zero]
    have hdouble := sum_congr rfl hterm
    rw [← mul_sum, sum_add_distrib, ← card_filter] at hdouble
    have := h.sum
    rw [pow_succ] at this
    omega

/-- Lengths can be cut, at no higher cost, until two nodes have the greatest length. -/
theorem KraftFits.exists_two_longest (h : KraftFits Q len L) (h2 : 2 ≤ #Q) (w : Nat → Nat) :
    ∃ len' L', KraftFits Q len' (L' + 1) ∧ 2 ≤ #{i ∈ Q | len' i = L' + 1} ∧ lengthCost Q w len' ≤ lengthCost Q w len := by
  induction L generalizing len with
  | zero =>
    have := h.sum
    simp at this
    omega
  | succ L ih =>
    by_cases htwo : 2 ≤ #{i ∈ Q | len i = L + 1}
    · exact ⟨len, L, h, htwo, le_rfl⟩
    · obtain ⟨len', L', hfits, hlong, hle⟩ := ih (h.cut (by omega))
      exact ⟨len', L', hfits, hlong, hle.trans (sum_le_sum fun i _ => Nat.mul_le_mul_left _ (min_le_left _ _))⟩

/-- Lengths can be changed, at no higher cost, so that the two lightest nodes have the greatest length. -/
theorem KraftFits.exists_siblings (h : KraftFits Q len L) (ha : a ∈ Q) (hb : b ∈ Q) (hne : a ≠ b)
    (hmina : ∀ i ∈ Q, w a ≤ w i) (hminb : ∀ i ∈ Q, i ≠ a → w b ≤ w i) :
    ∃ len' L', KraftFits Q len' (L' + 1) ∧ len' a = L' + 1 ∧ len' b = L' + 1 ∧ lengthCost Q w len' ≤ lengthCost Q w len := by
  have h2 : 2 ≤ #Q := one_lt_card.mpr ⟨a, ha, b, hb, hne⟩
  obtain ⟨len₁, L', h₁, hlong, hle₁⟩ := h.exists_two_longest h2 w
  obtain ⟨j, hj, hja⟩ := exists_mem_ne hlong a
  obtain ⟨i, hi, hij⟩ := exists_mem_ne hlong j
  rw [mem_filter] at hi hj
  have h₂ := h₁.swap ha hi.1
  have hle₂ := lengthCost_swap_le (len := len₁) ha hi.1 (hmina i hi.1) (hi.2 ▸ h₁.le a ha)
  have ha₂ : len₁ (Equiv.swap a i a) = L' + 1 := by rw [Equiv.swap_apply_left, hi.2]
  have hj₂ : len₁ (Equiv.swap a i j) = L' + 1 := by rw [Equiv.swap_apply_of_ne_of_ne hja hij.symm, hj.2]
  have h₃ := h₂.swap hb hj.1
  have hle₃ := lengthCost_swap_le (len := fun x => len₁ (Equiv.swap a i x)) hb hj.1 (hminb j hj.1 hja)
    (hj₂ ▸ h₂.le b hb)
  refine ⟨_, L', h₃, ?_, ?_, hle₃.trans (hle₂.trans hle₁)⟩
  · rw [Equiv.swap_apply_of_ne_of_ne hne hja.symm, ha₂]
  · rw [Equiv.swap_apply_left, hj₂]

/-- Two siblings at the greatest depth merged into their parent: the Kraft sum is the same. -/
theorem KraftFits.merge (h : KraftFits Q len (L + 1)) (ha : a ∈ Q) (hb : b ∈ Q) (hne : a ≠ b) (hla : len a = L + 1)
    (hlb : len b = L + 1) {k : Nat} (hk : k ∉ Q) :
    KraftFits (insert k ((Q.erase a).erase b)) (Function.update len k L) (L + 1) := by
  have hk' := notMem_erase_erase (a := a) (b := b) hk
  have hold : ∀ i ∈ (Q.erase a).erase b, Function.update len k L i = len i := fun i hi =>
    Function.update_of_ne (ne_of_mem_of_not_mem hi hk') _ _
  constructor
  case le =>
    intro i hi
    rcases mem_insert.mp hi with rfl | hi
    · simp
    · rw [hold i hi]
      exact h.le i (mem_of_mem_erase (mem_of_mem_erase hi))
  case sum =>
    have hsum := h.sum
    rw [sum_eq_add_add ha hb hne, hla, hlb] at hsum
    have hrest : ∑ i ∈ (Q.erase a).erase b, 2 ^ (L + 1 - Function.update len k L i) =
        ∑ i ∈ (Q.erase a).erase b, 2 ^ (L + 1 - len i) := sum_congr rfl fun i hi => by rw [hold i hi]
    rw [sum_insert hk', hrest, Function.update_self]
    simp only [Nat.sub_self, Nat.add_sub_cancel_left] at hsum ⊢
    omega

end Lengths

/-- Where a and b are one level below k and weigh together what k does, merging them takes the cost down by k's weight. -/
theorem lengthCost_merge {Q : Finset Nat} {w len len' : Nat → Nat} {a b k : Nat} (ha : a ∈ Q) (hb : b ∈ Q) (hne : a ≠ b) (hk : k ∉ Q)
    (hw : w k = w a + w b) (hla : len a = len' k + 1) (hlb : len b = len' k + 1) (hold : ∀ i ∈ Q, len' i = len i) :
    lengthCost Q w len = lengthCost (insert k ((Q.erase a).erase b)) w len' + w k := by
  have hrest : ∑ i ∈ (Q.erase a).erase b, w i * len' i = ∑ i ∈ (Q.erase a).erase b, w i * len i :=
    sum_congr rfl fun i hi => by rw [hold i (mem_of_mem_erase (mem_of_mem_erase hi))]
  rw [lengthCost, lengthCost, sum_eq_add_add ha hb hne, sum_insert (notMem_erase_erase hk), hrest, hla, hlb, hw]
  ring

/-! ### The lengths of a PrefixFree code -/

/-- A text over a PrefixFree code is read in one way only. -/
theorem uniquelyDecodable_of_prefixFree {S : Set Bits} (hnil : [] ∉ S) (hpre : ∀ x ∈ S, ∀ y ∈ S, x <+: y → x = y) :
    InformationTheory.UniquelyDecodable S := by
  intro t
  induction t with
  | nil =>
    rintro (_ | ⟨y, u⟩) - hu heq
    · rfl
    · obtain ⟨rfl, -⟩ := List.append_eq_nil_iff.mp heq.symm
      exact absurd (hu [] (by simp)) hnil
  | cons x t ih =>
    rintro (_ | ⟨y, u⟩) ht hu heq
    · obtain ⟨rfl, -⟩ := List.append_eq_nil_iff.mp heq
      exact absurd (ht [] (by simp)) hnil
    · rw [List.forall_mem_cons] at ht hu
      rw [List.flatten_cons, List.flatten_cons] at heq
      have hxy : x = y := by
        rcases List.prefix_or_prefix_of_prefix (heq ▸ List.prefix_append x _) (List.prefix_append y _) with h | h
        · exact hpre x ht.1 y hu.1 h
        · exact (hpre y hu.1 x ht.1 h).symm
      subst hxy
      rw [ih u ht.2 hu.2 (List.append_cancel_left heq)]

/-- Kraft's inequality for a PrefixFree code of two words or more. -/
theorem kraftFits_of_prefixFree {Q : Finset Nat} {c : Nat → Bits} (h2 : 2 ≤ #Q)
    (hpre : ∀ i ∈ Q, ∀ j ∈ Q, i ≠ j → ¬ c i <+: c j) : ∃ L, KraftFits Q (fun i => (c i).length) L := by
  have heq : ∀ i ∈ Q, ∀ j ∈ Q, c i <+: c j → i = j := fun i hi j hj h => by_contra fun hne => hpre i hi j hj hne h
  have hnil : [] ∉ (Q.image c : Set Bits) := by
    simp only [coe_image, Set.mem_image, mem_coe, not_exists, not_and]
    intro i hi hci
    obtain ⟨j, hj, hji⟩ := exists_mem_ne h2 i
    exact hpre i hi j hj hji.symm (hci ▸ List.nil_prefix)
  have huniq : InformationTheory.UniquelyDecodable (Q.image c : Set Bits) := by
    refine uniquelyDecodable_of_prefixFree hnil ?_
    simp only [coe_image, Set.forall_mem_image, mem_coe]
    exact fun i hi j hj h => congrArg c (heq i hi j hj h)
  have hkraft := InformationTheory.kraft_mcmillan_inequality huniq
  have hinj : Set.InjOn c Q := fun i hi j hj h => heq i hi j hj (h ▸ List.prefix_rfl)
  rw [sum_image hinj, Fintype.card_bool] at hkraft
  set L := Q.sup fun i => (c i).length
  have hle : ∀ i ∈ Q, (c i).length ≤ L := fun i hi => le_sup (f := fun i => (c i).length) hi
  refine ⟨L, hle, ?_⟩
  have hscale : ((∑ i ∈ Q, 2 ^ (L - (c i).length) : Nat) : ℝ) = 2 ^ L * ∑ i ∈ Q, (1 / (2 : Nat) : ℝ) ^ (c i).length := by
    rw [Nat.cast_sum, mul_sum]
    refine sum_congr rfl fun i hi => ?_
    rw [Nat.cast_pow, Nat.cast_ofNat, pow_sub₀ _ two_ne_zero (hle i hi), one_div, inv_pow]
  have : ((∑ i ∈ Q, 2 ^ (L - (c i).length) : Nat) : ℝ) ≤ 2 ^ L := by
    rw [hscale]
    exact mul_le_of_le_one_right (by positivity) hkraft
  exact_mod_cast this

/-! ### The queue as a set -/

open Classical in
/-- The nodes in the queue when node k is created. -/
noncomputable def queueAt (pool : List Node) (k : Nat) : Finset Nat := {i ∈ range k | queuedAt pool i k}

theorem mem_queueAt {pool : List Node} {i k : Nat} : i ∈ queueAt pool k ↔ queuedAt pool i k := by
  simp only [queueAt, mem_filter, mem_range, and_iff_right_iff_imp]
  exact fun h => h.1

/-- The first of a queue is no heavier than any node of it. -/
theorem weightAt_le_of_first {pool : List Node} {a i : Nat} (h : i ≠ a → comesBefore pool a i) :
    weightAt pool a ≤ weightAt pool i := by
  by_cases hi : i = a
  · rw [hi]
  · rcases h hi with hlt | ⟨heq, -⟩
    · exact hlt.le
    · exact heq.le

/-- The depth of node i below ROOT. -/
def nodeDepth (pool : List Node) (root i : Nat) : Nat := (nodePath pool root i).length

/-- The symbol of leaf i: the i-th counted symbol (R111). -/
def countedSym (freq : Table Word) (i : Nat) : Sym := (mapSyms freq)[i]?.getD 0

theorem countedSym_eq {freq : Table Word} {i : Nat} (hi : i < (mapSyms freq).length) : countedSym freq i = (mapSyms freq)[i] := by
  rw [countedSym, List.getElem?_eq_getElem hi, Option.getD_some]

theorem countedSym_mem {freq : Table Word} {i : Nat} (hi : i < (mapSyms freq).length) : countedSym freq i ∈ mapSyms freq :=
  countedSym_eq hi ▸ List.getElem_mem hi

section TreeBuilt

variable {s : State} (h : TreeBuilt s)
include h

/-- The queue of the first merge is the leaves. -/
theorem TreeBuilt.queueAt_leaves : queueAt s.pool (mapSyms s.freq).length = range (mapSyms s.freq).length := by
  ext i
  rw [mem_queueAt, mem_range]
  refine ⟨fun hi => hi.1, fun hi => ⟨hi, fun j nd hj hnd hint => ?_⟩⟩
  simp [(h.shape.leavesFirst j nd hnd).mpr hj] at hint

/-- The queue behind the last merge is ROOT. -/
theorem TreeBuilt.eq_root_of_queuedAt_end {i : Nat} (hi : i ∈ queueAt s.pool s.pool.length) : i = s.root.val := by
  obtain ⟨nd, hnd, hlive⟩ := (h.order.queued i).mpr (mem_queueAt.mp hi)
  rw [h.root_eq]
  exact (h.shape.live_iff h.liveCount hnd).mp hlive

theorem TreeBuilt.queueAt_succ {k : Nat} {nd : Node} (hk : s.pool[k]? = some nd) (hint : nd.kind = .internal) :
    queueAt s.pool (k + 1) = insert k (((queueAt s.pool k).erase nd.l.val).erase nd.r.val) := by
  ext i
  rw [mem_queueAt, queuedAt_succ hk hint h.shape.childBelow, mem_insert, mem_erase, mem_erase, mem_queueAt]
  tauto

theorem TreeBuilt.nodeDepth_children {v : Nat} {nd : Node} (hv : s.pool[v]? = some nd) (hk : nd.kind = .internal) :
    nodeDepth s.pool s.root.val nd.l.val = nodeDepth s.pool s.root.val v + 1 ∧
      nodeDepth s.pool s.root.val nd.r.val = nodeDepth s.pool s.root.val v + 1 := by
  obtain ⟨hl, hr⟩ := h.nodePath_children hv hk
  simp only [nodeDepth, hl, hr, List.length_append, List.length_singleton, and_self]

/-- From every merge on, the tree's depths cost no more than any lengths that fit. -/
theorem TreeBuilt.depth_optimal {k L : Nat} {len : Nat → Nat} (hn : (mapSyms s.freq).length ≤ k) (hk : k ≤ s.pool.length)
    (hfits : KraftFits (queueAt s.pool k) len L) :
    lengthCost (queueAt s.pool k) (weightAt s.pool) (nodeDepth s.pool s.root.val) ≤
      lengthCost (queueAt s.pool k) (weightAt s.pool) len := by
  induction hk using Nat.decreasingInduction generalizing len L with
  | self =>
    have hzero : lengthCost (queueAt s.pool s.pool.length) (weightAt s.pool) (nodeDepth s.pool s.root.val) = 0 :=
      sum_eq_zero fun i hi => by rw [h.eq_root_of_queuedAt_end hi, nodeDepth, nodePath_root, List.length_nil, mul_zero]
    omega
  | of_succ k hlt ih =>
    have hnd := List.getElem?_eq_getElem hlt
    have hint := h.shape.kind_of_ge hn hnd
    obtain ⟨hl, hr, hne, hminl, hminr, hw⟩ := (h.order.merges k _ hnd hint).2
    obtain ⟨hdl, hdr⟩ := h.nodeDepth_children hnd hint
    rw [← weightAt_of_some hnd] at hw
    rw [Ne, ← Fin.val_inj] at hne
    have hknew : k ∉ queueAt s.pool k := fun hmem => (mem_queueAt.mp hmem).1.false
    rw [← mem_queueAt] at hl hr
    obtain ⟨len', L', hfits', hll, hlr, hle⟩ := hfits.exists_siblings (w := weightAt s.pool) hl hr hne
      (fun i hi => weightAt_le_of_first (hminl i (mem_queueAt.mp hi)))
      (fun i hi hil => weightAt_le_of_first (hminr i (mem_queueAt.mp hi) hil))
    have hbest := ih (by omega) (h.queueAt_succ hnd hint ▸ hfits'.merge hl hr hne hll hlr hknew)
    rw [h.queueAt_succ hnd hint] at hbest
    have hdepth := lengthCost_merge hl hr hne hknew hw hdl hdr fun i _ => rfl
    have hlengths := lengthCost_merge (len := len') (len' := Function.update len' k L') hl hr hne hknew hw
      (by rw [Function.update_self, hll]) (by rw [Function.update_self, hlr])
      fun i hi => Function.update_of_ne (ne_of_mem_of_not_mem hi hknew) _ _
    omega

/-! ### The cost of a code -/

/-- The cost of a code, summed over the leaves. -/
theorem TreeBuilt.codeCost_eq (f : Sym → Nat) :
    codeCost s.freq f = lengthCost (range (mapSyms s.freq).length) (weightAt s.pool) fun i => f (countedSym s.freq i) := by
  rw [codeCost, ← Fin.sum_univ_fun_getElem, lengthCost, sum_range]
  refine sum_congr rfl fun i _ => ?_
  obtain ⟨nd, hnd, -, -, hw, -⟩ := leavesInOrder_buildPool s.freq i _ (List.getElem?_eq_getElem i.isLt)
  rw [h.pool, weightAt_of_some hnd, hw, countedSym_eq i.isLt]

/-- The lengths of the codes GEN_CODES writes are the leaves' depths (R118). -/
theorem TreeBuilt.genTable_cost (h2 : 2 ≤ (mapSyms s.freq).length) :
    codeCost s.freq (fun x => (entry (genTable s) x).bits.length) =
      lengthCost (range (mapSyms s.freq).length) (weightAt s.pool) (nodeDepth s.pool s.root.val) := by
  rw [h.codeCost_eq]
  refine sum_congr rfl fun i hi => congrArg (weightAt s.pool i * ·) ?_
  have hi' := mem_range.mp hi
  obtain ⟨nd, hnd, hleaf, hsym, -⟩ := leavesInOrder_buildPool s.freq i _ (List.getElem?_eq_getElem hi')
  beta_reduce
  rw [nodeDepth, countedSym_eq hi', ← hsym, h.entry_genTable_leaf h2 (h.pool ▸ hnd) hleaf]

/-- No PrefixFree code of the counted symbols costs less than the table GEN_CODES writes (R122). -/
theorem TreeBuilt.genTable_optimal (h2 : 2 ≤ (mapSyms s.freq).length) {c : Sym → Bits}
    (hpre : ∀ x ∈ mapSyms s.freq, ∀ y ∈ mapSyms s.freq, x ≠ y → ¬ c x <+: c y) :
    codeCost s.freq (fun x => (entry (genTable s) x).bits.length) ≤ codeCost s.freq fun x => (c x).length := by
  have hlen := h.length
  rw [← pool_length] at hlen
  obtain ⟨L, hfits⟩ := kraftFits_of_prefixFree (Q := range (mapSyms s.freq).length) (c := fun i => c (countedSym s.freq i))
    (by rwa [card_range]) fun i hi j hj hne => by
      rw [mem_range] at hi hj
      refine hpre _ (countedSym_mem hi) _ (countedSym_mem hj) ?_
      rwa [countedSym_eq hi, countedSym_eq hj, Ne, (nodup_mapSyms s.freq).getElem_inj_iff]
  rw [← h.queueAt_leaves] at hfits
  have hbest := h.depth_optimal le_rfl (by omega) hfits
  rwa [h.queueAt_leaves, ← h.genTable_cost h2, ← h.codeCost_eq fun x => (c x).length] at hbest

end TreeBuilt

/-- Settles O36: the generated lengths are the depths in the tree, and a PrefixFree code's lengths fit Kraft's inequality. -/
theorem generatedCodesAreOptimal : Obligations.GeneratedCodesAreOptimal := by
  intro s t hinv he hp hrun h2 c hpre
  rw [runAll_buildTree_genCodes he hp, Host.Outcome.next.injEq] at hrun
  subst hrun
  have hne : mapSyms s.freq ≠ [] := List.ne_nil_of_length_pos (by omega)
  simp only [State.codeOf, hinv.generated_code hp hne]
  rw [← buildTree_freq s] at h2 hpre ⊢
  exact (hinv.treeBuilt_buildTree hp hne).genTable_optimal h2 hpre

end Sys2Proof.Machine
end

section
/-! PROOF. The Bit Packer: ENC_SYM's errors, what ENC_FLUSH writes, and the packed stream of a text (43_packer.md R130 to R132). -/

namespace Sys2Proof.Machine

/-! ### ENC_SYM's errors (R130, R165) -/

theorem encSym_of_invalid {x : Sym} {s : State} (hvalid : (s.codeOf x).valid = false) :
    encSym x s = .error (.plain .encoding) := if_pos hvalid

theorem encSym_of_overflow {x : Sym} {s : State} (hvalid : (s.codeOf x).valid = true)
    (hover : Config.maxCount < s.bitcnt.toNat + (s.codeOf x).bits.length) : encSym x s = .error (.plain .overflow) :=
  (if_neg (ne_false_of_eq_true hvalid)).trans (if_pos hover)

/-- Settles O40: the entry is looked at before BITCNT, and either raise is plain. -/
theorem encSymErrors : Obligations.EncSymErrors := by
  intro s x he hp
  have hraise {e : Error} (hbody : encSym x s = .error (.plain e)) :
      exec (.encSym x) s = .next { s with err := some e, resp := s.resp ++ [.err 0x30 e] } := by
    rw [← raiseError_plain]
    exact inPhases_of_raise he (List.mem_singleton.mpr hp) hbody
  exact ⟨fun hvalid => hraise (encSym_of_invalid hvalid), fun hvalid hover => hraise (encSym_of_overflow hvalid hover)⟩

/-! ### ENC_FLUSH (R131) -/

theorem exec_encFlush {s : State} (he : s.err = none) (hp : s.phase = .codes) :
    exec .encFlush s = .next { s with pend := [], phase := .encDone, resp := s.resp ++ flushTokens s } :=
  inPhases_of_ok (body := fun s => .ok { s with pend := [], phase := .encDone, resp := s.resp ++ flushTokens s }) he
    (List.mem_singleton.mpr hp) rfl

@[simp] theorem streamBits_nil : streamBits [] = [] := rfl

theorem streamBits_append (bs cs : List Byte) : streamBits (bs ++ cs) = streamBits bs ++ streamBits cs := List.flatMap_append

@[simp] theorem streamBits_length (bs : List Byte) : (streamBits bs).length = 8 * bs.length := by
  simp [streamBits, List.length_flatMap, Nat.mul_comm]

/-- One to eight bits put in a byte are followed by the pad bits of R132. -/
theorem streamBits_bitsByte {x : Bits} (hne : x ≠ []) (hlen : x.length ≤ 8) :
    streamBits [bitsByte x] = x ++ List.replicate (padCount x.length) false := by
  have hpos := List.length_pos_iff.mpr hne
  have hpad : 8 - x.length = padCount x.length := by
    rw [padCount]
    omega
  rw [streamBits_eq_flatMap_byteBits, List.flatMap_singleton, byteBits_bitsByte hlen, padTo, hpad]

/-- Settles O41: with nothing pending there is nothing to pad, and otherwise the pending bits fit one byte. -/
theorem encFlushPadsAndReports : Obligations.EncFlushPadsAndReports := by
  intro s he hp hlen
  rw [exec_encFlush he hp, flushTokens]
  by_cases hnil : s.pend = []
  · exact ⟨[], by simp [hnil], by simp [hnil, padCount]⟩
  · exact ⟨[bitsByte s.pend], by simp [hnil], streamBits_bitsByte hnil (by omega)⟩

/-! ### A text (R132) -/

theorem codeStream_cons (code : Table CodeEntry) (x : Sym) (t : List Sym) :
    codeStream code (x :: t) = (entry code x).bits ++ codeStream code t := List.flatMap_cons

/-- The codes of a text of valid symbols, packed behind what is pending: the bytes emitted and the bits then pending are together the
old PEND and the codes, and BITCNT grows by the number of code bits. -/
theorem runAll_encSym {s : State} {t : List Sym} (he : s.err = none) (hp : s.phase = .codes) (hpend : s.pend.length < 8)
    (hvalid : ∀ x ∈ t, (s.codeOf x).valid = true) (hfits : s.bitcnt.toNat + (codeStream s.code t).length ≤ 2 ^ 32 - 1) :
    ∃ (n : Word) (rest : Bits) (bytes : List Byte),
      runAll (t.map .encSym) s = .next { s with bitcnt := n, pend := rest, resp := s.resp ++ bytes.map .byte } ∧
      n.toNat = s.bitcnt.toNat + (codeStream s.code t).length ∧ streamBits bytes ++ rest = s.pend ++ codeStream s.code t ∧
      rest.length < 8 := by
  induction t generalizing s with
  | nil => exact ⟨s.bitcnt, s.pend, [], by simp [runAll], rfl, by simp [codeStream], hpend⟩
  | cons x t ih =>
    obtain ⟨hx, ht⟩ := List.forall_mem_cons.mp hvalid
    rw [codeStream_cons, List.length_append, ← Nat.add_assoc] at hfits ⊢
    obtain ⟨n, rest, bytes, hexec, hn, hbits, hrest, -⟩ := encSymPacksTheCode s x he hp hx (Nat.le_of_add_right_le hfits)
    rw [← State.codeOf, ← hn] at hfits
    obtain ⟨n', rest', bytes', hrun, hn', hbits', hrest'⟩ :=
      ih (s := { s with bitcnt := n, pend := rest, resp := s.resp ++ bytes.map .byte }) he hp hrest ht hfits
    refine ⟨n', rest', bytes ++ bytes', ?_, ?_, ?_, hrest'⟩
    · rw [List.map_cons, runAll_cons hexec, hrun, List.map_append, List.append_assoc]
    · rw [hn', hn, State.codeOf]
    · rw [streamBits_append, List.append_assoc, hbits', ← List.append_assoc, hbits, List.append_assoc, State.codeOf]

/-- Whole bytes behind which r bits are left need the pad bits of those r. -/
theorem padCount_add (k r : Nat) : padCount (8 * k + r) = padCount r := by
  simp only [padCount]
  omega

/-- The number of bytes a padded stream takes (R132). -/
theorem eq_ceil8_of_padded {k n : Nat} (h : 8 * k = n + padCount n) : k = (n + 7) / 8 := by
  simp only [padCount] at h
  omega

/-- Every character of a text adds the length of its code, so that a symbol adds it as often as it is counted (R132). -/
theorem codeStream_length_eq_codeCost {freq : Table Word} {t : List Sym} (code : Table CodeEntry)
    (hcount : ∀ x, (entry freq x).toNat = t.count x) :
    (codeStream code t).length = codeCost freq fun x => (entry code x).bits.length := by
  have hsyms : (mapSyms freq).toFinset = t.toFinset := by
    ext x
    rw [List.mem_toFinset, List.mem_toFinset, mem_mapSyms, ← List.count_pos_iff, ← hcount, Nat.pos_iff_ne_zero, Ne,
      ← BitVec.toNat_inj]
    rfl
  rw [codeCost, ← List.sum_toFinset _ (nodup_mapSyms freq), hsyms, codeStream, List.length_flatMap,
    Finset.sum_list_map_count]
  exact Finset.sum_congr rfl fun x _ => by rw [hcount, smul_eq_mul]

/-- Settles O42: the text's codes are packed from an empty packer, and ENC_FLUSH pads what they leave pending. -/
theorem packedStreamIsThePaddedConcatenation : Obligations.PackedStreamIsThePaddedConcatenation := by
  intro s t he hp hpend hbitcnt hvalid hfits
  obtain ⟨n, rest, bytes, hpack, hn, hbits, hrest⟩ :=
    runAll_encSym he hp (by simp [hpend]) hvalid (by simpa [hbitcnt] using hfits)
  obtain ⟨last, hflush, hlast⟩ := encFlushPadsAndReports
    { s with bitcnt := n, pend := rest, resp := s.resp ++ bytes.map .byte } he hp (Nat.le_of_lt_succ hrest)
  rw [hpend, List.nil_append] at hbits
  have hlen : 8 * bytes.length + rest.length = (codeStream s.code t).length := by
    rw [← hbits, List.length_append, streamBits_length]
  have hstream : streamBits (bytes ++ last) =
      codeStream s.code t ++ List.replicate (padCount (codeStream s.code t).length) false := by
    rw [streamBits_append, hlast, ← hlen, padCount_add, ← hbits, List.append_assoc]
  refine ⟨_, bytes ++ last, (runAll_append hpack).trans (runAll_cons hflush), ⟨he, rfl⟩, ?_, hstream, ?_,
    codeStream_length_eq_codeCost s.code⟩
  · have hcount : n = BitVec.ofNat 32 (codeStream s.code t).length := by simpa [hbitcnt] using congrArg (BitVec.ofNat 32) hn
    simp [hcount]
  · exact eq_ceil8_of_padded (by simpa using congrArg List.length hstream)

end Sys2Proof.Machine
end

section
/-! PROOF. The Code Table loaded, inverted and looked up: TBL_BEGIN, TBL_APPEND, TBL_INVERT, the reverse lookup, DEC_START
(44_unpacker.md R140 to R144). -/

namespace Sys2Proof.Machine

/-! ### Loading a table (R140, R141) -/

/-- Settles O43: the state opened is the one that loads no bits yet, and the others' entries are read back as they were. -/
theorem tblBeginOpensAnEntry : Obligations.TblBeginOpensAnEntry := fun _ x he hp =>
  ⟨_, exec_tblBegin x he hp, entry_setEntry_self .., fun _ hy => entry_setEntry_of_ne _ _ hy⟩

theorem tblAppend_of_fits {bits : Bits} {s : State} (hfits : (s.codeOf s.sel).bits.length + bits.length ≤ Config.maxLen) :
    tblAppend bits s = .ok { s with code := setEntry s.code s.sel ⟨true, (s.codeOf s.sel).bits ++ bits⟩ } :=
  if_neg (Nat.not_lt.2 hfits)

theorem tblAppend_of_over {bits : Bits} {s : State} (hover : Config.maxLen < (s.codeOf s.sel).bits.length + bits.length) :
    tblAppend bits s = .error (.plain .corruptTable) := if_pos hover

/-- Settles O44: the entry written is the selected one, and past 255 bits the raise is plain. -/
theorem tblAppendExtendsTheSelectedCode : Obligations.TblAppendExtendsTheSelectedCode := by
  intro s bits he hp
  have hlegal : s.phase ∈ [Phase.tblLoad] := List.mem_singleton.mpr hp
  refine ⟨fun hfits => ⟨_, inPhases_of_ok he hlegal (tblAppend_of_fits hfits), entry_setEntry_self .., fun _ hy =>
    entry_setEntry_of_ne _ _ hy⟩, fun hover => ?_⟩
  rw [← raiseError_plain]
  exact inPhases_of_raise he hlegal (tblAppend_of_over hover)

/-! ### Inverting it (R142) -/

theorem nodup_validSyms (code : Table CodeEntry) : (validSyms code).Nodup := by
  rw [validSyms_eq_filter]
  refine List.Nodup.filter _ (List.Nodup.map_on (fun i hi j hj h => ?_) List.nodup_range)
  have := congrArg BitVec.toNat h
  simp only [List.mem_range, BitVec.toNat_ofNat] at hi hj this
  omega

/-- No two valid symbols of the table have equal codes. -/
def DistinctCodes (code : Table CodeEntry) : Prop :=
  ∀ x y, (entry code x).valid = true → (entry code y).valid = true → (entry code x).bits = (entry code y).bits → x = y

theorem nodup_validCodes_iff {code : Table CodeEntry} : (validCodes code).Nodup ↔ DistinctCodes code := by
  rw [validCodes_eq_map, List.nodup_map_iff_inj_on (nodup_validSyms code)]
  simp only [mem_validSyms]
  exact ⟨fun h x y hx hy => h x hx y hy, fun h x hx y hy => h x y hx hy⟩

theorem exec_tblInvert {s : State} (he : s.err = none) (hp : s.phase = .freq ∨ s.phase = .encDone ∨ s.phase = .tblLoad)
    (hne : [] ∉ validCodes s.code) (hnodup : (validCodes s.code).Nodup) :
    exec .tblInvert s = .next { s with lmax := BitVec.ofNat 8 (longest s.code), phase := .rmap } :=
  inPhases_of_ok he (by simpa using hp) ((if_neg hne).trans (if_neg (not_not.mpr hnodup)))

theorem tblInvert_of_corrupt {s : State} (h : [] ∈ validCodes s.code ∨ ¬ (validCodes s.code).Nodup) :
    tblInvert s = .error (.plain .corruptTable) := by
  unfold tblInvert
  split
  · rfl
  · exact if_pos (h.resolve_left ‹_›)

/-- Settles O46: the valid codes differ from each other exactly when the valid symbols' do. -/
theorem tblInvertAcceptsDistinctCodes : Obligations.TblInvertAcceptsDistinctCodes := by
  intro s he hp
  constructor
  · rintro ⟨hne, hdistinct⟩
    refine ⟨_, exec_tblInvert he hp (fun hnil => ?_) (nodup_validCodes_iff.mpr fun x y hx hy hxy => ?_)⟩
    · obtain ⟨x, hx, hbits⟩ := mem_validCodes.mp hnil
      exact hne x hx hbits
    · exact by_contra fun h => hdistinct x y h hx hy hxy
  · intro hcorrupt
    rw [← raiseError_plain]
    refine inPhases_of_raise he (by simpa using hp) (tblInvert_of_corrupt ?_)
    refine hcorrupt.imp mem_validCodes.mpr fun ⟨x, y, hne, hx, hy, hxy⟩ hnodup => ?_
    exact hne (nodup_validCodes_iff.mp hnodup x y hx hy hxy)

/-! ### Looking codes up (R143) -/

section Inverted

variable {s : State} (h : Inv s) (hp : s.phase = .rmap ∨ s.phase = .dec ∨ s.phase = .decDone)
include h hp

theorem Inv.distinctCodes : DistinctCodes s.code := nodup_validCodes_iff.mp (h.rmapPhase hp).2

theorem Inv.lookup_eq_some_iff {c : Bits} {x : Sym} :
    lookup s.code c = some x ↔ (s.codeOf x).valid = true ∧ (s.codeOf x).bits = c := by
  refine ⟨lookup_some, fun hx => lookup_eq_some.mpr ⟨hx, fun y hy hyc => ?_⟩⟩
  exact h.distinctCodes hp y x hy hx.1 (hyc.trans hx.2.symm)

theorem Inv.lookup_eq_none_iff {c : Bits} : lookup s.code c = none ↔ ¬ isCode s.code c := lookup_none (h.distinctCodes hp)

end Inverted

/-- From RMAP on the table is not written. -/
theorem Effect.code_of_inverted {i : Instr} {s t : State} (h : Effect s i t) (hclear : i ≠ .clear)
    (hp : s.phase = .rmap ∨ s.phase = .dec ∨ s.phase = .decDone) : t.code = s.code := by
  cases h with
  | clear => exact absurd rfl hclear
  | genCodes _ hq | tblAppend _ _ hq => simp [hq] at hp
  | tblBegin _ _ hq => rcases hq with hq | hq <;> simp [hq] at hp
  | buildTree => exact buildTree_code s
  | nop | statusRead | argLo | argHi | freqAdd | freqSet | freqRead | codeRead | encSym | encFlush | tblInvert | decStart
  | decByte | decEnd => rfl

/-- Settles O47: TBL_INVERT left no two equal codes, and every command that writes CODE but CLEAR has its effect in other phases. -/
theorem lookupInvertsTheTable : Obligations.LookupInvertsTheTable := by
  intro s c hinv hp
  refine ⟨fun x => hinv.lookup_eq_some_iff hp, ?_, fun i t hexec hclear => ?_⟩
  · rw [hinv.lookup_eq_none_iff hp, isCode]
    push Not
    rfl
  · cases exec_outcome hexec with
    | discarded | raised => rfl
    | effect _ heff => exact heff.code_of_inverted hclear hp

/-! ### DEC_START (R144) -/

/-- Settles O48: DEC_START raises nothing past the phase check. -/
theorem decStartLatchesModeAndLength : Obligations.DecStartLatchesModeAndLength := fun _ legacy he hp =>
  inPhases_of_ok (body := fun s => .ok { s with
    legacy := legacy, bitlen := s.arg, dacc := [], dbytes := 0, dsyms := 0, phase := .dec }) he (List.mem_singleton.mpr hp) rfl

end Sys2Proof.Machine
end

section
/-! PROOF. DEC_BYTE's errors before any bit and behind the data bits, and DEC_END's check of the stream (44_unpacker.md R145,
R146). -/

namespace Sys2Proof.Machine

/-! ### DEC_BYTE past the phase check (R145) -/

theorem decByte_of_past_end {b : Byte} {s : State} (h : s.legacy = false ∧ ceil8 s.bitlen.toNat ≤ s.dbytes.toNat) :
    decByte b s = .error (.plain .decoding) := if_pos h

theorem decByte_of_full {b : Byte} {s : State} (hlen : s.legacy = false → s.dbytes.toNat < ceil8 s.bitlen.toNat)
    (hfull : s.dbytes.toNat = Config.maxCount) : decByte b s = .error (.plain .overflow) :=
  (if_neg fun h => Nat.not_lt.mpr h.2 (hlen h.1)).trans (if_pos hfull)

/-- A byte of the stream that DBYTES can count raises what its bits raise. -/
theorem decByte_of_raise {b : Byte} {s : State} {r : Raise} (hlen : s.legacy = false → s.dbytes.toNat < ceil8 s.bitlen.toNat)
    (hroom : s.dbytes.toNat < Config.maxCount)
    (hscan : scanBits s (8 * s.dbytes.toNat) (byteBits b) ⟨s.dacc, s.dsyms, []⟩ = .error r) : decByte b s = .error r := by
  rw [decByte, if_neg fun h => Nat.not_lt.mpr h.2 (hlen h.1), if_neg hroom.ne, hscan]

/-- Such a byte whose bits raise nothing; `decByte_ok` is the other direction. -/
theorem decByte_of_scan {b : Byte} {s : State} {a : Scan} (hlen : s.legacy = false → s.dbytes.toNat < ceil8 s.bitlen.toNat)
    (hroom : s.dbytes.toNat < Config.maxCount)
    (hscan : scanBits s (8 * s.dbytes.toNat) (byteBits b) ⟨s.dacc, s.dsyms, []⟩ = .ok a) :
    decByte b s = .ok { s with dacc := a.dacc, dsyms := a.dsyms, dbytes := s.dbytes + 1, resp := s.resp ++ a.out } := by
  rw [decByte, if_neg fun h => Nat.not_lt.mpr h.2 (hlen h.1), if_neg hroom.ne, hscan]

theorem exec_decByte_of_ok {b : Byte} {s t : State} (he : s.err = none) (hp : s.phase = .dec) (h : decByte b s = .ok t) :
    exec (.decByte b) s = .next t := inPhases_of_ok he (List.mem_singleton.mpr hp) h

theorem exec_decByte_of_raise {b : Byte} {s : State} {r : Raise} (he : s.err = none) (hp : s.phase = .dec)
    (h : decByte b s = .error r) :
    exec (.decByte b) s = .next { s with err := some r.code, resp := s.resp ++ r.emitted ++ [.err 0x51 r.code] } :=
  inPhases_of_raise he (List.mem_singleton.mpr hp) h

/-- Settles O50: the stream's end is looked at before DBYTES, and both before the bits. -/
theorem decByteErrorsBeforeAnyBit : Obligations.DecByteErrorsBeforeAnyBit := by
  intro s b he hp
  have hraise {e : Error} (hbody : decByte b s = .error (.plain e)) :
      exec (.decByte b) s = .next { s with err := some e, resp := s.resp ++ [.err 0x51 e] } := by
    rw [exec_decByte_of_raise he hp hbody, List.append_nil]
  refine ⟨fun hlegacy hend => hraise (decByte_of_past_end ⟨hlegacy, hend⟩), fun hlen hfull =>
    hraise (decByte_of_full ?_ hfull)⟩
  exact fun hlegacy => hlen.resolve_left (by simp [hlegacy])

/-! ### A 1 among the pad bits (R145) -/

/-- One bit completes at most one symbol. -/
theorem scanBit_dsyms_le {s : State} {pos : Nat} {bit : Bool} {a a' : Scan} (h : scanBit s pos bit a = .ok a') :
    a'.dsyms.toNat ≤ a.dsyms.toNat + 1 := by
  obtain ⟨-, -, -, rfl⟩ | ⟨-, x, -, -, rfl⟩ | ⟨-, -, -, rfl⟩ := scanBit_ok h
  · exact Nat.le_succ _
  · simp only [BitVec.toNat_add]
    exact Nat.mod_le _ _
  · exact Nat.le_succ _

/-- Where DSYMS can count one symbol a bit, the loop raises no OVERFLOW. -/
theorem scanBits_error_decoding {s : State} {pos : Nat} {x : Bits} {a : Scan} {r : Raise}
    (hroom : a.dsyms.toNat + x.length ≤ Config.maxCount) (h : scanBits s pos x a = .error r) : r.code = .decoding := by
  induction x generalizing pos a with
  | nil => cases h
  | cons b x ih =>
    rw [List.length_cons] at hroom
    simp only [scanBits] at h
    split at h
    · obtain rfl := Except.error.inj h
      obtain ⟨-, ⟨hcode, -⟩ | ⟨-, x, -, hfull⟩ | ⟨hcode, -⟩⟩ := scanBit_error ‹_›
      · exact hcode
      · omega
      · exact hcode
    · have := scanBit_dsyms_le ‹_›
      exact ih (by omega) h

/-- Where the loop raises nothing, the bits from position BITLEN on are 0 in LENGTH mode. -/
theorem scanBits_pad_eq_false {s : State} {pos j : Nat} {x : Bits} {a a' : Scan} (hlegacy : s.legacy = false)
    (hj : s.bitlen.toNat ≤ pos + j) {bit : Bool} (hbit : x[j]? = some bit) (h : scanBits s pos x a = .ok a') : bit = false := by
  induction x generalizing pos j a with
  | nil => cases hbit
  | cons b x ih =>
    simp only [scanBits] at h
    split at h
    · cases h
    · cases j with
      | zero =>
        obtain rfl := Option.some.inj hbit
        obtain ⟨-, -, hzero, -⟩ | ⟨hdata, -⟩ | ⟨hdata, -⟩ := scanBit_ok ‹_›
        · exact hzero
        · exact absurd ⟨hlegacy, hj⟩ hdata
        · exact absurd ⟨hlegacy, hj⟩ hdata
      | succ j => exact ih (by omega) hbit h

/-- Settles O51: the loop raises something at the 1 or before it, and OVERFLOW it cannot raise. -/
theorem padBitsMustBeZero : Obligations.PadBitsMustBeZero := by
  intro s b j he hp hlegacy hlen hroom hj hpad hone
  have hbytes : s.dbytes.toNat < Config.maxCount := by
    have := s.bitlen.isLt
    simp only [ceil8, Config.maxCount] at hlen ⊢
    omega
  rcases hscan : scanBits s (8 * s.dbytes.toNat) (byteBits b) ⟨s.dacc, s.dsyms, []⟩ with r | a
  · refine ⟨_, exec_decByte_of_raise he hp (decByte_of_raise (fun _ => hlen) hbytes hscan), ?_⟩
    exact congrArg some (scanBits_error_decoding (by rwa [byteBits_length]) hscan)
  · have hbit : (byteBits b)[j]? = some (b.getMsbD j) := by simp [byteBits_eq_map, hj]
    have := scanBits_pad_eq_false hlegacy hpad hbit hscan
    simp [hone] at this

/-! ### DEC_END (R146) -/

/-- A residual of at most 7 bits, all 0. -/
theorem residual_iff {d : Bits} : d.length ≤ 7 ∧ true ∉ d ↔ ∃ k, k ≤ 7 ∧ d = List.replicate k false := by
  constructor
  · rintro ⟨hlen, hzero⟩
    exact ⟨d.length, hlen, List.eq_replicate_of_mem fun b hb => by_contra fun hne => hzero (by simpa [hne] using hb)⟩
  · rintro ⟨k, hk, rfl⟩
    exact ⟨by simpa using hk, by simp⟩

theorem mayEnd_iff {s : State} : mayEnd s = true ↔
    if s.legacy = false then s.dbytes.toNat = (s.bitlen.toNat + 7) / 8 ∧ s.dacc = []
    else ∃ k, k ≤ 7 ∧ s.dacc = List.replicate k false := by
  unfold mayEnd
  split
  · exact decide_eq_true_iff
  · rw [decide_eq_true_iff, residual_iff]

theorem exec_decEnd {s : State} (he : s.err = none) (hp : s.phase = .dec) (hend : mayEnd s = true) :
    exec .decEnd s = .next { s with dacc := [], phase := .decDone, resp := s.resp ++ [.fin s.dsyms] } :=
  inPhases_of_ok he (List.mem_singleton.mpr hp) (if_pos hend)

/-- Settles O53: the two modes' conditions are the machine's own. -/
theorem decEndChecksTheStream : Obligations.DecEndChecksTheStream := by
  intro s he hp
  rw [← mayEnd_iff]
  refine ⟨exec_decEnd he hp, fun hend => ?_⟩
  rw [← raiseError_plain]
  exact inPhases_of_raise he (List.mem_singleton.mpr hp) (if_neg hend)

end Sys2Proof.Machine
end

section
/-! PROOF. DEC_BYTE's loop over a sequence of codes: the symbols it completes, the bits it keeps, and the errors behind them
(44_unpacker.md R145, R149). -/

namespace Sys2Proof.Machine

/-! ### The loop, split -/

theorem scanBits_append_of_ok {s : State} {pos : Nat} {x : Bits} {a a' : Scan} (h : scanBits s pos x a = .ok a') (y : Bits) :
    scanBits s pos (x ++ y) a = scanBits s (pos + x.length) y a' := by rw [scanBits_append, h]

theorem scanBits_append_of_error {s : State} {pos : Nat} {x : Bits} {a : Scan} {r : Raise} (h : scanBits s pos x a = .error r)
    (y : Bits) : scanBits s pos (x ++ y) a = .error r := by rw [scanBits_append, h]

theorem scanBits_singleton (s : State) (pos : Nat) (b : Bool) (a : Scan) : scanBits s pos [b] a = scanBit s pos b a := by
  simp only [scanBits]
  split <;> simp [*]

/-! ### Data bits and pad bits -/

/-- The n bits from stream position pos on are data bits. -/
def DataFrom (s : State) (pos n : Nat) : Prop := s.legacy = false → pos + n ≤ s.bitlen.toNat

theorem DataFrom.left {s : State} {pos m n : Nat} (h : DataFrom s pos (m + n)) : DataFrom s pos m := fun hl => by
  have := h hl
  omega

theorem DataFrom.right {s : State} {pos m n : Nat} (h : DataFrom s pos (m + n)) : DataFrom s (pos + m) n := fun hl => by
  have := h hl
  omega

theorem DataFrom.not_pad {s : State} {pos n : Nat} (h : DataFrom s pos (n + 1)) :
    ¬ (s.legacy = false ∧ s.bitlen.toNat ≤ pos) := fun ⟨hl, hle⟩ => by
  have := h hl
  omega

/-- Bits from stream position pos on are pad bits, if there are any. -/
def PadFrom (s : State) (pos : Nat) (x : Bits) : Prop := x ≠ [] → s.legacy = false ∧ s.bitlen.toNat ≤ pos

theorem PadFrom.tail {s : State} {pos : Nat} {b : Bool} {x : Bits} (h : PadFrom s pos (b :: x)) : PadFrom s (pos + 1) x :=
  fun _ => ⟨(h (List.cons_ne_nil _ _)).1, Nat.le_succ_of_le (h (List.cons_ne_nil _ _)).2⟩

theorem scanBits_pad_zeros {s : State} {pos : Nat} {x : Bits} (hpad : PadFrom s pos x) (hzero : ∀ p ∈ x, p = false) (a : Scan) :
    scanBits s pos x a = .ok a := by
  induction x generalizing pos with
  | nil => rfl
  | cons b x ih =>
    obtain ⟨rfl, hx⟩ := List.forall_mem_cons.mp hzero
    have hbit : scanBit s pos false a = .ok a := if_pos (hpad (List.cons_ne_nil _ _))
    simp only [scanBits, hbit, ih hpad.tail hx]

theorem scanBits_pad_one {s : State} {pos : Nat} {x : Bits} (hpad : PadFrom s pos x) (hone : true ∈ x) (a : Scan) :
    scanBits s pos x a = .error ⟨.decoding, a.out⟩ := by
  induction x generalizing pos with
  | nil => cases hone
  | cons b x ih =>
    have hbit : scanBit s pos b a = if b then .error ⟨.decoding, a.out⟩ else .ok a := if_pos (hpad (List.cons_ne_nil _ _))
    cases b with
    | true => simp only [scanBits, hbit, if_true]
    | false => simp only [scanBits, hbit, Bool.false_eq_true, if_false, ih hpad.tail (by simpa using hone)]

/-! ### One bit of data -/

section Data

variable {s : State} {pos : Nat} {b : Bool} {a : Scan} (hdata : DataFrom s pos 1)
include hdata

theorem scanBit_of_code {x : Sym} (hx : lookup s.code (a.dacc ++ [b]) = some x) (hroom : a.dsyms.toNat < Config.maxCount) :
    scanBit s pos b a = .ok ⟨[], a.dsyms + 1, a.out ++ [.sym x]⟩ := by
  rw [scanBit, if_neg hdata.not_pad, hx]
  exact if_neg hroom.ne

theorem scanBit_of_overflow {x : Sym} (hx : lookup s.code (a.dacc ++ [b]) = some x) (hfull : a.dsyms.toNat = Config.maxCount) :
    scanBit s pos b a = .error ⟨.overflow, a.out⟩ := by
  rw [scanBit, if_neg hdata.not_pad, hx]
  exact if_pos hfull

theorem scanBit_of_no_code (hx : lookup s.code (a.dacc ++ [b]) = none) (hlt : a.dacc.length + 1 < s.lmax.toNat) :
    scanBit s pos b a = .ok { a with dacc := a.dacc ++ [b] } := by
  rw [scanBit, if_neg hdata.not_pad, hx]
  exact if_neg (Nat.not_le.mpr hlt)

theorem scanBit_of_too_long (hx : lookup s.code (a.dacc ++ [b]) = none) (hle : s.lmax.toNat ≤ a.dacc.length + 1) :
    scanBit s pos b a = .error ⟨.decoding, a.out⟩ := by
  rw [scanBit, if_neg hdata.not_pad, hx]
  exact if_pos hle

end Data

/-! ### Bits that complete nothing -/

/-- No non-empty beginning of d is a code, d itself included. -/
def CompletesNothing (code : Table CodeEntry) (d : Bits) : Prop := ∀ k, 1 ≤ k → k ≤ d.length → ¬ isCode code (d.take k)

theorem completesNothing_nil (code : Table CodeEntry) : CompletesNothing code [] := fun k hk hle => absurd (hk.trans hle) (by simp)

theorem completesNothing_of_noShorterCode {code : Table CodeEntry} {d : Bits} (hshort : noShorterCode code d)
    (hd : ¬ isCode code d) : CompletesNothing code d := fun k hk hle => by
  rcases hle.lt_or_eq with hlt | rfl
  · exact hshort k hk hlt
  · rwa [List.take_length]

theorem CompletesNothing.of_prefix {code : Table CodeEntry} {d e : Bits} (h : CompletesNothing code e) (hpre : d <+: e) :
    CompletesNothing code d := fun k hk hle => by
  obtain ⟨y, rfl⟩ := hpre
  rw [← List.take_append_of_le_length (l₂ := y) hle]
  exact h k hk (by simp; omega)

/-- The beginning of a code that has no shorter code as its beginning completes nothing. -/
theorem completesNothing_of_append {code : Table CodeEntry} {d : Bits} {b : Bool} (hshort : noShorterCode code (d ++ [b])) :
    CompletesNothing code d := fun k hk hle => by
  rw [← List.take_append_of_le_length (l₂ := [b]) hle]
  exact hshort k hk (by simp; omega)

theorem CompletesNothing.not_code_prefix {code : Table CodeEntry} {d c : Bits} (h : CompletesNothing code d) (hc : isCode code c)
    (hpos : 1 ≤ c.length) : ¬ c <+: d := fun hpre => by
  have := h c.length hpos hpre.length_le
  rw [← List.prefix_iff_eq_take.mp hpre] at this
  exact this hc

/-- Where what is accumulated completes nothing, the first code of the stream ends behind it. -/
theorem exists_completion {code : Table CodeEntry} {d x c rest : Bits} (hd : CompletesNothing code d) (hc : isCode code c)
    (hpos : 1 ≤ c.length) (h : d ++ x = c ++ rest) : ∃ y b, c = d ++ y ++ [b] ∧ x = y ++ [b] ++ rest := by
  have hnot := hd.not_code_prefix hc hpos
  obtain ⟨e, rfl, rfl⟩ | ⟨e, rfl, -⟩ := List.append_eq_append_iff.mp h
  · obtain rfl | ⟨y, b, rfl⟩ := e.eq_nil_or_concat'
    · simp at hnot
    · exact ⟨y, b, by simp, rfl⟩
  · exact absurd (List.prefix_append _ _) hnot

section Unpacking

variable {s : State} (hinv : Inv s) (hp : s.phase = .dec)
include hinv hp

theorem Inv.lookup_of_completesNothing {d : Bits} {b : Bool} (h : CompletesNothing s.code (d ++ [b])) :
    lookup s.code (d ++ [b]) = none := by
  rw [hinv.lookup_eq_none_iff (.inr (.inl hp))]
  exact fun hc => h.not_code_prefix hc (by simp) List.prefix_rfl

theorem Inv.code_pos {x : Sym} (hx : (s.codeOf x).valid = true) : 1 ≤ (s.codeOf x).bits.length :=
  (hinv.rmapPhase (.inr (.inl hp))).1 _ (mem_validCodes.mpr ⟨x, hx, rfl⟩)

theorem Inv.code_length_le_lmax {x : Sym} (hx : (s.codeOf x).valid = true) : (s.codeOf x).bits.length ≤ s.lmax.toNat := by
  rw [hinv.lmax (by simp [hp])]
  exact length_le_longest hx

/-- Data bits that complete nothing are accumulated while they are fewer than LMAX. -/
theorem Inv.scanBits_accumulate {pos : Nat} {d x : Bits} {n : Word} {out : List Token} (hdata : DataFrom s pos x.length)
    (hnone : CompletesNothing s.code (d ++ x)) (hlt : (d ++ x).length < s.lmax.toNat ∨ x = []) :
    scanBits s pos x ⟨d, n, out⟩ = .ok ⟨d ++ x, n, out⟩ := by
  induction x generalizing pos d with
  | nil => simp [scanBits]
  | cons b x ih =>
    have hlt := hlt.resolve_right (List.cons_ne_nil _ _)
    rw [List.append_cons] at hnone hlt ⊢
    rw [List.length_cons, Nat.add_comm] at hdata
    have hnext : CompletesNothing s.code (d ++ [b]) := hnone.of_prefix (List.prefix_append _ _)
    have hbit : scanBit s pos b ⟨d, n, out⟩ = .ok ⟨d ++ [b], n, out⟩ :=
      scanBit_of_no_code hdata.left (hinv.lookup_of_completesNothing hp hnext) (by simp at hlt ⊢; omega)
    simp only [scanBits, hbit]
    exact ih hdata.right hnone (.inl hlt)

/-- Data bits that complete nothing and are LMAX or more raise DECODING (R145). -/
theorem Inv.scanBits_too_long {pos : Nat} {d x : Bits} {n : Word} {out : List Token} (hdata : DataFrom s pos x.length)
    (hnone : CompletesNothing s.code (d ++ x)) (hd : d.length < s.lmax.toNat ∨ d = []) (hne : d ++ x ≠ [])
    (hle : s.lmax.toNat ≤ (d ++ x).length) : scanBits s pos x ⟨d, n, out⟩ = .error ⟨.decoding, out⟩ := by
  induction x generalizing pos d with
  | nil =>
    rw [List.append_nil] at hne hle
    exact absurd hle (Nat.not_le.mpr (hd.resolve_right hne))
  | cons b x ih =>
    rw [List.append_cons] at hnone hne hle
    rw [List.length_cons, Nat.add_comm] at hdata
    have hnext := hinv.lookup_of_completesNothing hp (hnone.of_prefix (List.prefix_append (d ++ [b]) x))
    by_cases hlong : s.lmax.toNat ≤ d.length + 1
    · have hbit : scanBit s pos b ⟨d, n, out⟩ = .error ⟨.decoding, out⟩ := scanBit_of_too_long hdata.left hnext hlong
      simp only [scanBits, hbit]
    · have hbit : scanBit s pos b ⟨d, n, out⟩ = .ok ⟨d ++ [b], n, out⟩ :=
        scanBit_of_no_code hdata.left hnext (Nat.not_le.mp hlong)
      simp only [scanBits, hbit]
      exact ih hdata.right hnone (.inl (by simpa using Nat.not_le.mp hlong)) hne hle

/-- The bits that complete a code are accumulated but for the last, which is looked up with them. -/
theorem Inv.scanBits_code {pos : Nat} {d y : Bits} {b : Bool} {c : Sym} {n : Word} {out : List Token}
    (hdata : DataFrom s pos (y.length + 1)) (hc : (s.codeOf c).valid = true) (hshort : noShorterCode s.code (s.codeOf c).bits)
    (heq : (s.codeOf c).bits = d ++ y ++ [b]) :
    scanBits s pos (y ++ [b]) ⟨d, n, out⟩ = scanBit s (pos + y.length) b ⟨d ++ y, n, out⟩ ∧
      lookup s.code (d ++ y ++ [b]) = some c := by
  have hle := hinv.code_length_le_lmax hp hc
  rw [heq] at hshort hle
  have hrun := hinv.scanBits_accumulate hp (n := n) (out := out) hdata.left (completesNothing_of_append hshort)
    (.inl (by simp at hle ⊢; omega))
  refine ⟨?_, (hinv.lookup_eq_some_iff (.inr (.inl hp))).mpr ⟨hc, heq⟩⟩
  rw [scanBits_append_of_ok hrun, scanBits_singleton]

/-- The loop over the codes of symbols and further data bits completes the symbols and comes to the further bits, with nothing of
theirs completed. -/
theorem Inv.scanBits_codes {syms : List Sym} {pos : Nat} {d x rest : Bits} {n : Word} {out : List Token}
    (hdata : DataFrom s pos x.length) (hroom : n.toNat + syms.length ≤ Config.maxCount)
    (hsyms : ∀ c ∈ syms, (s.codeOf c).valid = true ∧ noShorterCode s.code (s.codeOf c).bits)
    (hd : CompletesNothing s.code d) (heq : d ++ x = codeStream s.code syms ++ rest) :
    ∃ y z d', x = y ++ z ∧
      scanBits s pos y ⟨d, n, out⟩ = .ok ⟨d', n + BitVec.ofNat 32 syms.length, out ++ syms.map .sym⟩ ∧
      d' ++ z = rest ∧ CompletesNothing s.code d' := by
  induction syms generalizing pos d x n out with
  | nil => exact ⟨[], x, d, rfl, by simp [scanBits], by simpa [codeStream] using heq, hd⟩
  | cons c syms ih =>
    obtain ⟨⟨hc, hshort⟩, hsyms⟩ := List.forall_mem_cons.mp hsyms
    rw [List.length_cons] at hroom
    rw [codeStream_cons, List.append_assoc] at heq
    obtain ⟨y, b, hcode, rfl⟩ := exists_completion hd ⟨c, hc, rfl⟩ (hinv.code_pos hp hc) heq
    rw [List.length_append, List.length_append, List.length_singleton] at hdata
    have hn : n.toNat < 2 ^ 32 - 1 := by simp only [Config.maxCount] at hroom; omega
    obtain ⟨hlast, hlookup⟩ := hinv.scanBits_code hp (n := n) (out := out) hdata.left hc hshort hcode
    rw [scanBit_of_code hdata.left.right hlookup hn] at hlast
    obtain ⟨y', z, d', hsplit, hrun, hrest, hd'⟩ := ih (d := []) (n := n + 1) (out := out ++ [.sym c]) hdata.right
      (by rw [toNat_count_add_one hn]; omega) hsyms (completesNothing_nil _) rfl
    refine ⟨y ++ [b] ++ y', z, d', by rw [hsplit, List.append_assoc _ y'], ?_, hrest, hd'⟩
    rw [scanBits_append_of_ok hlast, List.length_append, List.length_singleton, hrun]
    simp [BitVec.ofNat_add, BitVec.add_assoc, BitVec.add_comm (BitVec.ofNat 32 syms.length)]

/-- The codes of symbols, and a rest that completes nothing: the symbols go out and the rest is kept. -/
theorem Inv.scanBits_stream {syms : List Sym} {pos : Nat} {d x rest : Bits} {n : Word} {out : List Token}
    (hdata : DataFrom s pos x.length) (hroom : n.toNat + syms.length ≤ Config.maxCount)
    (hsyms : ∀ c ∈ syms, (s.codeOf c).valid = true ∧ noShorterCode s.code (s.codeOf c).bits)
    (hd : CompletesNothing s.code d) (heq : d ++ x = codeStream s.code syms ++ rest) (hrest : CompletesNothing s.code rest)
    (hlt : rest.length < s.lmax.toNat ∨ rest = []) :
    scanBits s pos x ⟨d, n, out⟩ = .ok ⟨rest, n + BitVec.ofNat 32 syms.length, out ++ syms.map .sym⟩ := by
  obtain ⟨y, z, d', rfl, hrun, rfl, -⟩ := hinv.scanBits_codes hp (out := out) hdata hroom hsyms hd heq
  rw [List.length_append] at hdata
  rw [scanBits_append_of_ok hrun]
  exact hinv.scanBits_accumulate hp hdata.right hrest (hlt.imp_right fun h => (List.append_eq_nil_iff.mp h).2)

end Unpacking

/-! ### One byte -/

theorem dataBits_append_padBits (s : State) (b : Byte) : dataBits s b ++ padBits s b = byteBits b := by
  have hbyte : streamBits [b] = byteBits b := by rw [streamBits_eq_flatMap_byteBits, List.flatMap_singleton]
  have hpre : dataBits s b <+: streamBits [b] := by
    unfold dataBits
    split
    · exact List.prefix_rfl
    · exact List.take_prefix _ _
  rw [← hbyte]
  exact List.prefix_iff_eq_append.mp hpre

theorem dataBits_length_of_length {s : State} (b : Byte) (hl : s.legacy = false) :
    (dataBits s b).length = min (s.bitlen.toNat - 8 * s.dbytes.toNat) 8 := by
  simp [dataBits, hl]

theorem dataBits_data {s : State} (b : Byte) (hlen : s.legacy = false → s.dbytes.toNat < ceil8 s.bitlen.toNat) :
    DataFrom s (8 * s.dbytes.toNat) (dataBits s b).length := fun hl => by
  have := hlen hl
  rw [dataBits_length_of_length b hl]
  simp only [ceil8] at this
  omega

theorem padBits_pad (s : State) (b : Byte) : PadFrom s (8 * s.dbytes.toNat + (dataBits s b).length) (padBits s b) := by
  intro hne
  have hlt : (dataBits s b).length < 8 := by simpa [padBits] using hne
  have hl : s.legacy = false := by
    by_contra hlegacy
    simp [dataBits, Bool.eq_true_of_not_eq_false hlegacy] at hlt
  rw [dataBits_length_of_length b hl] at hlt ⊢
  exact ⟨hl, by omega⟩

/-- Settles O49: the loop completes the symbols of the data bits and keeps the rest, and pad bits that are 0 change nothing. -/
theorem decByteEmitsTheDecodedSymbols : Obligations.DecByteEmitsTheDecodedSymbols := by
  intro s b syms rest hinv he hp hlen hpad hbytes hroom heq hsyms hdacc hshort hrest hlt
  have hdata := hinv.scanBits_stream hp (out := []) (dataBits_data b hlen) hroom hsyms hdacc heq
    (completesNothing_of_noShorterCode hshort hrest) hlt
  have hscan : scanBits s (8 * s.dbytes.toNat) (byteBits b) ⟨s.dacc, s.dsyms, []⟩ =
      .ok ⟨rest, s.dsyms + BitVec.ofNat 32 syms.length, syms.map .sym⟩ := by
    rw [← dataBits_append_padBits, scanBits_append_of_ok hdata, scanBits_pad_zeros (padBits_pad s b) hpad, List.nil_append]
  exact ⟨_, _, exec_decByte_of_ok he hp (decByte_of_scan hlen hbytes hscan), toNat_count_add_one hbytes, bitcnt_add hroom⟩

/-- Settles O52: the loop comes to what is behind the symbols with nothing of it completed, and raises there; behind data bits
that raise nothing, it raises at the pad bit. -/
theorem decByteErrorsKeepEarlierSymbols : Obligations.DecByteErrorsKeepEarlierSymbols := by
  intro s b syms rest hinv he hp hlen hbytes hroom hsyms hdacc
  have hraise {e : Error} (hscan : scanBits s (8 * s.dbytes.toNat) (byteBits b) ⟨s.dacc, s.dsyms, []⟩ =
      .error ⟨e, syms.map .sym⟩) : exec (.decByte b) s = .next { s with
        err := some e, resp := s.resp ++ syms.map .sym ++ [.err 0x51 e] } :=
    exec_decByte_of_raise he hp (decByte_of_raise hlen hbytes hscan)
  have hdata := dataBits_data b hlen
  refine ⟨fun heq hne hlong hnone => hraise ?_, fun x hx hshort heq hfull => hraise ?_, fun heq hshort hrest hlt hone =>
    hraise ?_⟩ <;> rw [← dataBits_append_padBits]
  · obtain ⟨y, z, d, hsplit, hrun, rfl, -⟩ := hinv.scanBits_codes hp (out := []) hdata hroom hsyms hdacc heq
    rw [hsplit, List.length_append] at hdata
    refine scanBits_append_of_error ?_ _
    rw [hsplit, scanBits_append_of_ok hrun]
    exact hinv.scanBits_too_long hp hdata.right hnone (scanBits_dacc hinv.dacc.1 hrun) hne hlong
  · rw [List.append_assoc] at heq
    obtain ⟨y, z, d, hsplit, hrun, hrest, hd⟩ := hinv.scanBits_codes hp (out := []) hdata hroom hsyms hdacc heq
    obtain ⟨v, c, hcode, rfl⟩ := exists_completion hd ⟨x, hx, rfl⟩ (hinv.code_pos hp hx) hrest
    simp only [hsplit, List.length_append, List.length_singleton] at hdata
    obtain ⟨hlast, hlookup⟩ := hinv.scanBits_code hp (n := s.dsyms + BitVec.ofNat 32 syms.length) (out := syms.map .sym)
      hdata.right.left hx hshort hcode
    refine scanBits_append_of_error ?_ _
    rw [hsplit, scanBits_append_of_ok hrun]
    refine scanBits_append_of_error (hlast.trans ?_) _
    exact scanBit_of_overflow hdata.right.left.right hlookup ((bitcnt_add hroom).trans hfull)
  · have hscan := hinv.scanBits_stream hp (out := []) hdata hroom hsyms hdacc heq
      (completesNothing_of_noShorterCode hshort hrest) hlt
    rw [scanBits_append_of_ok hscan, scanBits_pad_one (padBits_pad s b) hone, List.nil_append]

end Sys2Proof.Machine
end

section
/-! PROOF. Runs that end without an error: what they say of every command on the way, and what compressing a text leaves
(44_unpacker.md R147, 70_reset_and_hazards.md R198). -/

namespace Sys2Proof.Machine

/-! ### Runs -/

theorem runAll_induction {P : State → Prop} {is : List Instr} (hstep : ∀ i ∈ is, ∀ s t, P s → exec i s = .next t → P t)
    {s u : State} (hs : P s) (h : runAll is s = .next u) : P u := by
  induction is generalizing s with
  | nil => exact Host.Outcome.next.inj h ▸ hs
  | cons i is ih =>
    obtain ⟨hi, his⟩ := List.forall_mem_cons.mp hstep
    obtain ⟨t, ht⟩ := exec_answers i s
    rw [runAll_cons ht] at h
    exact ih his (hi s t hs ht) h

theorem CommandOutcome.inv {i : Instr} {s t : State} (hs : Inv s) (h : CommandOutcome s i t) : Inv t := by
  cases h with
  | discarded => exact hs
  | raised _ _ r => exact inv_raiseError hs _ r
  | effect _ h => exact h.inv hs

theorem runAll_inv {is : List Instr} {s u : State} (hs : Inv s) (h : runAll is s = .next u) : Inv u :=
  runAll_induction (fun _ _ _ _ hs ht => (exec_outcome ht).inv hs) hs h

/-- A run of commands that do not write CODE leaves it. -/
theorem runAll_code {is : List Instr} {s u : State} (hcode : ∀ i ∈ is, Element.code ∉ writes i) (h : runAll is s = .next u) :
    u.code = s.code :=
  runAll_induction (P := fun t => t.code = s.code)
    (fun i hi _ _ ht hexec => (commandsWriteOnlyTheirElements i _ _ .code hexec (hcode i hi)).trans ht) rfl h

/-! ### Runs without an error -/

theorem Effect.err_eq_none {i : Instr} {s t : State} (h : Effect s i t) (hgate : runsInErrorState i = false) : s.err = none := by
  cases h with
  | nop | clear | statusRead | freqRead | codeRead => cases hgate
  | argLo _ he | argHi _ he | freqAdd _ he | freqSet _ he | buildTree he | genCodes he | encSym _ he | encFlush he | tblBegin _ he
  | tblAppend _ he | tblInvert he | decStart _ he | decByte _ _ he | decEnd he => exact he

/-- The gate of R164. -/
theorem exec_of_error {i : Instr} {s : State} (hgate : runsInErrorState i = false) (he : s.err ≠ none) : exec i s = .next s := by
  obtain ⟨t, ht⟩ := exec_answers i s
  cases exec_outcome ht with
  | discarded => exact ht
  | raised _ he' => exact absurd he' he
  | effect _ h => exact absurd (h.err_eq_none hgate) he

/-- The gate over a run. -/
theorem runAll_of_error {is : List Instr} {s : State} (hgate : ∀ i ∈ is, runsInErrorState i = false) (he : s.err ≠ none) :
    runAll is s = .next s := by
  induction is with
  | nil => rfl
  | cons i is ih =>
    obtain ⟨hi, his⟩ := List.forall_mem_cons.mp hgate
    rw [runAll_cons (exec_of_error hi he), ih his]

/-- In a run that ends without an error the first command has its effect, since an error would have stayed (R164, R167). -/
theorem effect_of_success {i : Instr} {is : List Instr} {s u : State} (hgate : ∀ j ∈ is, runsInErrorState j = false)
    (h : runAll (i :: is) s = .next u) (hu : u.err = none) : ∃ t, Effect s i t ∧ runAll is t = .next u := by
  obtain ⟨t, ht⟩ := exec_answers i s
  rw [runAll_cons ht] at h
  have hte : t.err = none := by
    by_contra hte
    rw [runAll_of_error hgate hte, Host.Outcome.next.injEq] at h
    exact hte (h ▸ hu)
  cases exec_outcome ht with
  | discarded _ he => exact absurd hte he
  | raised => cases hte
  | effect _ heff => exact ⟨t, heff, h⟩

/-- A text counted without an error changes the Frequency Map alone. -/
theorem counted_of_success {t : List Sym} {is : List Instr} {s u : State} (hgate : ∀ i ∈ is, runsInErrorState i = false)
    (h : runAll (t.map .freqAdd ++ is) s = .next u) (hu : u.err = none) :
    ∃ f : Table Word, runAll is { s with freq := f } = .next u := by
  induction t generalizing s with
  | nil => exact ⟨s.freq, h⟩
  | cons x t ih =>
    obtain ⟨m, heff, hrun⟩ := effect_of_success (by simpa [or_imp, forall_and, runsInErrorState] using hgate) h hu
    cases heff
    obtain ⟨f, hf⟩ := ih hrun
    exact ⟨f, hf⟩

/-- A text packed and flushed without an error has valid codes that BITCNT can count. -/
theorem packed_of_success {t : List Sym} {s u : State} (h : runAll (t.map .encSym ++ [.encFlush]) s = .next u)
    (hu : u.err = none) :
    (∀ x ∈ t, (s.codeOf x).valid = true) ∧ s.bitcnt.toNat + (codeStream s.code t).length ≤ 2 ^ 32 - 1 := by
  induction t generalizing s with
  | nil => exact ⟨by simp, Nat.le_pred_of_lt s.bitcnt.isLt⟩
  | cons x t ih =>
    obtain ⟨m, heff, hrun⟩ := effect_of_success (by simp [or_imp, forall_and, runsInErrorState]) h hu
    cases heff with
    | encSym _ _ _ hv hfits =>
      obtain ⟨hvalid, hle⟩ := ih hrun
      rw [bitcnt_add hfits] at hle
      rw [codeStream_cons, List.length_append, ← Nat.add_assoc]
      exact ⟨List.forall_mem_cons.mpr ⟨hv, hvalid⟩, hle⟩

/-! ### Compressing a text -/

/-- What compressing a text t leaves in u behind the tokens there were: the codes generated for some Frequency Map, the bytes of the
packed stream, and the stream's length (43_packer.md R132). -/
structure Compressed (tokens : List Token) (t : List Sym) (bytes : List Byte) (u : State) : Prop where
  inv : Inv u
  done : CompressDone u
  generated : ∃ m, Inv m ∧ m.phase = .freq ∧ u.code = (genCodes (buildTree m)).code
  valid : ∀ x ∈ t, (u.codeOf x).valid = true
  fits : (codeStream u.code t).length ≤ 2 ^ 32 - 1
  resp : u.resp = tokens ++ bytes.map .byte ++ [.len (BitVec.ofNat 32 (codeStream u.code t).length)]
  stream : streamBits bytes = codeStream u.code t ++ List.replicate (padCount (codeStream u.code t).length) false
  bytesLength : bytes.length = ceil8 (codeStream u.code t).length

theorem compressCommands_eq (t : List Sym) : compressCommands t =
    .clear :: (t.map .freqAdd ++ ([.buildTree, .genCodes] ++ (t.map .encSym ++ [.encFlush]))) := by
  simp [compressCommands, Pseudo.expand]

/-- BUILD_TREE and GEN_CODES leave the packer and RESP alone. -/
theorem generated_frame (m : State) : (genCodes (buildTree m)).pend = m.pend ∧ (genCodes (buildTree m)).bitcnt = m.bitcnt ∧
    (genCodes (buildTree m)).resp = m.resp := by
  refine ⟨(genCodes_frame _ (el := .pend) ?_).trans (buildTree_frame m (el := .pend) ?_),
    (genCodes_frame _ (el := .bitcnt) ?_).trans (buildTree_frame m (el := .bitcnt) ?_),
    (genCodes_resp _).trans (buildTree_resp m)⟩ <;> simp [writes]

/-- CLEAR starts a session, the text is counted, and from CODES with an empty packer it is packed. -/
theorem compressed_of_success {s u : State} {t : List Sym} (h : runAll (compressCommands t) s = .next u) (hu : u.err = none) :
    ∃ bytes, Compressed s.resp t bytes u := by
  rw [compressCommands_eq, runAll_cons (exec_clear s)] at h
  have hinv : Inv u := runAll_inv (inv_clearSession s) h
  obtain ⟨f, h⟩ := counted_of_success (by simp [or_imp, forall_and, runsInErrorState]) h hu
  have hcounted : Inv { clearSession s with freq := f } := inv_freq (inv_clearSession s) rfl f
  rw [runAll_append (runAll_buildTree_genCodes rfl rfl)] at h
  obtain ⟨hpend, hbitcnt, hresp⟩ := generated_frame { clearSession s with freq := f }
  obtain ⟨hvalid, hfits⟩ := packed_of_success h hu
  rw [hbitcnt, clearSession_bitcnt, reset_bitcnt] at hfits
  have hcode : u.code = _ := runAll_code (by simp [or_imp, forall_and, writes]) h
  obtain ⟨v, bytes, hrun, hdone, hv, hstream, hlen, -⟩ := packedStreamIsThePaddedConcatenation _ t
    ((genCodes_err _).trans (buildTree_err _)) (genCodes_phase _) hpend hbitcnt hvalid (by simpa using hfits)
  obtain rfl := Host.Outcome.next.inj (h.symm.trans hrun)
  rw [← hcode] at hv hstream hlen
  refine ⟨bytes, hinv, hdone, ⟨_, hcounted, rfl, hcode⟩, ?_, ?_, ?_, hstream, hlen⟩
  · simpa only [State.codeOf, hcode] using hvalid
  · simpa [hcode] using hfits
  · rw [hv, hresp, clearSession_resp]

end Sys2Proof.Machine
end

section
/-! PROOF. Decoding a packed stream: the bytes' bits are scanned one behind the other, and what a PrefixCode packed comes back
(44_unpacker.md R142 to R147). -/

namespace Sys2Proof.Machine

/-! ### Bytes one behind the other -/

/-- What the loop emits does not depend on what was emitted before. -/
theorem scanBit_ok_out {s : State} {pos : Nat} {b : Bool} {a a' : Scan} (h : scanBit s pos b a = .ok a') :
    ∃ o, a'.out = a.out ++ o ∧ ∀ o', scanBit s pos b { a with out := o' } = .ok { a' with out := o' ++ o } := by
  obtain ⟨hl, hle, rfl, rfl⟩ | ⟨hdata, x, hx, hroom, rfl⟩ | ⟨hdata, hx, hlt, rfl⟩ := scanBit_ok h
  · exact ⟨[], by simp, fun o' => by simp [scanBit, hl, hle]⟩
  · exact ⟨[.sym x], rfl, fun o' => by rw [scanBit, if_neg hdata, hx]; exact if_neg hroom⟩
  · exact ⟨[], by simp, fun o' => by rw [scanBit, if_neg hdata, hx, List.append_nil]; exact if_neg (Nat.not_le.mpr hlt)⟩

theorem scanBits_ok_out {s : State} {pos : Nat} {x : Bits} {a a' : Scan} (h : scanBits s pos x a = .ok a') :
    ∃ o, a'.out = a.out ++ o ∧ ∀ o', scanBits s pos x { a with out := o' } = .ok { a' with out := o' ++ o } := by
  induction x generalizing pos a with
  | nil =>
    obtain rfl := Except.ok.inj h
    exact ⟨[], by simp, fun o' => by simp [scanBits]⟩
  | cons b x ih =>
    rw [← List.singleton_append, scanBits_append, scanBits_singleton] at h
    split at h
    · obtain ⟨o₁, hout₁, hbit⟩ := scanBit_ok_out ‹_›
      obtain ⟨o₂, hout₂, hx⟩ := ih h
      refine ⟨o₁ ++ o₂, by rw [hout₂, hout₁, List.append_assoc], fun o' => ?_⟩
      rw [← List.singleton_append, scanBits_append_of_ok ((scanBits_singleton s pos b _).trans (hbit o')), hx (o' ++ o₁),
        List.append_assoc]
    · cases h

/-- The state behind a byte whose loop left a. -/
def behindByte (s : State) (a : Scan) : State :=
  { s with dacc := a.dacc, dsyms := a.dsyms, dbytes := s.dbytes + 1, resp := s.resp ++ a.out }

/-- The loop reads nothing that a byte changes. -/
theorem scanBits_behindByte (s : State) (a₀ : Scan) (pos : Nat) (x : Bits) (a : Scan) :
    scanBits (behindByte s a₀) pos x a = scanBits s pos x a := by
  induction x generalizing pos a with
  | nil => rfl
  | cons b x ih =>
    have hbit : scanBit (behindByte s a₀) pos b a = scanBit s pos b a := rfl
    simp only [scanBits, hbit, ih]

/-- Bytes whose bits one behind the other raise nothing are taken one after the other with the same effect. -/
theorem runAll_decByte {s : State} {bytes : List Byte} {a : Scan} (he : s.err = none) (hp : s.phase = .dec)
    (hlen : s.legacy = false → s.dbytes.toNat + bytes.length ≤ ceil8 s.bitlen.toNat)
    (hroom : s.dbytes.toNat + bytes.length ≤ Config.maxCount)
    (hscan : scanBits s (8 * s.dbytes.toNat) (streamBits bytes) ⟨s.dacc, s.dsyms, []⟩ = .ok a) :
    runAll (bytes.map .decByte) s = .next { s with
      dacc := a.dacc, dsyms := a.dsyms, dbytes := s.dbytes + BitVec.ofNat 32 bytes.length, resp := s.resp ++ a.out } := by
  induction bytes generalizing s a with
  | nil =>
    obtain rfl := Except.ok.inj hscan
    simp [runAll]
  | cons b bytes ih =>
    have hbyte : streamBits (b :: bytes) = byteBits b ++ streamBits bytes := by
      rw [streamBits_eq_flatMap_byteBits, List.flatMap_cons, streamBits_eq_flatMap_byteBits]
    rw [hbyte, scanBits_append, byteBits_length] at hscan
    rw [List.length_cons] at hlen hroom ⊢
    split at hscan
    · rename_i a₁ hfirst
      have hroom₁ : s.dbytes.toNat < 2 ^ 32 - 1 := by simp only [Config.maxCount] at hroom; omega
      have hexec : exec (.decByte b) s = .next (behindByte s a₁) :=
        exec_decByte_of_ok he hp (decByte_of_scan (fun hl => by have := hlen hl; omega) hroom₁ hfirst)
      have hcount : (behindByte s a₁).dbytes.toNat = s.dbytes.toNat + 1 := toNat_count_add_one hroom₁
      obtain ⟨o, hout, hrest⟩ := scanBits_ok_out hscan
      have hrun := ih (s := behindByte s a₁) (a := { a with out := o }) he hp
        (fun hl => by rw [hcount, Nat.add_assoc, Nat.add_comm 1]; exact hlen hl) (by omega) (by
          rw [scanBits_behindByte, hcount]
          exact hrest [])
      rw [List.map_cons, runAll_cons hexec, hrun]
      simp [behindByte, hout, BitVec.ofNat_add, BitVec.add_assoc, BitVec.add_comm 1#32]
    · cases hscan

/-- From the start of a stream: bytes whose bits end in symbols and a rest that DEC_END accepts give the symbols back. -/
theorem runAll_decByte_decEnd {s : State} {bytes : List Byte} {syms : List Sym} {rest : Bits} (he : s.err = none)
    (hp : s.phase = .dec) (hdacc : s.dacc = []) (hdbytes : s.dbytes = 0) (hdsyms : s.dsyms = 0)
    (hbytes : bytes.length ≤ Config.maxCount)
    (hscan : scanBits s 0 (streamBits bytes) ⟨[], 0, []⟩ = .ok ⟨rest, BitVec.ofNat 32 syms.length, syms.map .sym⟩)
    (hlen : s.legacy = false → bytes.length = ceil8 s.bitlen.toNat ∧ rest = [])
    (hres : s.legacy = true → rest.length ≤ 7 ∧ true ∉ rest) :
    ∃ v, runAll (bytes.map .decByte ++ [.decEnd]) s = .next v ∧ DecompressDone v ∧
      v.resp = s.resp ++ syms.map .sym ++ [.fin (BitVec.ofNat 32 syms.length)] := by
  have hrun := runAll_decByte (bytes := bytes) he hp (fun hl => by simp [hdbytes, (hlen hl).1]) (by simpa [hdbytes] using hbytes)
    (by simpa [hdacc, hdbytes, hdsyms] using hscan)
  have hcount : (0 + BitVec.ofNat 32 bytes.length : Word).toNat = bytes.length :=
    (bitcnt_add (by simpa using hbytes)).trans (Nat.zero_add _)
  refine ⟨_, (runAll_append hrun).trans (runAll_cons (exec_decEnd he hp ?_)), ⟨he, rfl⟩, rfl⟩
  cases hl : s.legacy with
  | false => exact decide_eq_true ⟨hdbytes ▸ hcount.trans (hlen hl).1, (hlen hl).2⟩
  | true => simpa [mayEnd, hl] using hres hl

/-! ### PrefixCode tables -/

/-- Codes of at least one bit, none the beginning of another: what R39 item 3 says of a generated table. -/
def PrefixCode (code : Table CodeEntry) : Prop := (∀ c ∈ validCodes code, 1 ≤ c.length) ∧ PrefixFree (validCodes code)

theorem PrefixCode.pos {code : Table CodeEntry} (h : PrefixCode code) {x : Sym} (hx : (entry code x).valid = true) :
    1 ≤ (entry code x).bits.length := h.1 _ (mem_validCodes.mpr ⟨x, hx, rfl⟩)

theorem PrefixCode.nil_notMem {code : Table CodeEntry} (h : PrefixCode code) : [] ∉ validCodes code :=
  fun hnil => absurd (h.1 _ hnil) (by simp)

theorem PrefixCode.nodup {code : Table CodeEntry} (h : PrefixCode code) : (validCodes code).Nodup := by
  refine List.Pairwise.imp ?_ h.2
  rintro a _ ⟨hab, -⟩ rfl
  exact hab List.prefix_rfl

theorem PrefixCode.noShorterCode {code : Table CodeEntry} (h : PrefixCode code) {x : Sym} (hx : (entry code x).valid = true) :
    noShorterCode code (entry code x).bits := fun k _ hk hc => by
  have hne : (entry code x).bits.take k ≠ (entry code x).bits := fun heq => by
    have := congrArg List.length heq
    rw [List.length_take] at this
    omega
  have : Std.Symm fun a b : Bits => ¬ a <+: b ∧ ¬ b <+: a := ⟨fun _ _ => And.symm⟩
  refine (List.Pairwise.forall h.2 (isCode_iff_mem.mp hc) (mem_validCodes.mpr ⟨x, hx, rfl⟩) hne).1 ?_
  exact List.take_prefix _ _

theorem PrefixCode.length_le_codeStream {code : Table CodeEntry} (h : PrefixCode code) {t : List Sym}
    (ht : ∀ x ∈ t, (entry code x).valid = true) : t.length ≤ (codeStream code t).length := by
  induction t with
  | nil => exact Nat.zero_le _
  | cons x t ih =>
    obtain ⟨hx, ht⟩ := List.forall_mem_cons.mp ht
    have := h.pos hx
    have := ih ht
    rw [codeStream_cons, List.length_append, List.length_cons]
    omega

/-! ### A stream decoded -/

/-- The state TBL_INVERT and DEC_START leave (R142, R144). -/
def startDecoding (legacy : Bool) (s : State) : State :=
  { s with
    lmax := BitVec.ofNat 8 (longest s.code), legacy := legacy, bitlen := s.arg, dacc := [], dbytes := 0, dsyms := 0
    phase := .dec }

section Decoding

variable {s : State} (he : s.err = none) (hp : s.phase = .freq ∨ s.phase = .encDone ∨ s.phase = .tblLoad)
  (hcode : PrefixCode s.code)
include he hp hcode

theorem runAll_startDecoding (legacy : Bool) : runAll [.tblInvert, .decStart legacy] s = .next (startDecoding legacy s) :=
  (runAll_cons (exec_tblInvert he hp hcode.nil_notMem hcode.nodup)).trans
    (runAll_cons (decStartLatchesModeAndLength _ legacy he rfl))

theorem runAll_startDecoding_length (len : Word) :
    runAll ([.tblInvert] ++ (Pseudo.decStartLen len).expand) s = .next (startDecoding false { s with arg := len }) :=
  (runAll_cons (exec_tblInvert he hp hcode.nil_notMem hcode.nodup)).trans
    ((runAll_append (runAll_loadArg (s := { s with lmax := BitVec.ofNat 8 (longest s.code), phase := .rmap }) len he)).trans
      (runAll_cons (decStartLatchesModeAndLength _ false he rfl)))

variable (hinv : Inv s)
include hinv

theorem inv_startDecoding (legacy : Bool) : Inv (startDecoding legacy s) :=
  runAll_inv hinv (runAll_startDecoding he hp hcode legacy)

/-- Bytes whose bits are the codes of symbols, a rest that completes nothing, and pad bits, from the start of decoding on. -/
theorem runAll_startDecoding_bytes {legacy : Bool} {syms : List Sym} {rest pad : Bits} {bytes : List Byte}
    (hsyms : ∀ x ∈ syms, (s.codeOf x).valid = true) (hroom : syms.length ≤ 2 ^ 32 - 1) (hbytes : bytes.length ≤ 2 ^ 32 - 1)
    (hstream : streamBits bytes = codeStream s.code syms ++ rest ++ pad) (hrest : CompletesNothing s.code rest)
    (hlt : rest.length < longest s.code ∨ rest = []) (hzero : ∀ p ∈ pad, p = false)
    (hlen : legacy = false → s.arg.toNat = (codeStream s.code syms).length ∧ bytes.length = ceil8 s.arg.toNat ∧ rest = [])
    (hres : legacy = true → pad = [] ∧ rest.length ≤ 7 ∧ true ∉ rest) :
    ∃ v, runAll (bytes.map .decByte ++ [.decEnd]) (startDecoding legacy s) = .next v ∧ DecompressDone v ∧
      v.resp = s.resp ++ syms.map .sym ++ [.fin (BitVec.ofNat 32 syms.length)] := by
  have hstart := inv_startDecoding he hp hcode hinv legacy
  have hdata : DataFrom (startDecoding legacy s) 0 (codeStream s.code syms ++ rest).length := fun hl => by
    obtain ⟨harg, -, rfl⟩ := hlen hl
    simpa [startDecoding] using harg.ge
  have hpad : PadFrom (startDecoding legacy s) (0 + (codeStream s.code syms ++ rest).length) pad := fun hne => by
    have hl : legacy = false := Bool.eq_false_of_not_eq_true fun hl => hne (hres hl).1
    obtain ⟨harg, -, rfl⟩ := hlen hl
    exact ⟨hl, by simpa [startDecoding] using harg.le⟩
  have hlmax : (startDecoding legacy s).lmax.toNat = longest s.code := hstart.lmax (by simp [startDecoding])
  have hscan := hstart.scanBits_stream rfl (n := 0) (out := []) (syms := syms) (rest := rest) hdata (by simpa using hroom)
    (fun x hx => ⟨hsyms x hx, hcode.noShorterCode (hsyms x hx)⟩) (completesNothing_nil _) rfl hrest (by rwa [hlmax])
  refine runAll_decByte_decEnd (s := startDecoding legacy s) (rest := rest) he rfl rfl rfl rfl hbytes ?_
    (fun hl => (hlen hl).2) fun hl => (hres hl).2
  rw [hstream, scanBits_append_of_ok hscan, scanBits_pad_zeros hpad hzero]
  simp

/-- A text packed with a PrefixCode comes back from its bytes and its length in LENGTH mode. -/
theorem runAll_decodeCommands {t : List Sym} {bytes : List Byte} (ht : ∀ x ∈ t, (s.codeOf x).valid = true)
    (hfits : (codeStream s.code t).length ≤ 2 ^ 32 - 1)
    (hstream : streamBits bytes = codeStream s.code t ++ List.replicate (padCount (codeStream s.code t).length) false)
    (hbytes : bytes.length = ceil8 (codeStream s.code t).length) :
    ∃ v, runAll (decodeCommands (BitVec.ofNat 32 (codeStream s.code t).length) bytes) s = .next v ∧ DecompressDone v ∧
      v.resp = s.resp ++ t.map .sym ++ [.fin (BitVec.ofNat 32 t.length)] := by
  have harg : (BitVec.ofNat 32 (codeStream s.code t).length).toNat = (codeStream s.code t).length :=
    Nat.mod_eq_of_lt (by omega)
  have hroom := (hcode.length_le_codeStream ht).trans hfits
  obtain ⟨v, hrun, hdone, hresp⟩ := runAll_startDecoding_bytes (legacy := false) (rest := []) he hp hcode (inv_arg hinv _)
    (s := { s with arg := BitVec.ofNat 32 (codeStream s.code t).length }) ht hroom (by rw [hbytes, ceil8]; omega)
    (by rwa [List.append_nil]) (completesNothing_nil _) (.inr rfl) (fun _ => List.eq_of_mem_replicate)
    (fun _ => ⟨harg, by rw [harg, hbytes], rfl⟩) (fun hl => by cases hl)
  refine ⟨v, ?_, hdone, hresp⟩
  rw [decodeCommands, List.append_assoc, runAll_append (runAll_startDecoding_length he hp hcode _)]
  exact hrun

/-- In LEGACY mode the bytes are the codes of symbols and at most 7 zero bits that complete nothing. -/
theorem runAll_legacyCommands {syms : List Sym} {rest : Bits} {bytes : List Byte}
    (hsyms : ∀ x ∈ syms, (s.codeOf x).valid = true) (hroom : syms.length ≤ 2 ^ 32 - 1) (hbytes : bytes.length ≤ 2 ^ 32 - 1)
    (hstream : streamBits bytes = codeStream s.code syms ++ rest) (hrest : CompletesNothing s.code rest)
    (hlt : rest.length < longest s.code) (hres : rest.length ≤ 7 ∧ true ∉ rest) :
    ∃ v, runAll (legacyCommands bytes) s = .next v ∧ DecompressDone v ∧
      v.resp = s.resp ++ syms.map .sym ++ [.fin (BitVec.ofNat 32 syms.length)] := by
  obtain ⟨v, hrun, hdone, hresp⟩ := runAll_startDecoding_bytes (legacy := true) (pad := []) he hp hcode hinv hsyms hroom hbytes
    (by rwa [List.append_nil]) hrest (.inl hlt) (by simp) (fun hl => by cases hl) fun _ => ⟨rfl, hres⟩
  refine ⟨v, ?_, hdone, hresp⟩
  rw [legacyCommands, List.append_assoc, runAll_append (runAll_startDecoding he hp hcode true)]
  exact hrun

end Decoding

end Sys2Proof.Machine
end

section
/-! PROOF. The round trips of 44_unpacker.md R147 and R148: with the session's own table, through a reloaded table, and in LEGACY
mode with its phantom symbols. -/

namespace Sys2Proof.Machine

/-! ### With the session's own table (R147) -/

theorem Compressed.prefixCode {tokens : List Token} {t : List Sym} {bytes : List Byte} {u : State}
    (h : Compressed tokens t bytes u) : PrefixCode u.code := by
  obtain ⟨-, hpos, hfree⟩ := h.inv.codesPhase (.inr h.done.2)
  exact ⟨hpos, hfree⟩

/-- Settles O58: compressing leaves the codes of the text, packed with a PrefixCode, and decoding them gives the text. -/
theorem roundTripWithTheSessionsTable : Obligations.RoundTripWithTheSessionsTable := by
  intro s u t hrun hu
  obtain ⟨bytes, h⟩ := compressed_of_success hrun hu
  obtain ⟨v, hdecode, hdone, hresp⟩ := runAll_decodeCommands hu (.inr (.inl h.done.2)) h.prefixCode h.inv h.valid h.fits
    h.stream h.bytesLength
  have hroom := (h.prefixCode.length_le_codeStream h.valid).trans h.fits
  exact ⟨bytes, _, h.resp, v, hdecode, hdone, hresp, by omega⟩

/-! ### Through a reloaded table (R147) -/

/-- TBL_LOAD of a list of symbols with their codes, one after the other. -/
theorem runAll_tblLoads {cs : List (Sym × Bits)} {s : State} (he : s.err = none) (hp : s.phase = .freq ∨ s.phase = .tblLoad)
    (hfits : ∀ c ∈ cs, c.2.length ≤ 255) :
    ∃ w, runAll (cs.flatMap fun c => (Pseudo.tblLoad c.1 c.2).expand) s = .next w ∧ w.err = none ∧
      (w.phase = .freq ∨ w.phase = .tblLoad) ∧ w.resp = s.resp ∧ w.code = writeCodes s.code cs := by
  induction cs generalizing s with
  | nil => exact ⟨s, rfl, he, hp, rfl, rfl⟩
  | cons c cs ih =>
    obtain ⟨hc, hcs⟩ := List.forall_mem_cons.mp hfits
    obtain ⟨w, hrun, hw⟩ := ih (s := loading s c.1 c.2) he (.inr rfl) hcs
    exact ⟨w, by rw [List.flatMap_cons, runAll_append (runAll_tblLoad he hp hc), hrun], hw⟩

theorem loadCommands_eq (code : Table CodeEntry) : loadCommands code =
    ((validSyms code).map fun x => (x, (entry code x).bits)).flatMap fun c => (Pseudo.tblLoad c.1 c.2).expand := by
  rw [loadCommands, List.flatMap_map]

/-- The valid entries written over the empty table are the whole table, since an absent entry has no bits (R23). -/
theorem writeCodes_validSyms {u : State} (h : EntriesOk u) :
    writeCodes State.reset.code ((validSyms u.code).map fun x => (x, (entry u.code x).bits)) = u.code := by
  refine table_ext fun x => ?_
  cases hx : (entry u.code x).valid with
  | true =>
    rw [entry_writeCodes_of_mem (List.mem_map.mpr ⟨x, mem_validSyms.mpr hx, rfl⟩)
      (by simpa [Function.comp_def] using nodup_validSyms u.code), ← hx]
  | false =>
    have hbits := (entriesOk_iff.mp h x).2 hx
    rw [entry_writeCodes_of_notMem, reset_code, entry_replicate, CodeEntry.absent, ← hbits, ← hx]
    intro c hc
    obtain ⟨y, hy, rfl⟩ := List.mem_map.mp hc
    rintro rfl
    simp [mem_validSyms, hx] at hy

/-- CLEAR and a TBL_LOAD of every valid entry leave the table as it was. -/
theorem runAll_clear_loadCommands {u : State} (h : Inv u) :
    ∃ w, runAll (.clear :: loadCommands u.code) u = .next w ∧ Inv w ∧ w.err = none ∧
      (w.phase = .freq ∨ w.phase = .tblLoad) ∧ w.resp = u.resp ∧ w.code = u.code := by
  obtain ⟨w, hrun, he, hp, hresp, hcode⟩ := runAll_tblLoads (s := clearSession u)
    (cs := (validSyms u.code).map fun x => (x, (entry u.code x).bits)) rfl (.inl rfl) fun c hc => by
      obtain ⟨x, -, rfl⟩ := List.mem_map.mp hc
      exact (entriesOk_iff.mp h.entries x).1
  rw [← loadCommands_eq] at hrun
  have hall := (runAll_cons (exec_clear u)).trans hrun
  exact ⟨w, hall, runAll_inv h hall, he, hp, hresp, hcode.trans (writeCodes_validSyms h.entries)⟩

/-- Settles O59: the reloaded table is the session's own. -/
theorem roundTripThroughAReloadedTable : Obligations.RoundTripThroughAReloadedTable := by
  intro s u t hrun hu
  obtain ⟨bytes, h⟩ := compressed_of_success hrun hu
  obtain ⟨w, hload, hinv, he, hp, hwresp, hcode⟩ := runAll_clear_loadCommands h.inv
  have hprefix := h.prefixCode
  have hvalid : ∀ x ∈ t, (entry u.code x).valid = true := h.valid
  have hfits := h.fits
  have hstream := h.stream
  have hlen := h.bytesLength
  have hresp := h.resp
  rw [← hcode] at hprefix hvalid hfits hstream hlen hresp
  obtain ⟨v, hdecode, hdone, hv⟩ := runAll_decodeCommands he (hp.imp_right .inr) hprefix hinv hvalid hfits hstream hlen
  exact ⟨bytes, _, hresp, v, (runAll_append hload).trans hdecode, hdone, by rw [hv, hwresp]⟩

/-! ### Phantom symbols in LEGACY mode (R148) -/

/-- Of the codes generated for a Frequency Map that is not empty, one has 0 bits only: the single leaf's, or the one an infinite
sequence of 0 bits begins with (R119, R123). -/
theorem generated_exists_zeros {m : State} (hinv : Inv m) (hp : m.phase = .freq) (hne : mapSyms m.freq ≠ []) :
    ∃ z k, (genCodes (buildTree m)).codeOf z = ⟨true, List.replicate k false⟩ := by
  by_cases h1 : (mapSyms m.freq).length = 1
  · obtain ⟨z, hz⟩ := List.length_eq_one_iff.mp h1
    obtain ⟨-, -, -, hempty⟩ := hinv.freqPhase hp
    exact ⟨z, 1, codeOf_generated_of_single hempty hz⟩
  · have hpos := List.length_pos_iff.mpr hne
    obtain ⟨z, hz, hbegins⟩ := hinv.generated_complete hp (by omega) fun _ => false
    have hvalid := (hinv.generated_valid_iff hp z).mpr hz
    rw [BeginsWith, List.map_const', List.length_range] at hbegins
    exact ⟨z, _, by rw [← hvalid, ← hbegins]⟩

theorem Compressed.exists_zeros_code {tokens : List Token} {t : List Sym} {bytes : List Byte} {u : State}
    (h : Compressed tokens t bytes u) (hne : t ≠ []) : ∃ z k, 1 ≤ k ∧ u.codeOf z = ⟨true, List.replicate k false⟩ := by
  obtain ⟨m, hinv, hp, hcode⟩ := h.generated
  obtain ⟨x, hx⟩ := List.exists_mem_of_ne_nil t hne
  have hmem := h.valid x hx
  rw [State.codeOf, hcode, ← State.codeOf, hinv.generated_valid_iff hp] at hmem
  obtain ⟨z, k, hz⟩ := generated_exists_zeros hinv hp (List.ne_nil_of_mem hmem)
  rw [State.codeOf, ← hcode] at hz
  have hpos := h.prefixCode.pos (x := z) (by rw [hz])
  exact ⟨z, k, by simpa [hz] using hpos, hz⟩

theorem codeStream_append (code : Table CodeEntry) (t t' : List Sym) :
    codeStream code (t ++ t') = codeStream code t ++ codeStream code t' := List.flatMap_append

/-- p zero bits are p / k copies of a code of k zero bits, and p mod k bits behind them. -/
theorem replicate_eq_codeStream_append {code : Table CodeEntry} {z : Sym} {k : Nat}
    (hz : (entry code z).bits = List.replicate k false) (p : Nat) :
    List.replicate p false = codeStream code (List.replicate (p / k) z) ++ List.replicate (p % k) false := by
  rw [codeStream, List.flatMap_replicate, hz, List.flatten_replicate_replicate, List.replicate_append_replicate,
    Nat.mul_comm, Nat.div_add_mod]

/-- Fewer zero bits than the code of zero bits has complete nothing. -/
theorem completesNothing_zeros {code : Table CodeEntry} {j k : Nat} (hjk : j < k)
    (hshort : noShorterCode code (List.replicate k false)) : CompletesNothing code (List.replicate j false) := fun i hi hle => by
  rw [List.length_replicate] at hle
  have := hshort i hi (by rw [List.length_replicate]; omega)
  rw [List.take_replicate] at this ⊢
  rwa [Nat.min_eq_left (by omega)] at this ⊢

theorem padCount_le (n : Nat) : padCount n ≤ 7 := by
  rw [padCount]
  omega

/-- Settles O60: the pad bits are phantoms of the all-zeros code's symbol and a rest too short to be one. -/
theorem legacyDecodeAppendsPhantoms : Obligations.LegacyDecodeAppendsPhantoms := by
  intro s u t hne hrun hu
  obtain ⟨bytes, h⟩ := compressed_of_success hrun hu
  obtain ⟨z, k, hk, hz⟩ := h.exists_zeros_code hne
  have hvalid : (u.codeOf z).valid = true := by rw [hz]
  have hbits : (u.codeOf z).bits = List.replicate k false := by rw [hz]
  have hfits := h.fits
  have hlen : (BitVec.ofNat 32 (codeStream u.code t).length).toNat = (codeStream u.code t).length := Nat.mod_eq_of_lt (by omega)
  refine ⟨bytes, _, z, h.resp, hvalid, by simpa [hbits] using hk, by simp [hbits], ?_⟩
  rw [hlen, hbits, List.length_replicate]
  intro hroom
  have hmod : padCount (codeStream u.code t).length % k < k := Nat.mod_lt _ hk
  have hpad := (Nat.mod_le _ k).trans (padCount_le (codeStream u.code t).length)
  have hlongest := length_le_longest hvalid
  rw [← State.codeOf, hbits, List.length_replicate] at hlongest
  have hstream := h.stream
  rw [replicate_eq_codeStream_append hbits, ← List.append_assoc, ← codeStream_append] at hstream
  have hsyms : ∀ x ∈ t ++ List.replicate (padCount (codeStream u.code t).length / k) z, (u.codeOf x).valid = true := by
    intro x hx
    rcases List.mem_append.mp hx with hx | hx
    · exact h.valid x hx
    · rwa [List.eq_of_mem_replicate hx]
  obtain ⟨v, hdecode, hdone, hresp⟩ := runAll_legacyCommands hu (.inr (.inl h.done.2)) h.prefixCode h.inv hsyms
    (by simpa using hroom) (by rw [h.bytesLength, ceil8]; omega) hstream
    (completesNothing_zeros hmod (hbits ▸ h.prefixCode.noShorterCode hvalid)) (by rw [List.length_replicate]; omega)
    ⟨by rwa [List.length_replicate], by simp⟩
  exact ⟨v, hdecode, hdone, by rw [hresp, List.length_append, List.length_replicate]⟩

end Sys2Proof.Machine
end

section
/-! PROOF. The error state: what it discards, that only CLEAR leaves it, and that no second ERR token is emitted in it
(60_exceptions.md R164, R166, R167). -/

namespace Sys2Proof.Machine

/-- Settles O10: what is not discarded is raised or has an effect, and a command outside the five does neither with ERR set. -/
theorem errorStateDiscardsCommands : Obligations.ErrorStateDiscardsCommands := fun _ _ he hgate => exec_of_error hgate he

theorem err_notMem_codeTokens (op : Byte) (e : Error) (c : CodeEntry) : Token.err op e ∉ codeTokens c := by
  simp [codeTokens]

/-- Settles O11: with ERR set a command is discarded or is one of the five, of which CLEAR alone writes ERR and none emits an ERR
token. -/
theorem errorIsStickyUntilClear : Obligations.ErrorIsStickyUntilClear := by
  intro i s t he h
  cases exec_outcome h with
  | discarded hgate =>
    have hclear : i ≠ .clear := by
      rintro rfl
      cases hgate
    exact ⟨.inr ⟨hclear, rfl⟩, [], (List.append_nil _).symm, by simp⟩
  | raised _ he' => exact absurd he' he
  | effect _ heff =>
    cases heff with
    | nop => exact ⟨.inr ⟨by simp, rfl⟩, [], (List.append_nil _).symm, by simp⟩
    | clear => exact ⟨.inl ⟨rfl, rfl⟩, [], (List.append_nil _).symm, by simp⟩
    | statusRead | freqRead => exact ⟨.inr ⟨by simp, rfl⟩, _, rfl, by simp⟩
    | codeRead x => exact ⟨.inr ⟨by simp, rfl⟩, _, rfl, fun op e => err_notMem_codeTokens op e _⟩
    | argLo _ he' | argHi _ he' | freqAdd _ he' | freqSet _ he' | buildTree he' | genCodes he' | encSym _ he' | encFlush he'
    | tblBegin _ he' | tblAppend _ he' | tblInvert he' | decStart _ he' | decByte _ _ he' | decEnd he' => exact absurd he' he

end Sys2Proof.Machine
end

section
/-! PROOF. What a command raises: an error of its row of R161's table, by error entry alone, with at most the SYM tokens of DEC_BYTE
before it (60_exceptions.md R161, R162). -/

namespace Sys2Proof.Machine

/-! ### The row of R161 -/

/-- A command is legal in every phase and has an empty row, or is not legal in DEC_DONE and its row begins with SEQUENCE (R91,
R161). -/
theorem mayRaise_cases (i : Instr) : ((∀ p, legalIn i p = true) ∧ mayRaise i = []) ∨
    (legalIn i .decDone = false ∧ mayRaise i = .sequence :: (mayRaise i).tail) := by
  cases i with
  | nop | clear | statusRead | argLo | argHi | freqRead | codeRead => exact .inl ⟨fun _ => rfl, rfl⟩
  | freqAdd | freqSet | buildTree | genCodes | encSym | encFlush | tblBegin | tblAppend | tblInvert | decStart | decByte
  | decEnd => exact .inr ⟨rfl, rfl⟩

theorem sequence_mem_mayRaise {i : Instr} {p : Phase} (h : legalIn i p ≠ true) : Error.sequence ∈ mayRaise i := by
  obtain ⟨hlegal, -⟩ | ⟨-, hrow⟩ := mayRaise_cases i
  · exact absurd (hlegal p) h
  · exact hrow ▸ List.mem_cons_self

theorem mem_mayRaise_of_raised {i : Instr} {s t : State} {e : Error} (he : s.err = none) (h : exec i s = .next t)
    (ht : t.err = some e) : e ∈ mayRaise i := by
  obtain hfree | ⟨legal, body, hcheck⟩ := neverRaises_or_checksPhase i
  · simp [hfree.err_none s t he h] at ht
  · rw [hcheck.exec_eq] at h
    rcases inPhases_cases h with ⟨he', -⟩ | ⟨-, -, hb⟩ | ⟨r, -, -, hb, rfl⟩ | ⟨-, hp, rfl⟩
    · exact absurd he he'
    · simp [hcheck.keepsErr s t hb, he] at ht
    · exact Option.some.inj ht ▸ List.mem_of_mem_tail (hcheck.raises s r hb)
    · obtain rfl := Option.some.inj ht
      exact sequence_mem_mayRaise fun hlegal => hp ((hcheck.mem_legal _).mpr hlegal)

/-! ### The tokens before the ERR token (R162) -/

/-- Only SYM tokens stand in the list. -/
def OnlySyms (out : List Token) : Prop := ∀ tok ∈ out, ∃ x, tok = .sym x

theorem onlySyms_nil : OnlySyms [] := by simp [OnlySyms]

theorem OnlySyms.concat {out : List Token} (h : OnlySyms out) (x : Sym) : OnlySyms (out ++ [.sym x]) := by
  intro tok htok
  rcases List.mem_append.mp htok with hold | hnew
  · exact h tok hold
  · exact ⟨x, List.mem_singleton.mp hnew⟩

theorem scanBit_onlySyms {s : State} {pos : Nat} {bit : Bool} {a a' : Scan} (ha : OnlySyms a.out)
    (h : scanBit s pos bit a = .ok a') : OnlySyms a'.out := by
  obtain ⟨-, -, -, rfl⟩ | ⟨-, x, -, -, rfl⟩ | ⟨-, -, -, rfl⟩ := scanBit_ok h
  · exact ha
  · exact ha.concat x
  · exact ha

theorem scanBits_raise_onlySyms {s : State} {pos : Nat} {x : Bits} {a : Scan} {r : Raise} (ha : OnlySyms a.out)
    (h : scanBits s pos x a = .error r) : OnlySyms r.emitted := by
  induction x generalizing pos a with
  | nil => cases h
  | cons b x ih =>
    simp only [scanBits] at h
    split at h
    · obtain rfl := Except.error.inj h
      exact (scanBit_error ‹_›).1 ▸ ha
    · exact ih (scanBit_onlySyms ha ‹_›) h

theorem decByte_raise_onlySyms {b : Byte} {s : State} {r : Raise} (h : decByte b s = .error r) : OnlySyms r.emitted := by
  unfold decByte at h
  split at h
  · exact Except.error.inj h ▸ onlySyms_nil
  · split at h
    · exact Except.error.inj h ▸ onlySyms_nil
    · split at h
      · exact Except.error.inj h ▸ scanBits_raise_onlySyms onlySyms_nil ‹_›
      · cases h

/-! ### Error entry -/

/-- The tokens a raise of the command keeps: SYM tokens, and none but for DEC_BYTE (R162). -/
structure EmitsBefore (i : Instr) (r : Raise) : Prop where
  onlySyms : OnlySyms r.emitted
  decByte : r.emitted ≠ [] → ∃ b, i = .decByte b

theorem emitsBefore_plain (i : Instr) (e : Error) : EmitsBefore i (.plain e) := ⟨onlySyms_nil, fun h => absurd rfl h⟩

/-- The command's raise is error entry from the state before it. -/
def RaisedFrom (s : State) (i : Instr) (t : State) : Prop := ∃ r, EmitsBefore i r ∧ t = raiseError i.opcode r s

/-- A command of the `inPhases` kind whose body keeps ERR when it raises nothing. -/
theorem raisedFrom_of_inPhases {i : Instr} {legal : List Phase} {body : State → Except Raise State} {s t : State} {e : Error}
    (he : s.err = none) (h : inPhases i.opcode legal body s = .next t) (ht : t.err = some e)
    (hok : body s = .ok t → t.err = s.err) (hraise : ∀ r, body s = .error r → EmitsBefore i r) : RaisedFrom s i t := by
  rcases inPhases_cases h with ⟨he', -⟩ | ⟨-, -, hb⟩ | ⟨r, -, -, hb, rfl⟩ | ⟨-, -, rfl⟩
  · exact absurd he he'
  · simp [hok hb, he] at ht
  · exact ⟨r, hraise r hb, rfl⟩
  · exact ⟨_, emitsBefore_plain i .sequence, rfl⟩

/-- A command of the `inPhases` kind whose body raises nothing. -/
theorem raisedFrom_of_total {i : Instr} {legal : List Phase} {f : State → State} {s t : State} {e : Error}
    (he : s.err = none) (h : exec i s = .next t) (ht : t.err = some e)
    (hexec : ∀ u, exec i u = inPhases i.opcode legal (fun v => .ok (f v)) u) (hf : ∀ u, (f u).err = u.err) :
    RaisedFrom s i t :=
  raisedFrom_of_inPhases (body := fun v => .ok (f v)) he (hexec s ▸ h) ht (fun hb => Except.ok.inj hb ▸ hf s)
    fun _ hb => by cases hb

theorem raisedFrom_of_exec {i : Instr} {s t : State} {e : Error} (he : s.err = none) (h : exec i s = .next t)
    (ht : t.err = some e) : RaisedFrom s i t := by
  have hrow := mem_mayRaise_of_raised he h ht
  cases i with
  | nop | clear | statusRead | argLo | argHi | freqRead | codeRead => cases hrow
  | freqSet | encFlush | tblBegin | decStart => exact raisedFrom_of_total he h ht (fun _ => rfl) fun _ => rfl
  | buildTree => exact raisedFrom_of_total he h ht (fun _ => rfl) buildTree_err
  | genCodes => exact raisedFrom_of_total he h ht (fun _ => rfl) genCodes_err
  | freqAdd x =>
    refine raisedFrom_of_inPhases he h ht (fun hb => ?_) fun r hb => freqAdd_error hb ▸ emitsBefore_plain _ _
    obtain ⟨-, rfl⟩ := freqAdd_ok hb
    rfl
  | encSym x =>
    refine raisedFrom_of_inPhases he h ht (fun hb => ?_) fun r hb => ?_
    · obtain ⟨-, -, rfl⟩ := encSym_ok hb
      rfl
    · obtain rfl | rfl := encSym_error hb <;> exact emitsBefore_plain _ _
  | tblAppend bits =>
    refine raisedFrom_of_inPhases he h ht (fun hb => ?_) fun r hb => tblAppend_error hb ▸ emitsBefore_plain _ _
    obtain ⟨-, rfl⟩ := tblAppend_ok hb
    rfl
  | tblInvert =>
    refine raisedFrom_of_inPhases he h ht (fun hb => ?_) fun r hb => tblInvert_error hb ▸ emitsBefore_plain _ _
    obtain ⟨-, -, rfl⟩ := tblInvert_ok hb
    rfl
  | decByte b =>
    refine raisedFrom_of_inPhases he h ht (fun hb => ?_) fun r hb => ⟨decByte_raise_onlySyms hb, fun _ => ⟨b, rfl⟩⟩
    obtain ⟨a, -, -, -, rfl⟩ := decByte_ok hb
    rfl
  | decEnd =>
    refine raisedFrom_of_inPhases he h ht (fun hb => ?_) fun r hb => decEnd_error hb ▸ emitsBefore_plain _ _
    obtain ⟨-, rfl⟩ := decEnd_ok hb
    rfl

/-- Settles O12: a command that raises is error entry from the state before it, with the tokens its body had emitted. -/
theorem errorEntryIsPrecise : Obligations.ErrorEntryIsPrecise := by
  intro i s t e he h ht
  obtain ⟨r, hr, rfl⟩ := raisedFrom_of_exec he h ht
  obtain rfl := Option.some.inj ht
  exact ⟨r.emitted, hr.onlySyms, hr.decByte, rfl⟩

/-! ### Every error of the row is raised -/

/-- The command raises the error in some state without one. -/
def CanRaise (i : Instr) (e : Error) : Prop := ∃ s t, s.err = none ∧ exec i s = .next t ∧ t.err = some e

/-- In DEC_DONE no command is legal that is not legal in every phase (40_control.md R91). -/
theorem canRaise_sequence {i : Instr} (h : legalIn i .decDone = false) : CanRaise i .sequence :=
  ⟨{ State.reset with phase := .decDone }, _, rfl, exec_of_not_legal rfl h, rfl⟩

/-- The state with the code c for every symbol. -/
def withCode (c : Bits) (s : State) : State := { s with code := Vector.replicate 256 ⟨true, c⟩ }

theorem codeOf_withCode (c : Bits) (s : State) (x : Sym) : (withCode c s).codeOf x = ⟨true, c⟩ := entry_replicate _ x

/-- FREQ_ADD of a count at its limit (R100). -/
theorem canRaise_freqAdd_overflow (x : Sym) : CanRaise (.freqAdd x) .overflow := by
  refine ⟨{ State.reset with freq := Vector.replicate 256 0xFFFFFFFF }, _, rfl, exec_freqAdd_of_max rfl rfl ?_, rfl⟩
  rw [State.freqOf, entry_replicate]
  rfl

/-- ENC_SYM with an empty Code Table (R130). -/
theorem canRaise_encSym_encoding (x : Sym) : CanRaise (.encSym x) .encoding := by
  refine ⟨{ State.reset with phase := .codes }, _, rfl, (encSymErrors _ x rfl rfl).1 ?_, rfl⟩
  rw [State.codeOf, State.reset, entry_replicate]

/-- ENC_SYM of a code of one bit with BITCNT at its limit (R130). -/
theorem canRaise_encSym_overflow (x : Sym) : CanRaise (.encSym x) .overflow :=
  ⟨withCode [false] { State.reset with bitcnt := 0xFFFFFFFF, phase := .codes }, _, rfl,
    (encSymErrors _ x rfl rfl).2 (by rw [codeOf_withCode]) (by rw [codeOf_withCode]; decide), rfl⟩

/-- TBL_APPEND to a code of 255 bits (R141). -/
theorem canRaise_tblAppend_corruptTable {bits : Bits} (h : 1 ≤ bits.length) : CanRaise (.tblAppend bits) .corruptTable := by
  refine ⟨withCode (List.replicate 255 false) { State.reset with phase := .tblLoad }, _, rfl,
    (tblAppendExtendsTheSelectedCode _ bits rfl rfl).2 ?_, rfl⟩
  rw [codeOf_withCode, List.length_replicate]
  omega

/-- TBL_INVERT of a table with an empty code (R142). -/
theorem canRaise_tblInvert_corruptTable : CanRaise .tblInvert .corruptTable :=
  ⟨withCode [] State.reset, _, rfl, (tblInvertAcceptsDistinctCodes _ rfl (.inl rfl)).2
    (.inl ⟨0, by rw [codeOf_withCode], by rw [codeOf_withCode]⟩), rfl⟩

/-- DEC_BYTE of a stream without bits (R145). -/
theorem canRaise_decByte_decoding (b : Byte) : CanRaise (.decByte b) .decoding :=
  ⟨{ State.reset with phase := .dec }, _, rfl, (decByteErrorsBeforeAnyBit _ b rfl rfl).1 rfl le_rfl, rfl⟩

/-- DEC_BYTE in LEGACY mode with DBYTES at its limit (R145). -/
theorem canRaise_decByte_overflow (b : Byte) : CanRaise (.decByte b) .overflow :=
  ⟨{ State.reset with legacy := true, dbytes := 0xFFFFFFFF, phase := .dec }, _, rfl,
    (decByteErrorsBeforeAnyBit _ b rfl rfl).2 (.inl rfl) rfl, rfl⟩

/-- DEC_END with an unfinished code (R146). -/
theorem canRaise_decEnd_decoding : CanRaise .decEnd .decoding :=
  ⟨{ State.reset with dacc := [true], phase := .dec }, _, rfl, (decEndChecksTheStream _ rfl rfl).2 (by simp [State.reset]), rfl⟩

/-- Every error of the row behind SEQUENCE, which is the row's first. -/
theorem canRaise_of_mem_tail {i : Instr} {e : Error} (hwf : i.wf = true) (h : e ∈ (mayRaise i).tail) : CanRaise i e := by
  cases i with
  | nop | clear | statusRead | argLo | argHi | freqRead | codeRead | freqSet | buildTree | genCodes | encFlush | tblBegin
  | decStart => cases h
  | freqAdd x =>
    obtain rfl := List.mem_singleton.mp h
    exact canRaise_freqAdd_overflow x
  | encSym x =>
    obtain rfl | rfl := List.mem_pair.mp h
    · exact canRaise_encSym_encoding x
    · exact canRaise_encSym_overflow x
  | tblAppend bits =>
    obtain rfl := List.mem_singleton.mp h
    simp only [Instr.wf, Bool.and_eq_true, decide_eq_true_eq] at hwf
    exact canRaise_tblAppend_corruptTable hwf.1
  | tblInvert =>
    obtain rfl := List.mem_singleton.mp h
    exact canRaise_tblInvert_corruptTable
  | decByte b =>
    obtain rfl | rfl := List.mem_pair.mp h
    · exact canRaise_decByte_decoding b
    · exact canRaise_decByte_overflow b
  | decEnd =>
    obtain rfl := List.mem_singleton.mp h
    exact canRaise_decEnd_decoding

/-- Settles O15: a raise is the phase check's SEQUENCE or the body's error, both of the row, and each error of the row has its
state. -/
theorem commandsRaiseExactlyTheirRow : Obligations.CommandsRaiseExactlyTheirRow := by
  refine ⟨fun _ _ _ _ => mem_mayRaise_of_raised, fun i e hwf h => ?_⟩
  obtain ⟨-, hrow⟩ | ⟨hlegal, hrow⟩ := mayRaise_cases i
  · simp [hrow] at h
  · rw [hrow] at h
    obtain rfl | htail := List.mem_cons.mp h
    · exact canRaise_sequence hlegal
    · exact canRaise_of_mem_tail hwf htail

end Sys2Proof.Machine
end

section
/-! PROOF. How many tokens one command emits (70_reset_and_hazards.md R196): a DEC_BYTE one SYM per bit at most, an ENC_SYM the whole
bytes of PEND with the code behind it, a CODE_READ a token per 32 code bits, an error one ERR token. -/

namespace Sys2Proof.Machine

/-! ### Counting the tokens appended to RESP -/

/-- RESP grew by at most n tokens from s to t. -/
def EmitsAtMost (n : Nat) (s t : State) : Prop := ∃ out, t.resp = s.resp ++ out ∧ out.length ≤ n

theorem emitsAtMost_of_resp_eq {n : Nat} {s t : State} (h : t.resp = s.resp) : EmitsAtMost n s t :=
  ⟨[], by rw [h, List.append_nil], Nat.zero_le n⟩

/-- Error entry emits the ERR token behind what was emitted before it (R162). -/
theorem emitsAtMost_raiseError {n : Nat} {op : Byte} {r : Raise} {s : State} (h : r.emitted.length < n) :
    EmitsAtMost n s (raiseError op r s) :=
  ⟨r.emitted ++ [.err op r.code], by rw [raiseError_resp, List.append_assoc], by rwa [List.length_append]⟩

/-! ### DEC_BYTE: one SYM token per bit at most (44_unpacker.md R145) -/

theorem scanBit_out_length_le {s : State} {pos : Nat} {bit : Bool} {a a' : Scan} (h : scanBit s pos bit a = .ok a') :
    a'.out.length ≤ a.out.length + 1 := by
  obtain ⟨-, -, -, rfl⟩ | ⟨-, x, -, -, rfl⟩ | ⟨-, -, -, rfl⟩ := scanBit_ok h
  · exact Nat.le_succ _
  · exact (List.length_append ..).le
  · exact Nat.le_succ _

theorem scanBits_out_length_le {s : State} {pos : Nat} {x : Bits} {a a' : Scan} (h : scanBits s pos x a = .ok a') :
    a'.out.length ≤ a.out.length + x.length := by
  induction x generalizing pos a with
  | nil => exact Except.ok.inj h ▸ le_rfl
  | cons b x ih =>
    simp only [scanBits] at h
    split at h
    · cases h
    · have hbit := scanBit_out_length_le ‹_›
      have hrest := ih h
      rw [List.length_cons]
      omega

/-- The bit that raises emits nothing, so that the ERR token takes its place. -/
theorem scanBits_raise_length_lt {s : State} {pos : Nat} {x : Bits} {a : Scan} {r : Raise} (h : scanBits s pos x a = .error r) :
    r.emitted.length < a.out.length + x.length := by
  induction x generalizing pos a with
  | nil => cases h
  | cons b x ih =>
    simp only [scanBits] at h
    rw [List.length_cons]
    split at h
    · obtain rfl := Except.error.inj h
      rw [(scanBit_error ‹_›).1]
      omega
    · have hbit := scanBit_out_length_le ‹_›
      have hrest := ih h
      omega

theorem decByte_raise_length_lt {b : Byte} {s : State} {r : Raise} (h : decByte b s = .error r) : r.emitted.length < 8 := by
  unfold decByte at h
  split at h
  · exact Except.error.inj h ▸ Nat.zero_lt_succ 7
  · split at h
    · exact Except.error.inj h ▸ Nat.zero_lt_succ 7
    · split at h
      · obtain rfl := Except.error.inj h
        exact (scanBits_raise_length_lt ‹_›).trans_eq (by simp)
      · cases h

theorem scanBits_byteBits_out_length_le {s : State} {b : Byte} {a : Scan}
    (h : scanBits s (8 * s.dbytes.toNat) (byteBits b) ⟨s.dacc, s.dsyms, []⟩ = .ok a) : a.out.length ≤ 8 :=
  (scanBits_out_length_le h).trans_eq (by simp)

theorem exec_decByte_emitsAtMost {b : Byte} {s t : State} (h : exec (.decByte b) s = .next t) : EmitsAtMost 8 s t := by
  rcases inPhases_cases h with ⟨-, rfl⟩ | ⟨-, -, hb⟩ | ⟨r, -, -, hb, rfl⟩ | ⟨-, -, rfl⟩
  · exact emitsAtMost_of_resp_eq rfl
  · obtain ⟨a, hscan, -, -, rfl⟩ := decByte_ok hb
    exact ⟨a.out, rfl, scanBits_byteBits_out_length_le hscan⟩
  · exact emitsAtMost_raiseError (decByte_raise_length_lt hb)
  · exact emitsAtMost_raiseError (Nat.zero_lt_succ 7)

/-! ### Errors -/

theorem mostTokens_pos_of_mem_mayRaise {i : Instr} {e : Error} (h : e ∈ mayRaise i) : 0 < mostTokens i := by
  cases i with
  | nop | clear | statusRead | argLo | argHi | freqRead | codeRead => cases h
  | freqAdd | freqSet | buildTree | genCodes | encSym | encFlush | tblBegin | tblAppend | tblInvert | decStart | decByte
  | decEnd => exact Nat.zero_lt_succ _

/-- A command that raises emits the ERR token alone, unless it is DEC_BYTE. -/
theorem emitsAtMost_of_raised {i : Instr} {s t : State} {e : Error} (he : s.err = none) (h : exec i s = .next t)
    (ht : t.err = some e) : EmitsAtMost (mostTokens i) s t := by
  have hpos := mostTokens_pos_of_mem_mayRaise (mem_mayRaise_of_raised he h ht)
  obtain ⟨r, hr, rfl⟩ := raisedFrom_of_exec he h ht
  by_cases hnil : r.emitted = []
  · exact emitsAtMost_raiseError (by rwa [hnil])
  · obtain ⟨b, rfl⟩ := hr.decByte hnil
    exact exec_decByte_emitsAtMost h

/-! ### Effects -/

theorem PendOk.length_le {s : State} (h : PendOk s) : s.pend.length ≤ 7 := by
  by_cases hp : s.phase = .codes
  · rw [h.1 hp]
    omega
  · simp [h.2 hp]

theorem EntriesOk.codeOf_length_le {s : State} (h : EntriesOk s) (x : Sym) : (s.codeOf x).bits.length ≤ 255 :=
  (entriesOk_iff.mp h x).1

theorem codeTokens_length (e : CodeEntry) : (codeTokens e).length = (e.bits.length + 31) / 32 + 1 := by simp [codeTokens]

theorem flushTokens_length_le (s : State) : (flushTokens s).length ≤ 2 := by
  unfold flushTokens
  split <;> simp

theorem Effect.emitsAtMost {i : Instr} {s t : State} (hpend : PendOk s) (hentries : EntriesOk s) (h : Effect s i t) :
    EmitsAtMost (mostTokens i) s t := by
  cases h with
  | nop | clear | argLo | argHi | freqAdd | freqSet | tblBegin | tblAppend | tblInvert | decStart =>
    exact emitsAtMost_of_resp_eq rfl
  | buildTree => exact emitsAtMost_of_resp_eq (buildTree_resp s)
  | genCodes => exact emitsAtMost_of_resp_eq (genCodes_resp s)
  | statusRead | freqRead | decEnd => exact ⟨_, rfl, le_rfl⟩
  | encFlush => exact ⟨_, rfl, flushTokens_length_le s⟩
  | decByte b a _ _ hscan => exact ⟨_, rfl, scanBits_byteBits_out_length_le hscan⟩
  | codeRead x =>
    refine ⟨_, rfl, ?_⟩
    have hcode := hentries.codeOf_length_le x
    rw [codeTokens_length, mostTokens]
    omega
  | encSym x =>
    refine ⟨_, rfl, ?_⟩
    have hcode := hentries.codeOf_length_le x
    have hbits := hpend.length_le
    rw [List.length_map, fullBytes_length, List.length_append, mostTokens]
    omega

/-- Settles O20: a discarded command emits nothing, a raise its ERR token, an effect what R196 counts: (7 + 255) div 8 = 32 bytes,
1 + ceil(255 / 32) = 9 tokens of an entry, 8 symbols of a byte. -/
theorem tokensPerCommandAreBounded : Obligations.TokensPerCommandAreBounded := by
  intro i s t hpend hentries h
  cases exec_outcome h with
  | discarded => exact emitsAtMost_of_resp_eq rfl
  | raised _ he => exact emitsAtMost_of_raised he h rfl
  | effect _ heff => exact heff.emitsAtMost hpend hentries

end Sys2Proof.Machine
end

section
/-! PROOF. The reset state, and CLEAR's (70_reset_and_hazards.md R190, 10_state.md R20). -/

namespace Sys2Proof.Machine

theorem reset_nodes_getElem (i : Fin 511) : State.reset.nodes[i] = Node.zero := by simp

/-- Every field of STATUS is 0 at reset, NDIST because no count is at least 1 (10_state.md R31). -/
theorem statusWord_reset : statusWord State.reset = 0 := by
  have hndist : ndist State.reset.freq = 0 := by
    rw [ndist, reset_freq, Vector.toList_replicate, List.countP_replicate]
    rfl
  rw [statusWord, hndist]
  rfl

/-- Settles O21: the tables are filled with their reset value, the other elements are literals, and CLEAR is `clearSession`, the
reset state but for RESP and the port. -/
theorem resetLeavesEveryElementEmpty : Obligations.ResetLeavesEveryElementEmpty :=
  ⟨fun x => entry_replicate 0 x, reset_nodes_getElem, fun x => entry_replicate CodeEntry.absent x, rfl, rfl, rfl, rfl, rfl, rfl, rfl,
    rfl, rfl, rfl, rfl, rfl, rfl, rfl, rfl, rfl, statusWord_reset, fun _ => rfl, fun s => ⟨clearSession s, exec_clear s, rfl⟩⟩

end Sys2Proof.Machine
end
